-- ==== Sys2Proof/Word.lean ====
section
/-! DEFINITION. The word types of RV32I: XLEN is 32 (R1), memory is addressed by the byte (R33, R41), a register
specifier is a 5-bit field (R71). -/

namespace Sys2Proof

/-- A 32-bit value: a register, an address, an instruction word (R1, R2, R33). -/
abbrev Word := BitVec 32

/-- One byte of memory (R41). -/
abbrev Byte := BitVec 8

/-- A register specifier: "the register number 0 to 31 as an unsigned integer" (R71). -/
abbrev RegIdx := BitVec 5

end Sys2Proof
end

