-- ==== Sys2Proof/Syntax.lean ====
section
/-! DEFINITION. The instructions of RV32I as syntax: one constructor for each row of spec/opcode_table.json, in its
order. Operand fields stand in the order of the assembler syntax of R97. Offsets of jumps and branches are held in
bytes, with their low bit (R80, R82); `WellFormed` asks that bit to be 0. -/

namespace Sys2Proof

/-- A set of access classes named by a FENCE's `pred` or `succ` field: device input, device output, memory reads,
memory writes (R91, R190). -/
structure AccessSet where
  i : Bool
  o : Bool
  r : Bool
  w : Bool
deriving DecidableEq, Repr

/-- The set with every class. -/
def AccessSet.iorw : AccessSet := ⟨true, true, true, true⟩

/-- Memory reads and memory writes. -/
def AccessSet.rw : AccessSet := ⟨false, false, true, true⟩

/-- Memory writes alone. -/
def AccessSet.write : AccessSet := ⟨false, false, false, true⟩

/-- The empty set. -/
def AccessSet.none : AccessSet := ⟨false, false, false, false⟩

/-- The instructions: the 40 of R3, and the two encodings of FENCE that the opcode table lists under names of their own
(FENCE.TSO, R192; PAUSE, R196). -/
inductive Instr where
  -- integer register-immediate (R111 to R121)
  | addi  (rd rs1 : RegIdx) (imm : BitVec 12)
  | slti  (rd rs1 : RegIdx) (imm : BitVec 12)
  | sltiu (rd rs1 : RegIdx) (imm : BitVec 12)
  | andi  (rd rs1 : RegIdx) (imm : BitVec 12)
  | ori   (rd rs1 : RegIdx) (imm : BitVec 12)
  | xori  (rd rs1 : RegIdx) (imm : BitVec 12)
  | slli  (rd rs1 : RegIdx) (shamt : BitVec 5)
  | srli  (rd rs1 : RegIdx) (shamt : BitVec 5)
  | srai  (rd rs1 : RegIdx) (shamt : BitVec 5)
  | lui   (rd : RegIdx) (imm20 : BitVec 20)
  | auipc (rd : RegIdx) (imm20 : BitVec 20)
  -- integer register-register (R122 to R131)
  | add   (rd rs1 rs2 : RegIdx)
  | sub   (rd rs1 rs2 : RegIdx)
  | slt   (rd rs1 rs2 : RegIdx)
  | sltu  (rd rs1 rs2 : RegIdx)
  | and   (rd rs1 rs2 : RegIdx)
  | or    (rd rs1 rs2 : RegIdx)
  | xor   (rd rs1 rs2 : RegIdx)
  | sll   (rd rs1 rs2 : RegIdx)
  | srl   (rd rs1 rs2 : RegIdx)
  | sra   (rd rs1 rs2 : RegIdx)
  -- control transfer (R150, R151, R157 to R162)
  | jal   (rd : RegIdx) (off : BitVec 21)
  | jalr  (rd rs1 : RegIdx) (imm : BitVec 12)
  | beq   (rs1 rs2 : RegIdx) (off : BitVec 13)
  | bne   (rs1 rs2 : RegIdx) (off : BitVec 13)
  | blt   (rs1 rs2 : RegIdx) (off : BitVec 13)
  | bge   (rs1 rs2 : RegIdx) (off : BitVec 13)
  | bltu  (rs1 rs2 : RegIdx) (off : BitVec 13)
  | bgeu  (rs1 rs2 : RegIdx) (off : BitVec 13)
  -- loads and stores (R175 to R182); a store names its data register first, as its syntax does
  | lw    (rd rs1 : RegIdx) (imm : BitVec 12)
  | lh    (rd rs1 : RegIdx) (imm : BitVec 12)
  | lhu   (rd rs1 : RegIdx) (imm : BitVec 12)
  | lb    (rd rs1 : RegIdx) (imm : BitVec 12)
  | lbu   (rd rs1 : RegIdx) (imm : BitVec 12)
  | sw    (rs2 rs1 : RegIdx) (imm : BitVec 12)
  | sh    (rs2 rs1 : RegIdx) (imm : BitVec 12)
  | sb    (rs2 rs1 : RegIdx) (imm : BitVec 12)
  -- memory ordering (R190, R192, R196); rs1 and rd of a FENCE are encoded and ignored (R193)
  | fence (fm : BitVec 4) (pred succ : AccessSet) (rs1 rd : RegIdx)
  | fenceTso
  | pause
  -- system (R200, R201)
  | ecall
  | ebreak
deriving DecidableEq, Repr

end Sys2Proof
end

