-- ==== Sys2Proof/WellFormed.lean ====
section
/-! DEFINITION. Which instruction terms stand for a word: the operand constraints the encodings impose. -/

namespace Sys2Proof

/-- Bit 0 of a branch offset is not in the word: "it is always zero" (R75, R80). -/
def branchOffsetOk (off : BitVec 13) : Bool := !off.getLsbD 0

/-- Bit 0 of a JAL offset is not in the word (R77, R82). -/
def jumpOffsetOk (off : BitVec 21) : Bool := !off.getLsbD 0

/-- The fields of the word that is FENCE.TSO (R91, R192). -/
def isFenceTsoFields (fm : BitVec 4) (pred succ : AccessSet) (rs1 rd : RegIdx) : Bool :=
  fm == 0b1000#4 && pred == .rw && succ == .rw && rs1 == 0#5 && rd == 0#5

/-- The fields of the word that is PAUSE (R91, R196). -/
def isPauseFields (fm : BitVec 4) (pred succ : AccessSet) (rs1 rd : RegIdx) : Bool :=
  fm == 0b0000#4 && pred == .write && succ == .none && rs1 == 0#5 && rd == 0#5

/-- An instruction term that some word stands for. Jump and branch offsets are even; a FENCE is not written with the
fields of the two encodings that have constructors of their own, so that each word has one term (log entry 18). -/
def WellFormed : Instr → Bool
  | .addi _ _ _ | .slti _ _ _ | .sltiu _ _ _ | .andi _ _ _ | .ori _ _ _ | .xori _ _ _ => true
  | .slli _ _ _ | .srli _ _ _ | .srai _ _ _ => true
  | .lui _ _ | .auipc _ _ => true
  | .add _ _ _ | .sub _ _ _ | .slt _ _ _ | .sltu _ _ _ | .and _ _ _ | .or _ _ _ | .xor _ _ _ => true
  | .sll _ _ _ | .srl _ _ _ | .sra _ _ _ => true
  | .jal _ off => jumpOffsetOk off
  | .jalr _ _ _ => true
  | .beq _ _ off | .bne _ _ off | .blt _ _ off | .bge _ _ off | .bltu _ _ off | .bgeu _ _ off => branchOffsetOk off
  | .lw _ _ _ | .lh _ _ _ | .lhu _ _ _ | .lb _ _ _ | .lbu _ _ _ => true
  | .sw _ _ _ | .sh _ _ _ | .sb _ _ _ => true
  | .fence fm pred succ rs1 rd => !isFenceTsoFields fm pred succ rs1 rd && !isPauseFields fm pred succ rs1 rd
  | .fenceTso | .pause => true
  | .ecall | .ebreak => true

end Sys2Proof
end

