-- ==== Sys2Proof/Decode.lean ====
section
/-! DEFINITION. Decoding and encoding (30_encoding.md). The opcode table is a list of rows, each a mask, a pattern and
the fields of its format, as R86 to R92 write it; a word is the instruction of the row whose mask and pattern it meets
(R96), and a word that meets none is reserved (R93). The encoder is written from the formats R72 to R77. The numbers are
the spec's, which marks most of them as general knowledge (log entry 17). -/

namespace Sys2Proof

/-! ## Fields (R71 to R84) -/

def opcodeField (w : Word) : BitVec 7 := w.extractLsb' 0 7
def rdField (w : Word) : RegIdx := w.extractLsb' 7 5
def funct3Field (w : Word) : BitVec 3 := w.extractLsb' 12 3
def rs1Field (w : Word) : RegIdx := w.extractLsb' 15 5
def rs2Field (w : Word) : RegIdx := w.extractLsb' 20 5
def funct7Field (w : Word) : BitVec 7 := w.extractLsb' 25 7

/-- The I-immediate, `inst[31:20]` (R73, R78). -/
def immIField (w : Word) : BitVec 12 := w.extractLsb' 20 12

/-- The shift amount, `inst[24:20]` (R83). -/
def shamtField (w : Word) : BitVec 5 := w.extractLsb' 20 5

/-- The S-immediate, `inst[31:25]` above `inst[11:7]` (R74, R79). -/
def immSField (w : Word) : BitVec 12 := w.extractLsb' 25 7 ++ w.extractLsb' 7 5

/-- The B-immediate with its low zero bit (R75, R80). -/
def immBField (w : Word) : BitVec 13 :=
  w.extractLsb' 31 1 ++ w.extractLsb' 7 1 ++ w.extractLsb' 25 6 ++ w.extractLsb' 8 4 ++ 0#1

/-- The upper immediate, `inst[31:12]` (R76, R81). -/
def immUField (w : Word) : BitVec 20 := w.extractLsb' 12 20

/-- The J-immediate with its low zero bit (R77, R82). -/
def immJField (w : Word) : BitVec 21 :=
  w.extractLsb' 31 1 ++ w.extractLsb' 12 8 ++ w.extractLsb' 20 1 ++ w.extractLsb' 21 10 ++ 0#1

/-- A 4-bit set field: I, O, R, W from the high bit down (R91). -/
def AccessSet.ofBits (b : BitVec 4) : AccessSet := ⟨b.getLsbD 3, b.getLsbD 2, b.getLsbD 1, b.getLsbD 0⟩

/-- The bits of a set field (R91). -/
def AccessSet.toBits (a : AccessSet) : BitVec 4 :=
  BitVec.ofBool a.i ++ BitVec.ofBool a.o ++ BitVec.ofBool a.r ++ BitVec.ofBool a.w

/-- `fm = inst[31:28]`, `pred = inst[27:24]`, `succ = inst[23:20]` (R91). -/
def fmField (w : Word) : BitVec 4 := w.extractLsb' 28 4
def predField (w : Word) : AccessSet := .ofBits (w.extractLsb' 24 4)
def succField (w : Word) : AccessSet := .ofBits (w.extractLsb' 20 4)

/-! ## The opcode table (R86 to R92) -/

/-- One row of the opcode table: `w` is the row's instruction when `w &&& mask = pattern`. -/
structure OpRow where
  mask : Word
  pattern : Word
  build : Word → Instr

/-- Does the word meet the row (R86, R96)? -/
def OpRow.hits (r : OpRow) (w : Word) : Bool := w &&& r.mask == r.pattern

/-- A row whose instruction takes rd, rs1 and the I-immediate. -/
def rowI (pattern : Word) (f : RegIdx → RegIdx → BitVec 12 → Instr) : OpRow :=
  ⟨0x0000707F#32, pattern, fun w => f (rdField w) (rs1Field w) (immIField w)⟩

/-- A row of the shift-immediate specialisation: `inst[31:25]` is fixed (R83). -/
def rowShift (pattern : Word) (f : RegIdx → RegIdx → BitVec 5 → Instr) : OpRow :=
  ⟨0xFE00707F#32, pattern, fun w => f (rdField w) (rs1Field w) (shamtField w)⟩

def rowU (pattern : Word) (f : RegIdx → BitVec 20 → Instr) : OpRow :=
  ⟨0x0000007F#32, pattern, fun w => f (rdField w) (immUField w)⟩

def rowR (pattern : Word) (f : RegIdx → RegIdx → RegIdx → Instr) : OpRow :=
  ⟨0xFE00707F#32, pattern, fun w => f (rdField w) (rs1Field w) (rs2Field w)⟩

def rowJ (pattern : Word) (f : RegIdx → BitVec 21 → Instr) : OpRow :=
  ⟨0x0000007F#32, pattern, fun w => f (rdField w) (immJField w)⟩

def rowB (pattern : Word) (f : RegIdx → RegIdx → BitVec 13 → Instr) : OpRow :=
  ⟨0x0000707F#32, pattern, fun w => f (rs1Field w) (rs2Field w) (immBField w)⟩

def rowS (pattern : Word) (f : RegIdx → RegIdx → BitVec 12 → Instr) : OpRow :=
  ⟨0x0000707F#32, pattern, fun w => f (rs2Field w) (rs1Field w) (immSField w)⟩

/-- A row that is one word. -/
def rowWord (pattern : Word) (i : Instr) : OpRow := ⟨0xFFFFFFFF#32, pattern, fun _ => i⟩

/-- OP-IMM, LUI and AUIPC (R86, R90). -/
def rowsImmediate : List OpRow :=
  [rowI 0x00000013#32 .addi, rowI 0x00002013#32 .slti, rowI 0x00003013#32 .sltiu, rowI 0x00007013#32 .andi,
   rowI 0x00006013#32 .ori, rowI 0x00004013#32 .xori,
   rowShift 0x00001013#32 .slli, rowShift 0x00005013#32 .srli, rowShift 0x40005013#32 .srai,
   rowU 0x00000037#32 .lui, rowU 0x00000017#32 .auipc]

/-- OP (R87). -/
def rowsRegister : List OpRow :=
  [rowR 0x00000033#32 .add, rowR 0x40000033#32 .sub, rowR 0x00002033#32 .slt, rowR 0x00003033#32 .sltu,
   rowR 0x00007033#32 .and, rowR 0x00006033#32 .or, rowR 0x00004033#32 .xor, rowR 0x00001033#32 .sll,
   rowR 0x00005033#32 .srl, rowR 0x40005033#32 .sra]

/-- JAL, JALR and BRANCH (R88, R90). -/
def rowsControl : List OpRow :=
  [rowJ 0x0000006F#32 .jal, rowI 0x00000067#32 .jalr,
   rowB 0x00000063#32 .beq, rowB 0x00001063#32 .bne, rowB 0x00004063#32 .blt, rowB 0x00005063#32 .bge,
   rowB 0x00006063#32 .bltu, rowB 0x00007063#32 .bgeu]

/-- LOAD and STORE (R89). -/
def rowsMemory : List OpRow :=
  [rowI 0x00002003#32 .lw, rowI 0x00001003#32 .lh, rowI 0x00005003#32 .lhu, rowI 0x00000003#32 .lb,
   rowI 0x00004003#32 .lbu,
   rowS 0x00002023#32 .sw, rowS 0x00001023#32 .sh, rowS 0x00000023#32 .sb]

/-- ECALL and EBREAK (R92). -/
def rowsSystem : List OpRow := [rowWord 0x00000073#32 .ecall, rowWord 0x00100073#32 .ebreak]

/-- The two named encodings of FENCE, tested before the FENCE row they are subsets of (R91, R96). -/
def rowsNamedFence : List OpRow := [rowWord 0x8330000F#32 .fenceTso, rowWord 0x0100000F#32 .pause]

/-- FENCE: every value of fm, pred, succ, rs1 and rd (R91, R193). -/
def rowFence : OpRow :=
  ⟨0x0000707F#32, 0x0000000F#32,
   fun w => .fence (fmField w) (predField w) (succField w) (rs1Field w) (rdField w)⟩

/-- The whole table: 42 rows. -/
def opcodeTable : List OpRow :=
  rowsImmediate ++ rowsRegister ++ rowsControl ++ rowsMemory ++ rowsSystem ++ rowsNamedFence ++ [rowFence]

/-! ## Decoding (R93, R96) -/

/-- Why a word is reserved: the classes of R93. Every one raises IllegalInstruction (D4). -/
inductive Reserved where
  /-- `inst[1:0]` is not `11`. -/
  | notWordLength
  /-- `inst[6:0]` is none of the eleven major opcodes. -/
  | unusedOpcode
  /-- A shift by immediate with another `inst[31:25]`. -/
  | opImmShift
  /-- OP with another `funct7`. -/
  | op
  /-- BRANCH with `funct3` 010 or 011. -/
  | branch
  /-- LOAD with `funct3` 011, 110 or 111 (R183). -/
  | load
  /-- STORE with `funct3` 011 to 111 (R184). -/
  | store
  /-- JALR with `funct3` other than 000. -/
  | jalr
  /-- MISC-MEM with `funct3` other than 000. -/
  | miscMem
  /-- SYSTEM other than ECALL and EBREAK (R206). -/
  | system
deriving DecidableEq, Repr

/-- The class of R93 a reserved word falls into. -/
def reservedClass (w : Word) : Reserved :=
  if w.extractLsb' 0 2 ≠ 0b11#2 then .notWordLength
  else if opcodeField w = 0b0010011#7 then .opImmShift
  else if opcodeField w = 0b0110011#7 then .op
  else if opcodeField w = 0b1100011#7 then .branch
  else if opcodeField w = 0b0000011#7 then .load
  else if opcodeField w = 0b0100011#7 then .store
  else if opcodeField w = 0b1100111#7 then .jalr
  else if opcodeField w = 0b0001111#7 then .miscMem
  else if opcodeField w = 0b1110011#7 then .system
  else .unusedOpcode

/-- The instruction a word is, or the class of reserved word it falls into; total on every word, and "depends on nothing
but `w`" (R96). -/
def decode (w : Word) : Except Reserved Instr :=
  match opcodeTable.find? (·.hits w) with
  | some r => .ok (r.build w)
  | none => .error (reservedClass w)

/-- The instruction word that four bytes in ascending address order are: little-endian, whatever the byte order of data
(R43, D2). -/
def wordOfBytes (b0 b1 b2 b3 : Byte) : Word := b3 ++ b2 ++ b1 ++ b0

/-- Byte `k` of an instruction word as it lies in memory (R43). -/
def byteOfWord (w : Word) (k : Nat) : Byte := w.extractLsb' (8 * k) 8

/-- Decoding from the bytes as they lie in memory, lowest address first. -/
def decodeBytes (b0 b1 b2 b3 : Byte) : Except Reserved Instr := decode (wordOfBytes b0 b1 b2 b3)

/-- What the decoder reads from an instruction whose low `nbits` bits are `w` and whose other bits are 0, laid out in
memory byte by byte; `none` where the word is reserved. -/
def decodeTableWord (nbits w : Nat) : Option Instr :=
  let word : Word := BitVec.ofNat 32 (w % 2 ^ nbits)
  match decodeBytes (byteOfWord word 0) (byteOfWord word 1) (byteOfWord word 2) (byteOfWord word 3) with
  | .ok i => some i
  | .error _ => none

/-! ## Encoding (R72 to R77, R83, R91) -/

def encodeR (funct7 : BitVec 7) (rs2 rs1 : RegIdx) (funct3 : BitVec 3) (rd : RegIdx) (opcode : BitVec 7) : Word :=
  funct7 ++ rs2 ++ rs1 ++ funct3 ++ rd ++ opcode

def encodeI (imm : BitVec 12) (rs1 : RegIdx) (funct3 : BitVec 3) (rd : RegIdx) (opcode : BitVec 7) : Word :=
  imm ++ rs1 ++ funct3 ++ rd ++ opcode

def encodeS (imm : BitVec 12) (rs2 rs1 : RegIdx) (funct3 : BitVec 3) (opcode : BitVec 7) : Word :=
  imm.extractLsb' 5 7 ++ rs2 ++ rs1 ++ funct3 ++ imm.extractLsb' 0 5 ++ opcode

def encodeB (off : BitVec 13) (rs2 rs1 : RegIdx) (funct3 : BitVec 3) (opcode : BitVec 7) : Word :=
  off.extractLsb' 12 1 ++ off.extractLsb' 5 6 ++ rs2 ++ rs1 ++ funct3 ++ off.extractLsb' 1 4 ++ off.extractLsb' 11 1
    ++ opcode

def encodeU (imm20 : BitVec 20) (rd : RegIdx) (opcode : BitVec 7) : Word := imm20 ++ rd ++ opcode

def encodeJ (off : BitVec 21) (rd : RegIdx) (opcode : BitVec 7) : Word :=
  off.extractLsb' 20 1 ++ off.extractLsb' 1 10 ++ off.extractLsb' 11 1 ++ off.extractLsb' 12 8 ++ rd ++ opcode

def encodeFence (fm : BitVec 4) (pred succ : AccessSet) (rs1 rd : RegIdx) : Word :=
  fm ++ pred.toBits ++ succ.toBits ++ rs1 ++ 0b000#3 ++ rd ++ 0b0001111#7

/-- The word of a well-formed instruction. -/
def encode : Instr → Word
  | .addi rd rs1 imm => encodeI imm rs1 0b000#3 rd 0b0010011#7
  | .slti rd rs1 imm => encodeI imm rs1 0b010#3 rd 0b0010011#7
  | .sltiu rd rs1 imm => encodeI imm rs1 0b011#3 rd 0b0010011#7
  | .andi rd rs1 imm => encodeI imm rs1 0b111#3 rd 0b0010011#7
  | .ori rd rs1 imm => encodeI imm rs1 0b110#3 rd 0b0010011#7
  | .xori rd rs1 imm => encodeI imm rs1 0b100#3 rd 0b0010011#7
  | .slli rd rs1 shamt => encodeR 0b0000000#7 shamt rs1 0b001#3 rd 0b0010011#7
  | .srli rd rs1 shamt => encodeR 0b0000000#7 shamt rs1 0b101#3 rd 0b0010011#7
  | .srai rd rs1 shamt => encodeR 0b0100000#7 shamt rs1 0b101#3 rd 0b0010011#7
  | .lui rd imm20 => encodeU imm20 rd 0b0110111#7
  | .auipc rd imm20 => encodeU imm20 rd 0b0010111#7
  | .add rd rs1 rs2 => encodeR 0b0000000#7 rs2 rs1 0b000#3 rd 0b0110011#7
  | .sub rd rs1 rs2 => encodeR 0b0100000#7 rs2 rs1 0b000#3 rd 0b0110011#7
  | .slt rd rs1 rs2 => encodeR 0b0000000#7 rs2 rs1 0b010#3 rd 0b0110011#7
  | .sltu rd rs1 rs2 => encodeR 0b0000000#7 rs2 rs1 0b011#3 rd 0b0110011#7
  | .and rd rs1 rs2 => encodeR 0b0000000#7 rs2 rs1 0b111#3 rd 0b0110011#7
  | .or rd rs1 rs2 => encodeR 0b0000000#7 rs2 rs1 0b110#3 rd 0b0110011#7
  | .xor rd rs1 rs2 => encodeR 0b0000000#7 rs2 rs1 0b100#3 rd 0b0110011#7
  | .sll rd rs1 rs2 => encodeR 0b0000000#7 rs2 rs1 0b001#3 rd 0b0110011#7
  | .srl rd rs1 rs2 => encodeR 0b0000000#7 rs2 rs1 0b101#3 rd 0b0110011#7
  | .sra rd rs1 rs2 => encodeR 0b0100000#7 rs2 rs1 0b101#3 rd 0b0110011#7
  | .jal rd off => encodeJ off rd 0b1101111#7
  | .jalr rd rs1 imm => encodeI imm rs1 0b000#3 rd 0b1100111#7
  | .beq rs1 rs2 off => encodeB off rs2 rs1 0b000#3 0b1100011#7
  | .bne rs1 rs2 off => encodeB off rs2 rs1 0b001#3 0b1100011#7
  | .blt rs1 rs2 off => encodeB off rs2 rs1 0b100#3 0b1100011#7
  | .bge rs1 rs2 off => encodeB off rs2 rs1 0b101#3 0b1100011#7
  | .bltu rs1 rs2 off => encodeB off rs2 rs1 0b110#3 0b1100011#7
  | .bgeu rs1 rs2 off => encodeB off rs2 rs1 0b111#3 0b1100011#7
  | .lw rd rs1 imm => encodeI imm rs1 0b010#3 rd 0b0000011#7
  | .lh rd rs1 imm => encodeI imm rs1 0b001#3 rd 0b0000011#7
  | .lhu rd rs1 imm => encodeI imm rs1 0b101#3 rd 0b0000011#7
  | .lb rd rs1 imm => encodeI imm rs1 0b000#3 rd 0b0000011#7
  | .lbu rd rs1 imm => encodeI imm rs1 0b100#3 rd 0b0000011#7
  | .sw rs2 rs1 imm => encodeS imm rs2 rs1 0b010#3 0b0100011#7
  | .sh rs2 rs1 imm => encodeS imm rs2 rs1 0b001#3 0b0100011#7
  | .sb rs2 rs1 imm => encodeS imm rs2 rs1 0b000#3 0b0100011#7
  | .fence fm pred succ rs1 rd => encodeFence fm pred succ rs1 rd
  | .fenceTso => encodeFence 0b1000#4 .rw .rw 0#5 0#5
  | .pause => encodeFence 0b0000#4 .write .none 0#5 0#5
  | .ecall => encodeI 0b000000000000#12 0#5 0b000#3 0#5 0b1110011#7
  | .ebreak => encodeI 0b000000000001#12 0#5 0b000#3 0#5 0b1110011#7

end Sys2Proof
end

