-- ==== Sys2Proof/Machine/Flags.lean ====
section
/-! DEFINITION. RV32I has no flags and no condition codes (R29): comparisons deliver their result to a register or to a
branch decision. This file holds those comparisons. -/

namespace Sys2Proof.Machine

/-- `a <s b`: both read as two's complement signed numbers; exact over the whole range (R124, R133). -/
def lessSigned (a b : Word) : Bool := decide (a.toInt < b.toInt)

/-- `a <u b`: both read as unsigned numbers (R125). -/
def lessUnsigned (a b : Word) : Bool := decide (a.toNat < b.toNat)

/-- A comparison's result in a register: exactly 1 or 0 in all 32 bits (R112, R124). -/
def boolWord (b : Bool) : Word := if b then 1#32 else 0#32

end Sys2Proof.Machine
end

