-- ==== Sys2Proof/Config.lean ====
section
/-! DEFINITION. What the spec leaves to the execution environment interface: the types of the open parameters MEMMAP,
MISALIGNED_POLICY and ENDIAN (00_scope.md section 4), the free values of reads whose result nothing fixes, and the
parameter values `State.reset` takes. A machine's own parameters are data in its state (log entry 6), so that what is
stated of every state is stated of every parameter. -/

namespace Sys2Proof

/-- The kinds of access MEMMAP tells apart (R44). -/
inductive AccessKind where
  | fetch
  | read
  | write
deriving DecidableEq, Repr

/-- The width of an access: 1, 2 or 4 bytes (R40). -/
inductive Width where
  | byte
  | half
  | word
deriving DecidableEq, Repr

/-- The number of bytes of an access (R40). -/
def Width.bytes : Width → Nat
  | .byte => 1
  | .half => 2
  | .word => 4

/-- What MEMMAP answers for an access it allows: ordinary memory or a device (R44, R52). -/
inductive RegionClass where
  | memory
  | io
deriving DecidableEq, Repr

/-- The widths a region allows for one kind of data access ("support word access only", R44). -/
structure Widths where
  byte : Bool
  half : Bool
  word : Bool
deriving DecidableEq, Repr

/-- Every width. -/
def Widths.all : Widths := ⟨true, true, true⟩

/-- No width. -/
def Widths.none : Widths := ⟨false, false, false⟩

/-- One entry of the memory map: `size` bytes from `base` up, counted modulo 2^32, what they are, and which accesses
they allow. -/
structure Region where
  base : Word
  size : Nat
  cls : RegionClass
  fetch : Bool
  read : Widths
  write : Widths
deriving DecidableEq, Repr

/-- MISALIGNED_POLICY (R50, D3). -/
inductive MisalignedPolicy where
  /-- The address-misaligned exception; the default. -/
  | trap
  /-- The access-fault exception. -/
  | fault
  /-- The access completes, byte by byte. -/
  | support
deriving DecidableEq, Repr

/-- ENDIAN, the byte order of data accesses (R42, D1). -/
inductive Endian where
  | little
  | big
deriving DecidableEq, Repr

/-- The parameters that are "fixed for the whole run" (R270). -/
structure Params where
  /-- MEMMAP (R44, D6): an access is allowed when some region covers it whole and allows its kind and width. -/
  memmap : List Region
  misaligned : MisalignedPolicy
  endian : Endian
deriving DecidableEq, Repr

/-- FREE VALUE: what the environment answers to the n-th read of an I/O location, "a free input, under no law" (R52,
D23, U7; log entry 9). -/
opaque Config.ioInput : Nat → Word

/-- FREE VALUE: the byte at an address that nobody has set (R270: "Bytes the environment did not set are unspecified";
log entry 8). -/
opaque Config.unsetByte : Nat → Byte

/-- FREE VALUE: where byte `k` of the n-th split access goes among the bytes above it, which fixes the order of its byte
accesses, "an unspecified order" (R51, U4; log entry 23). -/
opaque Config.byteChoice : Nat → Nat → Nat

/-- RESET_PC of `State.reset` (D16; DESIGN CHOICE, log entry 4). -/
def Config.resetPc : Word := 0x00001000#32

/-- The value `State.reset` gives x1 to x31, for which the spec gives none (R270; DESIGN CHOICE, log entry 3). -/
def Config.resetRegister : Word := 0#32

/-- The page of program text at RESET_PC: fetched and read, never written (D15). -/
def Config.textRegion : Region := ⟨0x00001000#32, 0x1000, .memory, true, .all, .none⟩

/-- Every other address: ordinary memory, never fetched. -/
def Config.dataRegion : Region := ⟨0x00002000#32, 0xFFFFF000, .memory, false, .all, .all⟩

/-- The parameters of `State.reset`: a map in which no byte is both fetchable and writable, as D15 recommends (DESIGN
CHOICE, log entry 5), and the spec's own defaults for the other two (D1, D3). -/
def Config.resetParams : Params := ⟨[Config.textRegion, Config.dataRegion], .trap, .little⟩

end Sys2Proof
end

