-- ==== Sys2Proof/Machine/State.lean ====
section
/-! DEFINITION. The state of the machine: the hart (x1 to x31 and pc), memory, the fixed parameters, and what the
environment and the trace need (INVENTORY.md, "State"); the reasons a step can stop; the state after reset. -/

namespace Sys2Proof.Machine

/-- Memory: (address, byte) pairs, addresses strictly rising. An address that is not listed holds no value (R270). -/
abbrev Memory := List Host.Cell

/-- The nine exceptions RV32I can raise (60_exceptions.md section 2), identified by name (R249, D20). -/
inductive Cause where
  | instructionAddressMisaligned
  | instructionAccessFault
  | illegalInstruction
  | loadAddressMisaligned
  | loadAccessFault
  | storeAddressMisaligned
  | storeAccessFault
  | environmentCall
  | breakpoint
deriving DecidableEq, Repr

/-- An exception as an instruction raises it: its name and its information, absent for EnvironmentCall and Breakpoint
(R231 to R239, D8). -/
structure Exn where
  cause : Cause
  info : Option Word
deriving DecidableEq, Repr

/-- The trap record handed to the execution environment: (cause, epc, info) (R240, D8). -/
structure TrapRecord where
  cause : Cause
  epc : Word
  info : Option Word
deriving DecidableEq, Repr

/-- One entry of the externally visible trace (R195, D21, D23). -/
inductive Event where
  /-- A load from an I/O location and the value the device answered. -/
  | input (addr : Word) (width : Width) (value : Word)
  /-- A store to an I/O location. -/
  | output (addr : Word) (width : Width) (value : Word)
  /-- A FENCE, with its fields as encoded. -/
  | fence (fm : BitVec 4) (pred succ : AccessSet)
deriving DecidableEq, Repr

/-- Where the environment restarts the hart: the two conventional resumptions of R246, or "a pc of its choice" (R240). -/
inductive Resumption where
  /-- `pc <- epc`. -/
  | retry
  /-- `pc <- epc + 4`. -/
  | skip
  | restartAt (pc : Word)
deriving DecidableEq, Repr

/-- What the environment does with one trap when it does not stop the run: it "may change registers and memory and
restart the hart" (R240, D18). -/
structure Reply where
  regWrites : List (RegIdx × Word)
  memWrites : List (Word × Byte)
  resume : Resumption
deriving DecidableEq, Repr

/-- The machine. -/
structure State where
  /-- x1 to x31, in that order; x0 has no cell (R20 to R22). -/
  regs : Vector Word 31
  /-- The address of the current instruction (R23). -/
  pc : Word
  /-- Memory (R33, R41). -/
  mem : Memory
  /-- MEMMAP, MISALIGNED_POLICY, ENDIAN: no step changes them (R270; log entry 6). -/
  params : Params
  /-- The record of the trap the hart is stopped at, if it is (R240; log entry 1). -/
  trap : Option TrapRecord
  /-- EE_SERVICE: the environment's answers to the coming traps, one a trap; none left means stop (D18, D19; log
  entry 2). -/
  replies : List Reply
  /-- The bytes other agents write, one batch for each coming point where their accesses may fall: before an instruction,
  and before each byte access of a split access (R51, R58, R59; log entries 13, 23). -/
  foreign : List (List (Word × Byte))
  /-- How many I/O reads have drawn a value (R52; log entry 9). -/
  draws : Nat
  /-- How many misaligned accesses have been performed byte by byte (R51; log entry 23). -/
  splits : Nat
  /-- The externally visible trace, oldest event first (R195; log entry 11). -/
  events : List Event
deriving DecidableEq, Repr

/-- Why the machine stops with a fault. -/
inductive Fault where
  /-- Raised by a step from a state stopped at a trap for which the environment has no answer: the run has ended there
  (R284, D19). Safe: no claim can follow a trap. -/
  | runEnded (record : TrapRecord)
  /-- Raised by a step that finds pc, or a pc the environment restarts at, not a multiple of 4, which R26 rules out and
  to which the spec gives no meaning (log entry 16). Safe. -/
  | misalignedPc (pc : Word)
deriving DecidableEq, Repr

/-- Why the machine refuses a run. -/
inductive Refusal where
  /-- Raised by a refused arm of `exec`; no arm is one. Safe. -/
  | notModelled (mnemonic : String)
  /-- Raised by a store to a byte that MEMMAP makes fetchable, where MEMMAP allows the store: "the model must refuse the
  run at that store" (D15, R61; log entry 12). Safe. -/
  | storeToText (addr : Word)
  /-- Raised by a step in which another agent (before the instruction or between two bytes of a split access), or the environment in its answer to a trap, writes a byte that MEMMAP
  makes fetchable: program text is fixed for the run (D15; log entry 13). Safe. -/
  | foreignWriteToText (addr : Word)
deriving DecidableEq, Repr

/-- The machine right after reset (R270, R272): pc at RESET_PC, nothing placed in memory, no trap, nothing done yet. -/
def State.reset : State where
  regs := Vector.replicate 31 Config.resetRegister
  pc := Config.resetPc
  mem := []
  params := Config.resetParams
  trap := none
  replies := []
  foreign := []
  draws := 0
  splits := 0
  events := []

end Sys2Proof.Machine
end

