-- ==== Sys2Proof/Machine/Operands.lean ====
section
/-! DEFINITION. Reading and writing registers, and the operand forms: the 32-bit values of the immediates (R78 to R83),
shift amounts, and the addresses computed from them. All address sums are modulo 2^32 (R27, R171, D5). -/

namespace Sys2Proof.Machine

/-- The place of x1 to x31 in the register file. -/
theorem regSlot_lt (r : RegIdx) : r.toNat - 1 < 31 := by have := r.isLt; omega

/-- `x[r]`: x0 reads as 0 (R21). -/
def State.reg (s : State) (r : RegIdx) : Word :=
  if r = 0#5 then 0#32 else s.regs[r.toNat - 1]'(regSlot_lt r)

/-- `x[r] <- v`: a write to x0 is discarded (R21). -/
def State.setReg (s : State) (r : RegIdx) (v : Word) : State :=
  if r = 0#5 then s else { s with regs := s.regs.set (r.toNat - 1) v (regSlot_lt r) }

/-- `pc <- target`. -/
def State.setPc (s : State) (target : Word) : State := { s with pc := target }

/-- `pc + 4` modulo 2^32: the next instruction in memory (R25, R27). -/
def State.nextPc (s : State) : Word := s.pc + 4#32

/-- The default advance (R25). -/
def State.advance (s : State) : State := s.setPc s.nextPc

/-- `imm_I` and `imm_S`: 12 bits, sign-extended (R78, R79). -/
def imm12 (imm : BitVec 12) : Word := imm.signExtend 32

/-- `imm_U`: 20 bits above twelve zeros (R81). -/
def immU (imm20 : BitVec 20) : Word := imm20 ++ 0#12

/-- `imm_B`: a 13-bit offset, sign-extended (R80). -/
def immB (off : BitVec 13) : Word := off.signExtend 32

/-- `imm_J`: a 21-bit offset, sign-extended (R82). -/
def immJ (off : BitVec 21) : Word := off.signExtend 32

/-- The shift amount in a register: "the lower 5 bits", bits 31 to 5 ignored (R129 to R131). -/
def shiftAmount (v : Word) : Nat := (v.extractLsb' 0 5).toNat

/-- The effective address of a load or store: `x[rs1] + sext_32(offset)` (R171). -/
def State.effectiveAddress (s : State) (rs1 : RegIdx) (imm : BitVec 12) : Word := s.reg rs1 + imm12 imm

/-- The target of JAL (R150). -/
def State.jalTarget (s : State) (off : BitVec 21) : Word := s.pc + immJ off

/-- The target of JALR: the sum with its least-significant bit set to zero (R151). -/
def State.jalrTarget (s : State) (rs1 : RegIdx) (imm : BitVec 12) : Word :=
  (s.reg rs1 + imm12 imm) &&& 0xFFFFFFFE#32

/-- The target of a branch (R163). -/
def State.branchTarget (s : State) (off : BitVec 13) : Word := s.pc + immB off

end Sys2Proof.Machine
end

