-- ==== Sys2Proof/Machine/Ops.lean ====
section
/-! DEFINITION. The named operations over memory, the memory map, the trace and the trap: `MemRead`, `MemWrite` and
`Fetch` (R46 to R48), taking a trap (R240) and the environment's restart after one (R246), and the writes of other agents
(R58, R59). -/

namespace Sys2Proof.Machine

/-! ## Memory as data -/

/-- The byte listed at an address; an address that is not listed holds no value. -/
def Memory.byte? : Memory → Nat → Option Byte
  | [], _ => none
  | (k, b) :: rest, a => if k = a then some b else Memory.byte? rest a

/-- Writing one byte, keeping the addresses strictly rising. -/
def Memory.put : Memory → Nat → Byte → Memory
  | [], a, v => [(a, v)]
  | (k, b) :: rest, a, v =>
    if a < k then (a, v) :: (k, b) :: rest
    else if a = k then (a, v) :: rest
    else (k, b) :: Memory.put rest a v

/-- Every address in the list is above `lo`, they strictly rise, and all lie in the 2^32 bytes that exist (R33). -/
def Memory.risesAbove : Option Nat → Memory → Bool
  | _, [] => true
  | lo, (k, _) :: rest => (lo.all (· < k)) && decide (k < 2 ^ 32) && Memory.risesAbove (some k) rest

/-- The canonical form: addresses strictly rising, all below 2^32. No entry can equal what an unlisted address reads as,
since an unlisted address reads as no value. -/
def Memory.wf (m : Memory) : Bool := Memory.risesAbove none m

/-- Writing bytes at consecutive addresses, each address modulo 2^32 (R41, R47). -/
def Memory.putAll (m : Memory) (a : Word) : List Byte → Memory
  | [] => m
  | b :: rest => Memory.putAll (Memory.put m a.toNat b) (a + 1#32) rest

/-- Writing bytes at addresses of their own, in order. -/
def Memory.putEach (m : Memory) : List (Word × Byte) → Memory
  | [] => m
  | (a, b) :: rest => Memory.putEach (Memory.put m a.toNat b) rest

/-- The byte at an address: the one most recently written there, or else a free value (R58, R270; log entry 8). -/
def State.byteAt (s : State) (a : Word) : Byte := (Memory.byte? s.mem a.toNat).getD (Config.unsetByte a.toNat)

/-! ## Widths, alignment and byte order -/

/-- The access's effective address is divisible by its size (R45). -/
def isAligned (a : Word) (w : Width) : Bool := a.toNat % w.bytes == 0

/-- `a + k` modulo 2^32 (R41, D5). -/
def byteAddress (a : Word) (k : Nat) : Word := a + BitVec.ofNat 32 k

/-- The addresses an access of width `w` at `a` touches (R41). -/
def touched (a : Word) (w : Width) : List Word := (List.range w.bytes).map (byteAddress a)

/-- The low `8 * w.bytes` bits of a value, zero-extended (R42). -/
def lowBits (w : Width) (v : Word) : Word :=
  match w with
  | .byte => (v.extractLsb' 0 8).setWidth 32
  | .half => (v.extractLsb' 0 16).setWidth 32
  | .word => v

/-- The low `8 * w.bytes` bits of a value, sign-extended (R176, R178). -/
def signedBits (w : Width) (v : Word) : Word :=
  match w with
  | .byte => (v.extractLsb' 0 8).signExtend 32
  | .half => (v.extractLsb' 0 16).signExtend 32
  | .word => v

/-- The bytes of a value, least significant first. -/
def littleBytes (v : Word) (n : Nat) : List Byte := (List.range n).map (fun i => v.extractLsb' (8 * i) 8)

/-- The value of bytes given least significant first. -/
def littleValue : List Byte → Word
  | [] => 0#32
  | b :: rest => (littleValue rest <<< 8) ||| b.setWidth 32

/-- The bytes of a value of width `w` in ascending address order (R42). -/
def bytesOf (e : Endian) (w : Width) (v : Word) : List Byte :=
  match e with
  | .little => littleBytes v w.bytes
  | .big => (littleBytes v w.bytes).reverse

/-- The value of bytes in ascending address order (R42). -/
def valueOf (e : Endian) (bs : List Byte) : Word :=
  match e with
  | .little => littleValue bs
  | .big => littleValue bs.reverse

/-! ## The memory map (R44) -/

/-- Does the region cover `n` bytes at `a`, counted from its base modulo 2^32? A region of 2^32 bytes covers all. -/
def regionCovers (r : Region) (a : Word) (n : Nat) : Bool :=
  decide (2 ^ 32 ≤ r.size) || decide ((a - r.base).toNat + n ≤ r.size)

/-- The widths as a test. -/
def widthsAllow (ws : Widths) (w : Width) : Bool :=
  match w with
  | .byte => ws.byte
  | .half => ws.half
  | .word => ws.word

/-- Does the region allow the kind and width of access? -/
def regionAllows (r : Region) (k : AccessKind) (w : Width) : Bool :=
  match k with
  | .fetch => r.fetch
  | .read => widthsAllow r.read w
  | .write => widthsAllow r.write w

/-- MEMMAP(k, a, n): the class of the first region that covers the access whole and allows it, or denied (R44; log
entry 7). -/
def memmapAnswer (p : Params) (k : AccessKind) (a : Word) (w : Width) : Option RegionClass :=
  (p.memmap.find? (fun r => regionCovers r a w.bytes && regionAllows r k w)).map Region.cls

/-- May the byte be fetched as part of an instruction? Instructions are words at multiples of 4, so the one fetch that
reads it is at its address with the low two bits cleared (R2, R48, D15). -/
def isText (p : Params) (a : Word) : Bool := (memmapAnswer p .fetch (a &&& 0xFFFFFFFC#32) .word).isSome

/-! ## The trace -/

/-- Adding an event to the trace. -/
def State.record (s : State) (e : Event) : State := { s with events := s.events ++ [e] }

/-! ## Other agents (R58, R59) -/

/-- The next batch of other agents' writes lands: before an instruction, or before a byte access of a split access (log
entries 13, 23). -/
def State.landForeign (s : State) : Except Refusal State :=
  match s.foreign with
  | [] => .ok s
  | batch :: rest =>
    match batch.find? (fun w => isText s.params w.1) with
    | some w => .error (.foreignWriteToText w.1)
    | none => .ok { s with mem := Memory.putEach s.mem batch, foreign := rest }

/-! ## Split accesses (R50, R51) -/

/-- What a data access comes to. -/
inductive AccessResult (α : Type) where
  | done (result : α)
  | raised (x : Exn)
  | refused (r : Refusal)
deriving DecidableEq, Repr

/-- A list in the order that choices of a place for each of its elements give; every order is given by some choices. -/
def arrange (choice : Nat → Nat) : List Nat → List Nat
  | [] => []
  | k :: rest => (arrange choice rest).insertIdx (choice k % (rest.length + 1)) k

/-- The order in which the n-th split access takes its bytes, numbered from its address up: free (R51; log entry 23). -/
def splitOrder (n : Nat) (w : Width) : List Nat := arrange (Config.byteChoice n) (List.range w.bytes)

/-- The byte accesses of a split access one after another, in the order given, "between which other agents' accesses may
fall" (R51): a batch of their writes lands before each. -/
def interleave {α : Type} (act : α → State → Nat → α × State) : α → State → List Nat → Except Refusal (α × State)
  | acc, s, [] => .ok (acc, s)
  | acc, s, k :: rest =>
    match s.landForeign with
    | .ok s' => interleave act (act acc s' k).1 (act acc s' k).2 rest
    | .error r => .error r

/-- The state in which a split access begins: it has drawn its order. -/
def State.beginSplit (s : State) : State := { s with splits := s.splits + 1 }

/-- A read of an I/O location: a free value of the access's width, drawn once and recorded (R52, D23). -/
def State.readDevice (s : State) (a : Word) (w : Width) : Word × State :=
  let v := lowBits w (Config.ioInput s.draws)
  (v, { s with draws := s.draws + 1, events := s.events ++ [.input a w v] })

/-- One byte access of a split load: byte `k` joins the bytes already read. -/
def State.readByte (cls : RegionClass) (a : Word) (got : List (Nat × Byte)) (s : State) (k : Nat) :
    List (Nat × Byte) × State :=
  match cls with
  | .memory => ((k, s.byteAt (byteAddress a k)) :: got, s)
  | .io =>
    let p := s.readDevice (byteAddress a k) .byte
    ((k, p.1.setWidth 8) :: got, p.2)

/-- The value of `n` bytes read in any order, in the data byte order. -/
def valueOfRead (e : Endian) (n : Nat) (got : List (Nat × Byte)) : Word :=
  valueOf e ((List.range n).map (fun k => (got.lookup k).getD 0#8))

/-- A misaligned load that the environment supports: byte accesses in a free order (R46, R50, R51). -/
def State.readSplit (s : State) (cls : RegionClass) (a : Word) (w : Width) : AccessResult (Word × State) :=
  match interleave (State.readByte cls a) [] s.beginSplit (splitOrder s.splits w) with
  | .ok p => .done (valueOfRead s.params.endian w.bytes p.1, p.2)
  | .error r => .refused r

/-- A store to ordinary memory (R47, R42). -/
def State.writeMemory (s : State) (a : Word) (w : Width) (v : Word) : State :=
  { s with mem := Memory.putAll s.mem a (bytesOf s.params.endian w v) }

/-- A store to an I/O location: an output event of the low bits of the value (D23; log entry 10). -/
def State.writeDevice (s : State) (a : Word) (w : Width) (v : Word) : State := s.record (.output a w (lowBits w v))

/-- One byte access of a split store: byte `k` of the value in the data byte order. -/
def State.writeByte (cls : RegionClass) (a : Word) (w : Width) (v : Word) (_ : Unit) (s : State) (k : Nat) :
    Unit × State :=
  let b := ((bytesOf s.params.endian w v).getD k 0#8).setWidth 32
  match cls with
  | .memory => ((), s.writeMemory (byteAddress a k) .byte b)
  | .io => ((), s.writeDevice (byteAddress a k) .byte b)

/-- A misaligned store that the environment supports: byte accesses in a free order (R47, R50, R51). -/
def State.writeSplit (s : State) (cls : RegionClass) (a : Word) (w : Width) (v : Word) : AccessResult State :=
  match interleave (State.writeByte cls a w v) () s.beginSplit (splitOrder s.splits w) with
  | .ok p => .done p.2
  | .error r => .refused r

/-! ## MemRead, MemWrite, Fetch (R46 to R48) -/

/-- What an access that is not naturally aligned raises, if it raises: the address-misaligned exception, the access
fault, or nothing (R50). -/
def misalignedCause (p : Params) (a : Word) (w : Width) (misaligned access : Cause) : Option Cause :=
  if isAligned a w then none
  else match p.misaligned with
    | .trap => some misaligned
    | .fault => some access
    | .support => none

/-- The value of a read of ordinary memory, zero-extended to 32 bits. -/
def State.readMemory (s : State) (a : Word) (w : Width) : Word :=
  valueOf s.params.endian ((touched a w).map s.byteAt)

/-- The read itself: whole where it is naturally aligned, byte by byte where it is not. -/
def State.performRead (s : State) (cls : RegionClass) (a : Word) (w : Width) : AccessResult (Word × State) :=
  if isAligned a w then
    match cls with
    | .memory => .done (s.readMemory a w, s)
    | .io => .done (s.readDevice a w)
  else s.readSplit cls a w

/-- `MemRead(addr, n)`: the value, zero-extended, and the state after the access, or the exception raised (R46). The
misalignment check comes before the map (D9). -/
def State.memRead (s : State) (a : Word) (w : Width) : AccessResult (Word × State) :=
  match misalignedCause s.params a w .loadAddressMisaligned .loadAccessFault with
  | some c => .raised ⟨c, some a⟩
  | none =>
    match memmapAnswer s.params .read a w with
    | none => .raised ⟨.loadAccessFault, some a⟩
    | some cls => s.performRead cls a w

/-- The write itself: whole where it is naturally aligned, byte by byte where it is not. -/
def State.performWrite (s : State) (cls : RegionClass) (a : Word) (w : Width) (v : Word) : AccessResult State :=
  if isAligned a w then
    match cls with
    | .memory => .done (s.writeMemory a w v)
    | .io => .done (s.writeDevice a w v)
  else s.writeSplit cls a w v

/-- `MemWrite(addr, n, v)` (R47). Where MEMMAP allows a store that touches program text, the model refuses (D15). -/
def State.memWrite (s : State) (a : Word) (w : Width) (v : Word) : AccessResult State :=
  match misalignedCause s.params a w .storeAddressMisaligned .storeAccessFault with
  | some c => .raised ⟨c, some a⟩
  | none =>
    match memmapAnswer s.params .write a w with
    | none => .raised ⟨.storeAccessFault, some a⟩
    | some cls =>
      if (touched a w).any (isText s.params) then .refused (.storeToText a) else s.performWrite cls a w v

/-- `Fetch(pc)`: the word at pc, little-endian whatever ENDIAN is (R48, D2), or InstructionAccessFault (R232). -/
def State.fetch (s : State) : Except Exn Word :=
  if (memmapAnswer s.params .fetch s.pc .word).isSome then
    .ok (s.byteAt (byteAddress s.pc 3) ++ s.byteAt (byteAddress s.pc 2) ++ s.byteAt (byteAddress s.pc 1)
      ++ s.byteAt (byteAddress s.pc 0))
  else .error ⟨.instructionAccessFault, some s.pc⟩

/-! ## Traps (R240, R246) -/

/-- Taking a trap: the instruction is abandoned with no change to any register, memory byte or pc, and the record (cause,
epc = pc, info) goes to the execution environment (R240, R241; log entry 1). -/
def State.takeTrap (s : State) (x : Exn) : State := { s with trap := some ⟨x.cause, s.pc, x.info⟩ }

/-- The pc the environment restarts at (R246). -/
def resumePc (t : TrapRecord) : Resumption → Word
  | .retry => t.epc
  | .skip => t.epc + 4#32
  | .restartAt pc => pc

/-- The registers after the environment's writes, in order. -/
def State.setRegs (s : State) : List (RegIdx × Word) → State
  | [] => s
  | (r, v) :: rest => (s.setReg r v).setRegs rest

/-- The restart of a stopped hart by the environment's next answer, or the end of the run when there is none (R240, R246,
R284; log entry 2). -/
def State.resume (s : State) (t : TrapRecord) : Host.Outcome State Fault Refusal :=
  match s.replies with
  | [] => .fault (.runEnded t)
  | reply :: rest =>
    match reply.memWrites.find? (fun w => isText s.params w.1) with
    | some w => .refused (.foreignWriteToText w.1)
    | none =>
      let target := resumePc t reply.resume
      if isAligned target .word then
        let s := s.setRegs reply.regWrites
        .next { s with mem := Memory.putEach s.mem reply.memWrites, pc := target, trap := none, replies := rest }
      else .fault (.misalignedPc target)

/-! ## The shared ends of the instructions -/

/-- An integer computational instruction: the result goes to rd and pc advances, nothing else (R110). -/
def State.compute (s : State) (rd : RegIdx) (v : Word) : Host.Outcome State Fault Refusal :=
  .next (s.setReg rd v).advance

/-- A jump to `target`: a target that is no multiple of 4 raises, and the link is then not written (R153, D7). -/
def State.jump (s : State) (rd : RegIdx) (target : Word) : Host.Outcome State Fault Refusal :=
  if isAligned target .word then .next ((s.setReg rd s.nextPc).setPc target)
  else .next (s.takeTrap ⟨.instructionAddressMisaligned, some target⟩)

/-- A branch: not taken it advances, taken it goes to its target or raises (R163). -/
def State.branch (s : State) (taken : Bool) (off : BitVec 13) : Host.Outcome State Fault Refusal :=
  if taken then
    if isAligned (s.branchTarget off) .word then .next (s.setPc (s.branchTarget off))
    else .next (s.takeTrap ⟨.instructionAddressMisaligned, some (s.branchTarget off)⟩)
  else .next s.advance

/-- A load: the access, then the extended value to rd, then the advance (R172, R173). -/
def State.load (s : State) (w : Width) (extend : Word → Word) (rd rs1 : RegIdx) (imm : BitVec 12) :
    Host.Outcome State Fault Refusal :=
  match s.memRead (s.effectiveAddress rs1 imm) w with
  | .done p => .next (p.2.setReg rd (extend p.1)).advance
  | .raised x => .next (s.takeTrap x)
  | .refused r => .refused r

/-- A store: the access with the low bytes of rs2, then the advance (R172). -/
def State.store (s : State) (w : Width) (rs2 rs1 : RegIdx) (imm : BitVec 12) : Host.Outcome State Fault Refusal :=
  match s.memWrite (s.effectiveAddress rs1 imm) w (s.reg rs2) with
  | .done s' => .next s'.advance
  | .raised x => .next (s.takeTrap x)
  | .refused r => .refused r

/-- A FENCE as its own hart sees it: an event in program order, and the advance (R190, R195). -/
def State.fenceEvent (s : State) (fm : BitVec 4) (pred succ : AccessSet) : Host.Outcome State Fault Refusal :=
  .next (s.record (.fence fm pred succ)).advance

end Sys2Proof.Machine
end

