-- ==== Sys2Proof/Machine/ControlTransfer.lean ====
section
/-! DEFINITION. Jumps and branches (R150 to R163). There are no delay slots (R152). -/

namespace Sys2Proof.Machine

/-- JAL: the link `pc + 4` to rd, then pc to `pc + imm_J`; a misaligned target raises (R150, R153). -/
def execJal (rd : RegIdx) (off : BitVec 21) (s : State) : Host.Outcome State Fault Refusal :=
  s.jump rd (s.jalTarget off)

/-- JALR: the target from the old value of rs1, bit 0 cleared; the link `pc + 4` to rd (R151, R153). -/
def execJalr (rd rs1 : RegIdx) (imm : BitVec 12) (s : State) : Host.Outcome State Fault Refusal :=
  s.jump rd (s.jalrTarget rs1 imm)

/-- BEQ: taken when the registers are equal (R157, R163). -/
def execBeq (rs1 rs2 : RegIdx) (off : BitVec 13) (s : State) : Host.Outcome State Fault Refusal :=
  s.branch (s.reg rs1 == s.reg rs2) off

/-- BNE: taken when they are not equal (R158, R163). -/
def execBne (rs1 rs2 : RegIdx) (off : BitVec 13) (s : State) : Host.Outcome State Fault Refusal :=
  s.branch (s.reg rs1 != s.reg rs2) off

/-- BLT: taken when `x[rs1] <s x[rs2]` (R159, R163). -/
def execBlt (rs1 rs2 : RegIdx) (off : BitVec 13) (s : State) : Host.Outcome State Fault Refusal :=
  s.branch (lessSigned (s.reg rs1) (s.reg rs2)) off

/-- BGE: taken when not `x[rs1] <s x[rs2]` (R160, R163). -/
def execBge (rs1 rs2 : RegIdx) (off : BitVec 13) (s : State) : Host.Outcome State Fault Refusal :=
  s.branch (!lessSigned (s.reg rs1) (s.reg rs2)) off

/-- BLTU: taken when `x[rs1] <u x[rs2]` (R161, R163). -/
def execBltu (rs1 rs2 : RegIdx) (off : BitVec 13) (s : State) : Host.Outcome State Fault Refusal :=
  s.branch (lessUnsigned (s.reg rs1) (s.reg rs2)) off

/-- BGEU: taken when not `x[rs1] <u x[rs2]` (R162, R163). -/
def execBgeu (rs1 rs2 : RegIdx) (off : BitVec 13) (s : State) : Host.Outcome State Fault Refusal :=
  s.branch (!lessUnsigned (s.reg rs1) (s.reg rs2)) off

end Sys2Proof.Machine
end

