-- ==== Sys2Proof/Machine/IntegerImmediate.lean ====
section
/-! DEFINITION. The integer register-immediate instructions (R111 to R121). NOP is ADDI x0, x0, 0 (R132). -/

namespace Sys2Proof.Machine

/-- ADDI: `x[rd] <- x[rs1] + imm_I`, modulo 2^32 (R111). -/
def execAddi (rd rs1 : RegIdx) (imm : BitVec 12) (s : State) : Host.Outcome State Fault Refusal :=
  s.compute rd (s.reg rs1 + imm12 imm)

/-- SLTI: `x[rd] <- (x[rs1] <s imm_I) ? 1 : 0` (R112). -/
def execSlti (rd rs1 : RegIdx) (imm : BitVec 12) (s : State) : Host.Outcome State Fault Refusal :=
  s.compute rd (boolWord (lessSigned (s.reg rs1) (imm12 imm)))

/-- SLTIU: `x[rd] <- (x[rs1] <u imm_I) ? 1 : 0`, the immediate sign-extended first (R113). -/
def execSltiu (rd rs1 : RegIdx) (imm : BitVec 12) (s : State) : Host.Outcome State Fault Refusal :=
  s.compute rd (boolWord (lessUnsigned (s.reg rs1) (imm12 imm)))

/-- ANDI: `x[rd] <- x[rs1] & imm_I` (R114). -/
def execAndi (rd rs1 : RegIdx) (imm : BitVec 12) (s : State) : Host.Outcome State Fault Refusal :=
  s.compute rd (s.reg rs1 &&& imm12 imm)

/-- ORI: `x[rd] <- x[rs1] | imm_I` (R115). -/
def execOri (rd rs1 : RegIdx) (imm : BitVec 12) (s : State) : Host.Outcome State Fault Refusal :=
  s.compute rd (s.reg rs1 ||| imm12 imm)

/-- XORI: `x[rd] <- x[rs1] ^ imm_I` (R116). -/
def execXori (rd rs1 : RegIdx) (imm : BitVec 12) (s : State) : Host.Outcome State Fault Refusal :=
  s.compute rd (s.reg rs1 ^^^ imm12 imm)

/-- SLLI: `x[rd] <- x[rs1] << shamt` (R117). -/
def execSlli (rd rs1 : RegIdx) (shamt : BitVec 5) (s : State) : Host.Outcome State Fault Refusal :=
  s.compute rd (s.reg rs1 <<< shamt.toNat)

/-- SRLI: `x[rd] <- x[rs1] >>u shamt` (R118). -/
def execSrli (rd rs1 : RegIdx) (shamt : BitVec 5) (s : State) : Host.Outcome State Fault Refusal :=
  s.compute rd (s.reg rs1 >>> shamt.toNat)

/-- SRAI: `x[rd] <- x[rs1] >>s shamt` (R119). -/
def execSrai (rd rs1 : RegIdx) (shamt : BitVec 5) (s : State) : Host.Outcome State Fault Refusal :=
  s.compute rd ((s.reg rs1).sshiftRight shamt.toNat)

/-- LUI: `x[rd] <- imm_U` (R120). -/
def execLui (rd : RegIdx) (imm20 : BitVec 20) (s : State) : Host.Outcome State Fault Refusal :=
  s.compute rd (immU imm20)

/-- AUIPC: `x[rd] <- pc + imm_U`, pc the address of the AUIPC itself (R121). -/
def execAuipc (rd : RegIdx) (imm20 : BitVec 20) (s : State) : Host.Outcome State Fault Refusal :=
  s.compute rd (s.pc + immU imm20)

end Sys2Proof.Machine
end

