-- ==== Sys2Proof/Machine/IntegerRegister.lean ====
section
/-! DEFINITION. The integer register-register instructions (R122 to R131). -/

namespace Sys2Proof.Machine

/-- ADD: `x[rd] <- x[rs1] + x[rs2]`, modulo 2^32 (R122). -/
def execAdd (rd rs1 rs2 : RegIdx) (s : State) : Host.Outcome State Fault Refusal :=
  s.compute rd (s.reg rs1 + s.reg rs2)

/-- SUB: `x[rd] <- x[rs1] - x[rs2]`, modulo 2^32 (R123). -/
def execSub (rd rs1 rs2 : RegIdx) (s : State) : Host.Outcome State Fault Refusal :=
  s.compute rd (s.reg rs1 - s.reg rs2)

/-- SLT: `x[rd] <- (x[rs1] <s x[rs2]) ? 1 : 0` (R124). -/
def execSlt (rd rs1 rs2 : RegIdx) (s : State) : Host.Outcome State Fault Refusal :=
  s.compute rd (boolWord (lessSigned (s.reg rs1) (s.reg rs2)))

/-- SLTU: `x[rd] <- (x[rs1] <u x[rs2]) ? 1 : 0` (R125). -/
def execSltu (rd rs1 rs2 : RegIdx) (s : State) : Host.Outcome State Fault Refusal :=
  s.compute rd (boolWord (lessUnsigned (s.reg rs1) (s.reg rs2)))

/-- AND: `x[rd] <- x[rs1] & x[rs2]` (R126). -/
def execAnd (rd rs1 rs2 : RegIdx) (s : State) : Host.Outcome State Fault Refusal :=
  s.compute rd (s.reg rs1 &&& s.reg rs2)

/-- OR: `x[rd] <- x[rs1] | x[rs2]` (R127). -/
def execOr (rd rs1 rs2 : RegIdx) (s : State) : Host.Outcome State Fault Refusal :=
  s.compute rd (s.reg rs1 ||| s.reg rs2)

/-- XOR: `x[rd] <- x[rs1] ^ x[rs2]` (R128). -/
def execXor (rd rs1 rs2 : RegIdx) (s : State) : Host.Outcome State Fault Refusal :=
  s.compute rd (s.reg rs1 ^^^ s.reg rs2)

/-- SLL: `x[rd] <- x[rs1] << x[rs2][4:0]` (R129). -/
def execSll (rd rs1 rs2 : RegIdx) (s : State) : Host.Outcome State Fault Refusal :=
  s.compute rd (s.reg rs1 <<< shiftAmount (s.reg rs2))

/-- SRL: `x[rd] <- x[rs1] >>u x[rs2][4:0]` (R130). -/
def execSrl (rd rs1 rs2 : RegIdx) (s : State) : Host.Outcome State Fault Refusal :=
  s.compute rd (s.reg rs1 >>> shiftAmount (s.reg rs2))

/-- SRA: `x[rd] <- x[rs1] >>s x[rs2][4:0]` (R131). -/
def execSra (rd rs1 rs2 : RegIdx) (s : State) : Host.Outcome State Fault Refusal :=
  s.compute rd ((s.reg rs1).sshiftRight (shiftAmount (s.reg rs2)))

end Sys2Proof.Machine
end

