-- ==== Sys2Proof/Machine/LoadStore.lean ====
section
/-! DEFINITION. Loads and stores (R170 to R182). -/

namespace Sys2Proof.Machine

/-- LW: four bytes, to rd (R175, R172). -/
def execLw (rd rs1 : RegIdx) (imm : BitVec 12) (s : State) : Host.Outcome State Fault Refusal :=
  s.load .word (lowBits .word) rd rs1 imm

/-- LH: two bytes, sign-extended, to rd (R176, R172). -/
def execLh (rd rs1 : RegIdx) (imm : BitVec 12) (s : State) : Host.Outcome State Fault Refusal :=
  s.load .half (signedBits .half) rd rs1 imm

/-- LHU: two bytes, zero-extended, to rd (R177, R172). -/
def execLhu (rd rs1 : RegIdx) (imm : BitVec 12) (s : State) : Host.Outcome State Fault Refusal :=
  s.load .half (lowBits .half) rd rs1 imm

/-- LB: one byte, sign-extended, to rd (R178, R172). -/
def execLb (rd rs1 : RegIdx) (imm : BitVec 12) (s : State) : Host.Outcome State Fault Refusal :=
  s.load .byte (signedBits .byte) rd rs1 imm

/-- LBU: one byte, zero-extended, to rd (R179, R172). -/
def execLbu (rd rs1 : RegIdx) (imm : BitVec 12) (s : State) : Host.Outcome State Fault Refusal :=
  s.load .byte (lowBits .byte) rd rs1 imm

/-- SW: all four bytes of rs2 to memory (R180, R172). -/
def execSw (rs2 rs1 : RegIdx) (imm : BitVec 12) (s : State) : Host.Outcome State Fault Refusal :=
  s.store .word rs2 rs1 imm

/-- SH: the low two bytes of rs2 to memory (R181, R172). -/
def execSh (rs2 rs1 : RegIdx) (imm : BitVec 12) (s : State) : Host.Outcome State Fault Refusal :=
  s.store .half rs2 rs1 imm

/-- SB: the low byte of rs2 to memory (R182, R172). -/
def execSb (rs2 rs1 : RegIdx) (imm : BitVec 12) (s : State) : Host.Outcome State Fault Refusal :=
  s.store .byte rs2 rs1 imm

end Sys2Proof.Machine
end

