-- ==== Sys2Proof/Machine/MemoryOrdering.lean ====
section
/-! DEFINITION. FENCE and its two named encodings (R190 to R196). To the executing hart a FENCE only advances pc; what it orders is seen by other
harts and devices (R190, R195; log entry 14). -/

namespace Sys2Proof.Machine

/-- FENCE: an event with its fields as encoded; rs1 is not read and rd not written (R190, R193, R195). A reserved fm or
set is a FENCE like any other (R193). -/
def execFence (fm : BitVec 4) (pred succ : AccessSet) (_rs1 _rd : RegIdx) (s : State) : Host.Outcome State Fault Refusal :=
  s.fenceEvent fm pred succ

/-- FENCE.TSO: a FENCE with fm = 1000, pred = RW, succ = RW (R192). -/
def execFenceTso (s : State) : Host.Outcome State Fault Refusal :=
  s.fenceEvent 0b1000#4 .rw .rw

/-- PAUSE: the FENCE with fm = 0, pred = W, succ empty, "and nothing else" (R196). -/
def execPause (s : State) : Host.Outcome State Fault Refusal :=
  s.fenceEvent 0b0000#4 .write .none

end Sys2Proof.Machine
end

