-- ==== Sys2Proof/Machine/System.lean ====
section
/-! DEFINITION. ECALL and EBREAK: precise requested traps to the execution environment (R200, R201, R204). -/

namespace Sys2Proof.Machine

/-- ECALL: raises EnvironmentCall, always, with no information (R200, R237). -/
def execEcall (s : State) : Host.Outcome State Fault Refusal :=
  .next (s.takeTrap ⟨.environmentCall, none⟩)

/-- EBREAK: raises Breakpoint, always, with no information (R201, R238). -/
def execEbreak (s : State) : Host.Outcome State Fault Refusal :=
  .next (s.takeTrap ⟨.breakpoint, none⟩)

end Sys2Proof.Machine
end

