-- ==== Sys2Proof/Machine/Step.lean ====
section
/-! DEFINITION. One step (R25): a stopped hart waits for the environment; a running one lets the writes of other agents
land, fetches, decodes and executes. -/

namespace Sys2Proof.Machine

/-- Steps 2 to 5 of R25 on a fetched word: a reserved word raises IllegalInstruction carrying it (R93, R239). -/
def runWord (w : Word) (s : State) : Host.Outcome State Fault Refusal :=
  match decode w with
  | .ok i => exec i s
  | .error _ => .next (s.takeTrap ⟨.illegalInstruction, some w⟩)

/-- One instruction of a running hart (R25). A pc that is no multiple of 4 has no meaning (R26; log entry 16). -/
def runHart (s : State) : Host.Outcome State Fault Refusal :=
  if isAligned s.pc .word then
    match s.fetch with
    | .ok w => runWord w s
    | .error x => .next (s.takeTrap x)
  else .fault (.misalignedPc s.pc)

/-- One step of the machine. -/
def step (s : State) : Host.Outcome State Fault Refusal :=
  match s.trap with
  | some t => s.resume t
  | none =>
    match s.landForeign with
    | .ok s' => runHart s'
    | .error r => .refused r

/-- A region that allows the fetch at pc and nothing else. -/
def fetchOnlyRegion (pc : Word) : Region := ⟨pc, 4, .memory, true, .none, .none⟩

/-- The environment's load of one instruction word where the next step fetches (R273, D17; log entry 15): the four bytes
at pc, little-endian, the hart running, and a map that allows the fetch, when it does not already. -/
def State.withFetchWord (s : State) (nbits w : Nat) : State :=
  let word : Word := BitVec.ofNat 32 (w % 2 ^ nbits)
  { s with
    mem := Memory.putAll s.mem s.pc [byteOfWord word 0, byteOfWord word 1, byteOfWord word 2, byteOfWord word 3]
    params :=
      if (memmapAnswer s.params .fetch s.pc .word).isSome then s.params
      else { s.params with memmap := fetchOnlyRegion s.pc :: s.params.memmap }
    trap := none }

end Sys2Proof.Machine
end

