-- ==== Sys2Proof/Machine/Hints.lean ====
section
/-! DEFINITION. The HINT encodings (45_hints.md, Table 5) and the pseudoinstructions (R98). A HINT is executed by the rule
of the instruction it is encoded as (R215), so nothing here gives an instruction a meaning: `hintOf` names the code points
of Table 5, and the pseudoinstructions name the base instructions they expand to. -/

namespace Sys2Proof.Machine

/-- The purposes Table 5 gives its rows (R211). -/
inductive HintPurpose where
  | futureStandard
  | ntlP1
  | ntlPall
  | ntlS1
  | ntlAll
  | semihostingEntry
  | semihostingExit
  | pause
  | custom
deriving DecidableEq, Repr

/-- An ADD to x0: the four NTL hints with rs1 = x0 and rs2 one of x2 to x5 (R211, R214; 90_conflicts.md C1). -/
def addHint (rs1 rs2 : RegIdx) : HintPurpose :=
  if rs1 ≠ 0#5 then .futureStandard
  else if rs2 = 2#5 then .ntlP1
  else if rs2 = 3#5 then .ntlPall
  else if rs2 = 4#5 then .ntlS1
  else if rs2 = 5#5 then .ntlAll
  else .futureStandard

/-- A FENCE with fm = 0 and an empty predecessor or successor set is a HINT in the rows of Table 5 that have rd = x0 or
rs1 = x0 (R211, R213; 90_conflicts.md C5). -/
def fenceHint (fm : BitVec 4) (pred succ : AccessSet) (rs1 rd : RegIdx) : Option HintPurpose :=
  if fm = 0#4 ∧ (pred = .none ∨ succ = .none) ∧ (rd = 0#5 ∨ rs1 = 0#5) then
    if rd = 0#5 ∧ rs1 = 0#5 ∧ pred = .write ∧ succ = .none then some .pause else some .futureStandard
  else none

/-- A purpose when rd is x0, else no HINT. -/
def whenX0 (rd : RegIdx) (p : HintPurpose) : Option HintPurpose := if rd = 0#5 then some p else none

/-- Which HINT of Table 5 an instruction is, if it is one (R211). NOP, loads, jumps, ECALL, EBREAK and FENCEs with
non-empty sets are none (R216). -/
def hintOf : Instr → Option HintPurpose
  | .lui rd _ => whenX0 rd .futureStandard
  | .auipc rd _ => whenX0 rd .futureStandard
  | .addi rd rs1 imm => if rs1 = 0#5 ∧ imm = 0#12 then none else whenX0 rd .futureStandard
  | .andi rd _ _ => whenX0 rd .futureStandard
  | .ori rd _ _ => whenX0 rd .futureStandard
  | .xori rd _ _ => whenX0 rd .futureStandard
  | .add rd rs1 rs2 => whenX0 rd (addHint rs1 rs2)
  | .slli rd rs1 shamt => whenX0 rd (if rs1 = 0#5 ∧ shamt = 31#5 then .semihostingEntry else .custom)
  | .srai rd rs1 shamt => whenX0 rd (if rs1 = 0#5 ∧ shamt = 7#5 then .semihostingExit else .custom)
  | .sub rd _ _ => whenX0 rd .futureStandard
  | .and rd _ _ => whenX0 rd .futureStandard
  | .or rd _ _ => whenX0 rd .futureStandard
  | .xor rd _ _ => whenX0 rd .futureStandard
  | .sll rd _ _ => whenX0 rd .futureStandard
  | .srl rd _ _ => whenX0 rd .futureStandard
  | .sra rd _ _ => whenX0 rd .futureStandard
  | .fence fm pred succ rs1 rd => fenceHint fm pred succ rs1 rd
  | .pause => some .pause
  | .slti rd _ _ => whenX0 rd .custom
  | .sltiu rd _ _ => whenX0 rd .custom
  | .srli rd _ _ => whenX0 rd .custom
  | .slt rd _ _ => whenX0 rd .custom
  | .sltu rd _ _ => whenX0 rd .custom
  | .jal _ _ | .jalr _ _ _ => none
  | .beq _ _ _ | .bne _ _ _ | .blt _ _ _ | .bge _ _ _ | .bltu _ _ _ | .bgeu _ _ _ => none
  | .lw _ _ _ | .lh _ _ _ | .lhu _ _ _ | .lb _ _ _ | .lbu _ _ _ => none
  | .sw _ _ _ | .sh _ _ _ | .sb _ _ _ => none
  | .fenceTso | .ecall | .ebreak => none

/-! ## Pseudoinstructions (R98) -/

def pseudoNop : Instr := .addi 0#5 0#5 0#12
def pseudoMv (rd rs1 : RegIdx) : Instr := .addi rd rs1 0#12
def pseudoSeqz (rd rs : RegIdx) : Instr := .sltiu rd rs 1#12
def pseudoNot (rd rs : RegIdx) : Instr := .xori rd rs (-1#12)
def pseudoSnez (rd rs : RegIdx) : Instr := .sltu rd 0#5 rs
def pseudoJ (off : BitVec 21) : Instr := .jal 0#5 off
def pseudoJr (rs : RegIdx) : Instr := .jalr 0#5 rs 0#12
def pseudoRet : Instr := .jalr 0#5 1#5 0#12
def pseudoBgt (rs rt : RegIdx) (off : BitVec 13) : Instr := .blt rt rs off
def pseudoBgtu (rs rt : RegIdx) (off : BitVec 13) : Instr := .bltu rt rs off
def pseudoBle (rs rt : RegIdx) (off : BitVec 13) : Instr := .bge rt rs off
def pseudoBleu (rs rt : RegIdx) (off : BitVec 13) : Instr := .bgeu rt rs off

end Sys2Proof.Machine
end

