-- ==== Sys2Proof/Safety.lean ====
section
/-! DEFINITION. The terms claims are stated in: what a completed instruction leaves unchanged, the exceptions each
instruction may raise, the invariant of the machine, the start states the spec allows, and what counts as a safe run. -/

namespace Sys2Proof.Machine

/-! ## Frames -/

/-- Every register but rd holds what it held. -/
def SameRegsExcept (rd : RegIdx) (s t : State) : Prop := ∀ r : RegIdx, r ≠ rd → t.reg r = s.reg r

/-- Every register holds what it held. -/
def SameRegs (s t : State) : Prop := ∀ r : RegIdx, t.reg r = s.reg r

/-- Every byte of memory reads as it read. -/
def SameMemory (s t : State) : Prop := ∀ a : Word, t.byteAt a = s.byteAt a

/-- Every byte of memory but those an access of width `w` at `a` touches reads as it read. -/
def SameMemoryExcept (a : Word) (w : Width) (s t : State) : Prop :=
  ∀ b : Word, b ∉ touched a w → t.byteAt b = s.byteAt b

/-- The parameters, the trap, the environment's coming answers and the other agents' coming writes are as they were. -/
def SameEnvironment (s t : State) : Prop :=
  t.params = s.params ∧ t.trap = s.trap ∧ t.replies = s.replies ∧ t.foreign = s.foreign

/-- No I/O took place, no FENCE was recorded and no access was split. -/
def SameTrace (s t : State) : Prop := t.draws = s.draws ∧ t.events = s.events ∧ t.splits = s.splits

/-- `x[rd] <- v` and pc to `next`, and nothing else: rd holds v, unless it is x0, which reads 0 (R21). -/
def WritesOnly (rd : RegIdx) (v next : Word) (s t : State) : Prop :=
  t.reg rd = (if rd = 0#5 then 0#32 else v) ∧ t.pc = next ∧ SameRegsExcept rd s t ∧ SameMemory s t
    ∧ SameEnvironment s t ∧ SameTrace s t

/-- pc to `next`, and nothing else. -/
def MovesOnly (next : Word) (s t : State) : Prop :=
  t.pc = next ∧ SameRegs s t ∧ SameMemory s t ∧ SameEnvironment s t ∧ SameTrace s t

/-- The instruction answers a next state with the property. -/
def Completes (o : Host.Outcome State Fault Refusal) (P : State → Prop) : Prop := ∃ t, o = .next t ∧ P t

/-- The instruction raises: the trap record (cause, epc = pc, info) is handed to the environment and nothing else of the
state has changed (R240, R241). -/
def Traps (o : Host.Outcome State Fault Refusal) (s : State) (c : Cause) (info : Option Word) : Prop :=
  o = .next { s with trap := some ⟨c, s.pc, info⟩ }

/-- The instruction raises the exception, carrying the information given: no register, no byte of memory and not pc is
changed. -/
def Raises (o : Host.Outcome State Fault Refusal) (s : State) (c : Cause) (info : Option Word) : Prop :=
  Completes o fun t => (∃ epc, t.trap = some ⟨c, epc, info⟩) ∧ t.pc = s.pc ∧ SameRegs s t ∧ SameMemory s t

/-- `pc <- pc + 4` and no change to a register, to memory, to the environment or by a device: what a HINT or a FENCE is to
its own hart (R190, R210). -/
def AdvancesOnly (s t : State) : Prop :=
  t.pc = s.pc + 4#32 ∧ SameRegs s t ∧ SameMemory s t ∧ SameEnvironment s t ∧ t.draws = s.draws
    ∧ t.splits = s.splits

/-- The rule common to the six branches (R163), for a branch with the given condition. -/
def Branches (o : Host.Outcome State Fault Refusal) (taken : Prop) (off : BitVec 13) (s : State) : Prop :=
  let target := BitVec.ofInt 32 (s.pc.toNat + off.toInt)
  (¬ taken → Completes o (MovesOnly (s.pc + 4#32) s))
  ∧ (taken → target.toNat % 4 = 0 → Completes o (MovesOnly target s))
  ∧ (taken → target.toNat % 4 ≠ 0 → Raises o s .instructionAddressMisaligned (some target))

/-! ## Memory in the terms of R42 -/

/-- The 16-bit value of the two bytes at `a` and above, in the byte order of the run. -/
def State.halfAt (s : State) (a : Word) : BitVec 16 :=
  match s.params.endian with
  | .little => s.byteAt (a + 1#32) ++ s.byteAt a
  | .big => s.byteAt a ++ s.byteAt (a + 1#32)

/-- The 32-bit value of the four bytes at `a` and above, in the byte order of the run. -/
def State.wordAt (s : State) (a : Word) : Word :=
  match s.params.endian with
  | .little => s.byteAt (a + 3#32) ++ s.byteAt (a + 2#32) ++ s.byteAt (a + 1#32) ++ s.byteAt a
  | .big => s.byteAt a ++ s.byteAt (a + 1#32) ++ s.byteAt (a + 2#32) ++ s.byteAt (a + 3#32)

/-- The byte of an `n`-byte value that lies `k` bytes above its address. -/
def byteOfValue (e : Endian) (n k : Nat) (v : Word) : Byte :=
  match e with
  | .little => v.extractLsb' (8 * k) 8
  | .big => v.extractLsb' (8 * (n - 1 - k)) 8

/-- The low `8 * w.bytes` bits of the value are in memory at `a` in the byte order of the run, pc has advanced, and
nothing else has changed. -/
def StoresOnly (a : Word) (w : Width) (v : Word) (s t : State) : Prop :=
  (∀ k < w.bytes, t.byteAt (byteAddress a k) = byteOfValue s.params.endian w.bytes k v)
  ∧ SameMemoryExcept a w s t ∧ t.pc = s.pc + 4#32 ∧ SameRegs s t ∧ SameEnvironment s t ∧ SameTrace s t

/-- No exception for misalignment: the address is a multiple of the size, or the environment supports the access (R45,
R50). -/
def AlignmentOk (p : Params) (a : Word) (w : Width) : Prop := a.toNat % w.bytes = 0 ∨ p.misaligned = .support

/-- The access is misaligned and the environment supports it, so that it is split into byte accesses (R50, R51). -/
def IsSplit (p : Params) (a : Word) (w : Width) : Prop := a.toNat % w.bytes ≠ 0 ∧ p.misaligned = .support

/-- An aligned load of this width reads ordinary memory here. -/
def CanLoad (p : Params) (a : Word) (w : Width) : Prop :=
  a.toNat % w.bytes = 0 ∧ memmapAnswer p .read a w = some .memory

/-- An aligned store of this width writes ordinary memory here, none of it program text. -/
def CanStore (p : Params) (a : Word) (w : Width) : Prop :=
  a.toNat % w.bytes = 0 ∧ memmapAnswer p .write a w = some .memory ∧ ∀ b ∈ touched a w, isText p b = false

/-- A load from ordinary memory: `v` goes to rd, pc advances and nothing else changes, in one access where it is aligned
and as a split access (log entry 23) where it is misaligned, supported, and no other agent has writes to come. -/
def LoadsMemory (o : Host.Outcome State Fault Refusal) (s : State) (a : Word) (w : Width) (rd : RegIdx) (v : Word) :
    Prop :=
  memmapAnswer s.params .read a w = some .memory →
    (a.toNat % w.bytes = 0 → Completes o (WritesOnly rd v (s.pc + 4#32) s))
    ∧ (IsSplit s.params a w → s.foreign = [] → Completes o (WritesOnly rd v (s.pc + 4#32) s.beginSplit))

/-- A store to ordinary memory that is no program text: the low bytes of `v` are stored, pc advances and nothing else
changes, in one access where it is aligned and as a split access (log entry 23) where it is misaligned, supported, and no
other agent has writes to come. -/
def StoresMemory (o : Host.Outcome State Fault Refusal) (s : State) (a : Word) (w : Width) (v : Word) : Prop :=
  memmapAnswer s.params .write a w = some .memory → (∀ b ∈ touched a w, isText s.params b = false) →
    (a.toNat % w.bytes = 0 → Completes o (StoresOnly a w v s))
    ∧ (IsSplit s.params a w → s.foreign = [] → Completes o (StoresOnly a w v s.beginSplit))

/-- When a load of this width raises, and what (R233, R234): misaligned under the policy `trap`, or denied. -/
def LoadRaises (o : Host.Outcome State Fault Refusal) (s : State) (a : Word) (w : Width) : Prop :=
  (a.toNat % w.bytes ≠ 0 → s.params.misaligned = .trap → Raises o s .loadAddressMisaligned (some a))
  ∧ (AlignmentOk s.params a w → memmapAnswer s.params .read a w = none → Raises o s .loadAccessFault (some a))

/-- When a store of this width raises, and what (R235, R236): misaligned under the policy `trap`, or denied. -/
def StoreRaises (o : Host.Outcome State Fault Refusal) (s : State) (a : Word) (w : Width) : Prop :=
  (a.toNat % w.bytes ≠ 0 → s.params.misaligned = .trap → Raises o s .storeAddressMisaligned (some a))
  ∧ (AlignmentOk s.params a w → memmapAnswer s.params .write a w = none → Raises o s .storeAccessFault (some a))

/-- A device input of this width at `a`: some value that fits the width is drawn and recorded, its extension goes to rd,
pc advances, and nothing else changes (R52). -/
def ReadsDevice (a : Word) (w : Width) (extend : Word → Word) (rd : RegIdx) (s t : State) : Prop :=
  ∃ v : Word, v.toNat < 2 ^ (8 * w.bytes) ∧ t.reg rd = (if rd = 0#5 then 0#32 else extend v)
    ∧ t.events = s.events ++ [.input a w v] ∧ t.draws = s.draws + 1 ∧ t.splits = s.splits
    ∧ t.pc = s.pc + 4#32 ∧ SameRegsExcept rd s t ∧ SameMemory s t ∧ SameEnvironment s t

/-- A device output of this width at `a`: the low bits of the value are recorded, pc advances, and nothing else
changes (R52). -/
def WritesDevice (a : Word) (w : Width) (v : Word) (s t : State) : Prop :=
  t.events = s.events ++ [.output a w (BitVec.ofNat 32 (v.toNat % 2 ^ (8 * w.bytes)))] ∧ t.draws = s.draws
    ∧ t.splits = s.splits ∧ t.pc = s.pc + 4#32 ∧ SameRegs s t ∧ SameMemory s t ∧ SameEnvironment s t

/-! ## Other agents and split accesses (R51, R58, R59; log entries 13, 23) -/

/-- The byte at `a` after the writes, in order, where it was `b` before them. -/
def lastWritten (a : Word) (b : Byte) : List (Word × Byte) → Byte
  | [] => b
  | (c, v) :: rest => lastWritten a (if c = a then v else b) rest

/-- The byte at `a` once the next `n` batches of other agents' writes have landed. -/
def State.byteAfter (s : State) (n : Nat) (a : Word) : Byte := lastWritten a (s.byteAt a) (s.foreign.take n).flatten

/-- The next `n` batches of other agents' writes touch no program text. -/
def State.NoTextWrites (s : State) (n : Nat) : Prop := ∀ w ∈ (s.foreign.take n).flatten, isText s.params w.1 = false

/-- What any split access of `n` bytes leaves behind: pc advanced, its `n` batches of other agents' writes used up, one
split access more, and the parameters, the trap and the environment's answers as they were. -/
def AfterSplit (n : Nat) (s t : State) : Prop :=
  t.pc = s.pc + 4#32 ∧ t.foreign = s.foreign.drop n ∧ t.splits = s.splits + 1 ∧ t.params = s.params ∧ t.trap = s.trap
    ∧ t.replies = s.replies

/-- A split load from ordinary memory: the bytes are read in some order, the byte at place `j` of the order as it is once
`j + 1` batches of other agents' writes have landed. -/
def SplitLoad (o : Host.Outcome State Fault Refusal) (s : State) (a : Word) (w : Width) (extend : Word → Word)
    (rd : RegIdx) : Prop :=
  Completes o fun t => ∃ (order : List Nat) (v : Word), order.Perm (List.range w.bytes) ∧ v.toNat < 2 ^ (8 * w.bytes)
    ∧ (∀ j k, order[j]? = some k →
        byteOfValue s.params.endian w.bytes k v = s.byteAfter (j + 1) (byteAddress a k))
    ∧ t.reg rd = (if rd = 0#5 then 0#32 else extend v) ∧ SameRegsExcept rd s t
    ∧ (∀ b, t.byteAt b = s.byteAfter w.bytes b) ∧ AfterSplit w.bytes s t ∧ t.draws = s.draws ∧ t.events = s.events

/-- A split load from a device: one byte input for each byte, in some order. -/
def SplitInput (o : Host.Outcome State Fault Refusal) (s : State) (a : Word) (w : Width) (extend : Word → Word)
    (rd : RegIdx) : Prop :=
  Completes o fun t => ∃ (order : List Nat) (answer : Nat → Byte) (v : Word),
    order.Perm (List.range w.bytes) ∧ v.toNat < 2 ^ (8 * w.bytes)
    ∧ (∀ k < w.bytes, byteOfValue s.params.endian w.bytes k v = answer k)
    ∧ t.events = s.events ++ order.map (fun k => .input (byteAddress a k) .byte ((answer k).setWidth 32))
    ∧ t.draws = s.draws + w.bytes ∧ t.reg rd = (if rd = 0#5 then 0#32 else extend v) ∧ SameRegsExcept rd s t
    ∧ (∀ b, t.byteAt b = s.byteAfter w.bytes b) ∧ AfterSplit w.bytes s t

/-- A split store to ordinary memory: the bytes are written in some order, and the byte at place `j` of the order holds
what the value gives it unless one of the batches of other agents' writes after the first `j + 1` overwrites it. -/
def SplitStore (o : Host.Outcome State Fault Refusal) (s : State) (a : Word) (w : Width) (v : Word) : Prop :=
  Completes o fun t => ∃ order : List Nat, order.Perm (List.range w.bytes)
    ∧ (∀ j k, order[j]? = some k → t.byteAt (byteAddress a k)
        = lastWritten (byteAddress a k) (byteOfValue s.params.endian w.bytes k v)
            ((s.foreign.take w.bytes).drop (j + 1)).flatten)
    ∧ (∀ b, b ∉ touched a w → t.byteAt b = s.byteAfter w.bytes b) ∧ SameRegs s t ∧ AfterSplit w.bytes s t
    ∧ t.draws = s.draws ∧ t.events = s.events

/-- A split store to a device: one byte output for each byte, in some order. -/
def SplitOutput (o : Host.Outcome State Fault Refusal) (s : State) (a : Word) (w : Width) (v : Word) : Prop :=
  Completes o fun t => ∃ order : List Nat, order.Perm (List.range w.bytes)
    ∧ t.events = s.events ++ order.map (fun k =>
        .output (byteAddress a k) .byte ((byteOfValue s.params.endian w.bytes k v).setWidth 32))
    ∧ t.draws = s.draws ∧ SameRegs s t ∧ (∀ b, t.byteAt b = s.byteAfter w.bytes b) ∧ AfterSplit w.bytes s t

/-! ## What an instruction names and touches -/

/-- The registers an instruction reads. The rs1 of a FENCE is not read (R193). -/
def sources : Instr → List RegIdx
  | .addi _ rs1 _ | .slti _ rs1 _ | .sltiu _ rs1 _ | .andi _ rs1 _ | .ori _ rs1 _ | .xori _ rs1 _ => [rs1]
  | .slli _ rs1 _ | .srli _ rs1 _ | .srai _ rs1 _ => [rs1]
  | .lui _ _ | .auipc _ _ => []
  | .add _ rs1 rs2 | .sub _ rs1 rs2 | .slt _ rs1 rs2 | .sltu _ rs1 rs2 | .and _ rs1 rs2 => [rs1, rs2]
  | .or _ rs1 rs2 | .xor _ rs1 rs2 | .sll _ rs1 rs2 | .srl _ rs1 rs2 | .sra _ rs1 rs2 => [rs1, rs2]
  | .jal _ _ => []
  | .jalr _ rs1 _ => [rs1]
  | .beq rs1 rs2 _ | .bne rs1 rs2 _ | .blt rs1 rs2 _ | .bge rs1 rs2 _ | .bltu rs1 rs2 _ | .bgeu rs1 rs2 _ => [rs1, rs2]
  | .lw _ rs1 _ | .lh _ rs1 _ | .lhu _ rs1 _ | .lb _ rs1 _ | .lbu _ rs1 _ => [rs1]
  | .sw rs2 rs1 _ | .sh rs2 rs1 _ | .sb rs2 rs1 _ => [rs1, rs2]
  | .fence _ _ _ _ _ | .fenceTso | .pause | .ecall | .ebreak => []

/-- The register an instruction writes, if it writes one. The rd of a FENCE is not written (R193). -/
def destination : Instr → Option RegIdx
  | .addi rd _ _ | .slti rd _ _ | .sltiu rd _ _ | .andi rd _ _ | .ori rd _ _ | .xori rd _ _ => some rd
  | .slli rd _ _ | .srli rd _ _ | .srai rd _ _ => some rd
  | .lui rd _ | .auipc rd _ => some rd
  | .add rd _ _ | .sub rd _ _ | .slt rd _ _ | .sltu rd _ _ | .and rd _ _ => some rd
  | .or rd _ _ | .xor rd _ _ | .sll rd _ _ | .srl rd _ _ | .sra rd _ _ => some rd
  | .jal rd _ | .jalr rd _ _ => some rd
  | .beq _ _ _ | .bne _ _ _ | .blt _ _ _ | .bge _ _ _ | .bltu _ _ _ | .bgeu _ _ _ => none
  | .lw rd _ _ | .lh rd _ _ | .lhu rd _ _ | .lb rd _ _ | .lbu rd _ _ => some rd
  | .sw _ _ _ | .sh _ _ _ | .sb _ _ _ => none
  | .fence _ _ _ _ _ | .fenceTso | .pause | .ecall | .ebreak => none

/-- The data access an instruction makes, if it makes one (R40). -/
def dataAccess : Instr → Option (AccessKind × Width)
  | .lw _ _ _ => some (.read, .word)
  | .lh _ _ _ | .lhu _ _ _ => some (.read, .half)
  | .lb _ _ _ | .lbu _ _ _ => some (.read, .byte)
  | .sw _ _ _ => some (.write, .word)
  | .sh _ _ _ => some (.write, .half)
  | .sb _ _ _ => some (.write, .byte)
  | .addi _ _ _ | .slti _ _ _ | .sltiu _ _ _ | .andi _ _ _ | .ori _ _ _ | .xori _ _ _ => none
  | .slli _ _ _ | .srli _ _ _ | .srai _ _ _ | .lui _ _ | .auipc _ _ => none
  | .add _ _ _ | .sub _ _ _ | .slt _ _ _ | .sltu _ _ _ | .and _ _ _ => none
  | .or _ _ _ | .xor _ _ _ | .sll _ _ _ | .srl _ _ _ | .sra _ _ _ => none
  | .jal _ _ | .jalr _ _ _ => none
  | .beq _ _ _ | .bne _ _ _ | .blt _ _ _ | .bge _ _ _ | .bltu _ _ _ | .bgeu _ _ _ => none
  | .fence _ _ _ _ _ | .fenceTso | .pause | .ecall | .ebreak => none

/-- The address a jump or a branch transfers control to, for a branch when it is taken (R150, R151, R163). -/
def transfersTo (i : Instr) (s : State) : Option Word :=
  let branch (taken : Prop) [Decidable taken] (off : BitVec 13) : Option Word :=
    if taken then some (BitVec.ofInt 32 (s.pc.toNat + off.toInt)) else none
  match i with
  | .jal _ off => some (BitVec.ofInt 32 (s.pc.toNat + off.toInt))
  | .jalr _ rs1 imm =>
    let sum := BitVec.ofInt 32 ((s.reg rs1).toInt + imm.toInt)
    some (BitVec.ofNat 32 (sum.toNat - sum.toNat % 2))
  | .beq rs1 rs2 off => branch (s.reg rs1 = s.reg rs2) off
  | .bne rs1 rs2 off => branch (s.reg rs1 ≠ s.reg rs2) off
  | .blt rs1 rs2 off => branch ((s.reg rs1).toInt < (s.reg rs2).toInt) off
  | .bge rs1 rs2 off => branch ((s.reg rs1).toInt ≥ (s.reg rs2).toInt) off
  | .bltu rs1 rs2 off => branch ((s.reg rs1).toNat < (s.reg rs2).toNat) off
  | .bgeu rs1 rs2 off => branch ((s.reg rs1).toNat ≥ (s.reg rs2).toNat) off
  | .addi _ _ _ | .slti _ _ _ | .sltiu _ _ _ | .andi _ _ _ | .ori _ _ _ | .xori _ _ _ => none
  | .slli _ _ _ | .srli _ _ _ | .srai _ _ _ | .lui _ _ | .auipc _ _ => none
  | .add _ _ _ | .sub _ _ _ | .slt _ _ _ | .sltu _ _ _ | .and _ _ _ => none
  | .or _ _ _ | .xor _ _ _ | .sll _ _ _ | .srl _ _ _ | .sra _ _ _ => none
  | .lw _ _ _ | .lh _ _ _ | .lhu _ _ _ | .lb _ _ _ | .lbu _ _ _ => none
  | .sw _ _ _ | .sh _ _ _ | .sb _ _ _ => none
  | .fence _ _ _ _ _ | .fenceTso | .pause | .ecall | .ebreak => none

/-- Is the instruction a jump or a branch (R152)? -/
def isControl : Instr → Bool
  | .jal _ _ | .jalr _ _ _ => true
  | .beq _ _ _ | .bne _ _ _ | .blt _ _ _ | .bge _ _ _ | .bltu _ _ _ | .bgeu _ _ _ => true
  | .addi _ _ _ | .slti _ _ _ | .sltiu _ _ _ | .andi _ _ _ | .ori _ _ _ | .xori _ _ _ => false
  | .slli _ _ _ | .srli _ _ _ | .srai _ _ _ | .lui _ _ | .auipc _ _ => false
  | .add _ _ _ | .sub _ _ _ | .slt _ _ _ | .sltu _ _ _ | .and _ _ _ => false
  | .or _ _ _ | .xor _ _ _ | .sll _ _ _ | .srl _ _ _ | .sra _ _ _ => false
  | .lw _ _ _ | .lh _ _ _ | .lhu _ _ _ | .lb _ _ _ | .lbu _ _ _ => false
  | .sw _ _ _ | .sh _ _ _ | .sb _ _ _ => false
  | .fence _ _ _ _ _ | .fenceTso | .pause | .ecall | .ebreak => false

/-- The word at pc, little-endian whatever the byte order of data is (R43, R48). -/
def State.wordAtPc (s : State) : Word :=
  s.byteAt (s.pc + 3#32) ++ s.byteAt (s.pc + 2#32) ++ s.byteAt (s.pc + 1#32) ++ s.byteAt s.pc

/-- The hart is running in `s`, and `s'` is `s` once the writes other agents make before its next instruction have
landed; its pc is a multiple of 4 (R26, R58, R59). -/
def AboutToFetch (s s' : State) : Prop := s.trap = none ∧ s.landForeign = .ok s' ∧ s'.pc.toNat % 4 = 0

/-! ## Exceptions by instruction (60_exceptions.md, summary table) -/

/-- May executing the instruction raise the exception? Fetch and decode raise theirs before there is an instruction. -/
def mayRaise : Instr → Cause → Bool
  | .jal _ _, c | .jalr _ _ _, c => c == .instructionAddressMisaligned
  | .beq _ _ _, c | .bne _ _ _, c | .blt _ _ _, c => c == .instructionAddressMisaligned
  | .bge _ _ _, c | .bltu _ _ _, c | .bgeu _ _ _, c => c == .instructionAddressMisaligned
  | .lw _ _ _, c | .lh _ _ _, c | .lhu _ _ _, c => c == .loadAddressMisaligned || c == .loadAccessFault
  | .lb _ _ _, c | .lbu _ _ _, c => c == .loadAccessFault
  | .sw _ _ _, c | .sh _ _ _, c => c == .storeAddressMisaligned || c == .storeAccessFault
  | .sb _ _ _, c => c == .storeAccessFault
  | .ecall, c => c == .environmentCall
  | .ebreak, c => c == .breakpoint
  | .addi _ _ _, _ | .slti _ _ _, _ | .sltiu _ _ _, _ | .andi _ _ _, _ | .ori _ _ _, _ | .xori _ _ _, _ => false
  | .slli _ _ _, _ | .srli _ _ _, _ | .srai _ _ _, _ | .lui _ _, _ | .auipc _ _, _ => false
  | .add _ _ _, _ | .sub _ _ _, _ | .slt _ _ _, _ | .sltu _ _ _, _ | .and _ _ _, _ => false
  | .or _ _ _, _ | .xor _ _ _, _ | .sll _ _ _, _ | .srl _ _ _, _ | .sra _ _ _, _ => false
  | .fence _ _ _ _ _, _ | .fenceTso, _ | .pause, _ => false

/-! ## The invariant -/

/-- The information a trap record carries is the one its exception carries (R231 to R239). -/
def recordFits (t : TrapRecord) : Prop :=
  match t.cause, t.info with
  | .environmentCall, info => info = none
  | .breakpoint, info => info = none
  | .instructionAccessFault, info => info = some t.epc
  | .illegalInstruction, some w => opcodeTable.all (fun r => !r.hits w) = true
  | .instructionAddressMisaligned, some a => a.toNat % 4 ≠ 0
  | .loadAddressMisaligned, some a => a.toNat % 4 ≠ 0
  | .storeAddressMisaligned, some a => a.toNat % 4 ≠ 0
  | .loadAccessFault, some _ => True
  | .storeAccessFault, some _ => True
  | _, none => False

/-- Is the event a device input? -/
def isInput : Event → Bool
  | .input _ _ _ => true
  | .output _ _ _ => false
  | .fence _ _ _ => false

/-- What holds of the machine at reset and after every step: memory is in canonical form, pc is a multiple of 4 (R26), a
trap record names the pc the hart stopped at and carries its exception's information (R240), and each device input has
drawn one value (R52). -/
structure State.Inv (s : State) : Prop where
  mem_wf : Memory.wf s.mem = true
  pc_aligned : s.pc.toNat % 4 = 0
  trap_fits : ∀ t, s.trap = some t → t.epc = s.pc ∧ recordFits t
  draws_eq : s.draws = s.events.countP isInput

/-! ## Start states, maps, runs -/

/-- The states a run may begin in (R270): pc at a RESET_PC that is a multiple of 4; any registers, memory, parameters and
environment; the hart running and nothing yet done. -/
structure State.Initial (s : State) (resetPc : Word) : Prop where
  pc_eq : s.pc = resetPc
  pc_aligned : resetPc.toNat % 4 = 0
  mem_wf : Memory.wf s.mem = true
  running : s.trap = none
  no_draws : s.draws = 0
  no_events : s.events = []

/-- The map makes no byte both fetchable and writable, as D15 recommends. -/
def TextUnwritable (p : Params) : Prop :=
  ∀ (a : Word) (w : Width), (memmapAnswer p .write a w).isSome = true → ∀ b ∈ touched a w, isText p b = false

/-- The byte is ordinary memory for a data read and a data write of this width at this address, and no part of it is
program text. -/
def OrdinaryMemory (p : Params) (a : Word) (w : Width) : Prop :=
  memmapAnswer p .read a w = some .memory ∧ memmapAnswer p .write a w = some .memory
    ∧ ∀ b ∈ touched a w, isText p b = false

/-- A requested trap: one the program asks for (R204). -/
def requestedTrap (t : TrapRecord) : Bool := t.cause == .environmentCall || t.cause == .breakpoint

/-- A safe state: running, or stopped at a trap the program asked for. A safe run is one whose every state is safe. -/
def State.safe (s : State) : Bool := s.trap.all requestedTrap

end Sys2Proof.Machine
end

