-- ==== Sys2Proof/Certificates/Slice0/Obligations.lean ====
section
/-! DEFINITION. The statements for the provers. A statement about every state holds of states no run reaches as well;
where it needs more it says so in a premise. Results are written in exact arithmetic over Nat and Int and narrowed at the
end. `Completes o P` says that the instruction answers a next state, and that the state has `P`. -/

open Sys2Proof Sys2Proof.Machine

/-! ## Registers, reset, the invariant -/

/-- The state after reset (R270; D16). That x1 to x31 read 0 (log entry 3), that RESET_PC is 0x1000 (log entry 4) and that
memory lists nothing (log entry 8) are the model's choices; the spec leaves the registers and unset memory unspecified and
RESET_PC a parameter that is a multiple of 4. -/
def Obligations.ResetState : Prop :=
  (∀ r : RegIdx, State.reset.reg r = 0#32) ∧ State.reset.pc = 0x00001000#32
  ∧ (∀ a : Word, State.reset.byteAt a = Config.unsetByte a.toNat)
  ∧ State.reset.trap = none ∧ State.reset.events = [] ∧ State.reset.params.misaligned = .trap
  ∧ State.reset.params.endian = .little

/-- The invariant holds at reset. -/
def Obligations.ResetMeetsInvariant : Prop := State.reset.Inv

/-- Every step keeps the invariant: memory stays in canonical form, pc stays a multiple of 4 (R26), a trap record names
the pc the hart stopped at and carries what its exception carries (R231 to R240), and each device input has drawn one
value. -/
def Obligations.StepKeepsInvariant : Prop := ∀ s t : State, s.Inv → step s = .next t → t.Inv

/-- x0 reads 0 in every state and a write to it is discarded (R21); any other register reads back what was written, and a
write to one register changes no other (R20, R22) and neither pc nor memory. -/
def Obligations.RegisterFile : Prop :=
  ∀ (s : State) (r : RegIdx) (v : Word),
    s.reg 0#5 = 0#32 ∧ s.setReg 0#5 v = s ∧ (r ≠ 0#5 → (s.setReg r v).reg r = v)
    ∧ (∀ q, q ≠ r → (s.setReg r v).reg q = s.reg q) ∧ (s.setReg r v).pc = s.pc ∧ SameMemory s (s.setReg r v)

/-! ## Encoding -/

/-- Decoding the encoding of a well-formed instruction gives the instruction, with every operand at every value. -/
def Obligations.DecodeOfEncode : Prop := ∀ i : Instr, WellFormed i = true → decode (encode i) = .ok i

/-- A word that decodes is the encoding of what it decodes to, and what it decodes to is well formed: each word has one
instruction and no bit of it is dropped. -/
def Obligations.EncodeOfDecode : Prop :=
  ∀ (w : Word) (i : Instr), decode w = .ok i → encode i = w ∧ WellFormed i = true

/-- The 40 base rows of the opcode table are pairwise disjoint, and the two named encodings of FENCE are subsets of the
FENCE row (R96). -/
def Obligations.RowsDisjoint : Prop :=
  let base := rowsImmediate ++ rowsRegister ++ rowsControl ++ rowsMemory ++ rowsSystem ++ [rowFence]
  base.length = 40
  ∧ (∀ w : Word, base.Pairwise fun a b => ¬ (a.hits w = true ∧ b.hits w = true))
  ∧ ∀ w : Word, ∀ r ∈ rowsNamedFence, r.hits w = true → rowFence.hits w = true

/-- The reserved words, by the classes R93 lists. -/
def Obligations.ReservedWords : Prop :=
  ∀ w : Word,
    (∃ c, decode w = .error c) ↔
      (w.extractLsb' 0 2 ≠ 0b11#2
      ∨ opcodeField w ∉ [0b0000011#7, 0b0001111#7, 0b0010011#7, 0b0010111#7, 0b0100011#7, 0b0110011#7, 0b0110111#7,
          0b1100011#7, 0b1100111#7, 0b1101111#7, 0b1110011#7]
      ∨ opcodeField w = 0b0010011#7 ∧ (funct3Field w = 0b001#3 ∧ funct7Field w ≠ 0b0000000#7
          ∨ funct3Field w = 0b101#3 ∧ funct7Field w ≠ 0b0000000#7 ∧ funct7Field w ≠ 0b0100000#7)
      ∨ opcodeField w = 0b0110011#7 ∧ funct7Field w ≠ 0b0000000#7
          ∧ ¬ (funct7Field w = 0b0100000#7 ∧ (funct3Field w = 0b000#3 ∨ funct3Field w = 0b101#3))
      ∨ opcodeField w = 0b1100011#7 ∧ funct3Field w ∈ [0b010#3, 0b011#3]
      ∨ opcodeField w = 0b0000011#7 ∧ funct3Field w ∈ [0b011#3, 0b110#3, 0b111#3]
      ∨ opcodeField w = 0b0100011#7 ∧ funct3Field w ∈ [0b011#3, 0b100#3, 0b101#3, 0b110#3, 0b111#3]
      ∨ opcodeField w = 0b1100111#7 ∧ funct3Field w ≠ 0b000#3
      ∨ opcodeField w = 0b0001111#7 ∧ funct3Field w ≠ 0b000#3
      ∨ opcodeField w = 0b1110011#7 ∧ w ≠ 0x00000073#32 ∧ w ≠ 0x00100073#32)

/-- Words of the spec's examples, one of each format, decode to what they stand for. -/
def Obligations.DecodeSamples : Prop :=
  decode 0xFFF30293#32 = .ok (.addi 5#5 6#5 (-1#12)) ∧ decode 0x40435293#32 = .ok (.srai 5#5 6#5 4#5)
  ∧ decode 0x407302B3#32 = .ok (.sub 5#5 6#5 7#5) ∧ decode 0x123452B7#32 = .ok (.lui 5#5 0x12345#20)
  ∧ decode 0xFFDFF06F#32 = .ok (.jal 0#5 (-4#21)) ∧ decode 0xFFC080E7#32 = .ok (.jalr 1#5 1#5 (-4#12))
  ∧ decode 0xFE629EE3#32 = .ok (.bne 5#5 6#5 (-4#13)) ∧ decode 0x00231283#32 = .ok (.lh 5#5 6#5 2#12)
  ∧ decode 0xFE732E23#32 = .ok (.sw 7#5 6#5 (-4#12))
  ∧ decode 0x0120000F#32 = .ok (.fence 0#4 ⟨false, false, false, true⟩ ⟨false, false, true, false⟩ 0#5 0#5)
  ∧ decode 0x8330000F#32 = .ok .fenceTso ∧ decode 0x0100000F#32 = .ok .pause
  ∧ decode 0x00000073#32 = .ok .ecall ∧ decode 0x00100073#32 = .ok .ebreak

/-- Every word with the MISC-MEM opcode and funct3 = 000 is a FENCE, whatever its other 22 bits hold: it decodes, reads no
register, writes none, raises nothing, and advances pc, as a FENCE with fm = 0000 does (R193). -/
def Obligations.EveryFenceWordIsAFence : Prop :=
  ∀ (w : Word) (s : State), opcodeField w = 0b0001111#7 → funct3Field w = 0b000#3 →
    ∃ i, decode w = .ok i ∧ sources i = [] ∧ destination i = none ∧ Completes (exec i s) (AdvancesOnly s)

/-! ## The step -/

/-- A step of a running hart executes the instruction its pc points at: the four bytes there, lowest address first,
decoded (R25, R48). What the step adds around `exec` are the writes other agents make before the instruction: with none to
come the state is the hart's own. -/
def Obligations.StepRunsDecodedInstruction : Prop :=
  ∀ (s s' : State) (i : Instr), AboutToFetch s s' →
    (memmapAnswer s'.params .fetch s'.pc .word).isSome = true →
    decodeBytes (s'.byteAt s'.pc) (s'.byteAt (s'.pc + 1#32)) (s'.byteAt (s'.pc + 2#32)) (s'.byteAt (s'.pc + 3#32))
      = .ok i →
    step s = exec i s' ∧ (s.foreign = [] → s' = s)

/-- A fetch that MEMMAP does not allow raises InstructionAccessFault at its own address, with pc as information (R48,
R232). -/
def Obligations.StepOnDeniedFetch : Prop :=
  ∀ s s' : State, AboutToFetch s s' → memmapAnswer s'.params .fetch s'.pc .word = none →
    Traps (step s) s' .instructionAccessFault (some s'.pc)

/-- A word that meets no row of the opcode table raises IllegalInstruction, with the word as information (R239; D4). -/
def Obligations.StepOnReservedWord : Prop :=
  ∀ s s' : State, AboutToFetch s s' → (memmapAnswer s'.params .fetch s'.pc .word).isSome = true →
    (∀ r ∈ opcodeTable, r.hits s'.wordAtPc = false) →
    Traps (step s) s' .illegalInstruction (some s'.wordAtPc)

/-- The step is total (R281): a running hart with a map in which no byte is both fetchable and writable has a next state,
whatever word it fetches and whatever its registers hold. -/
def Obligations.StepIsTotal : Prop :=
  ∀ s : State, s.Inv → s.trap = none → s.foreign = [] → TextUnwritable s.params → ∃ t, step s = .next t

/-- Traps are precise (R240, R241; D7, D8): a step of a running hart that ends in a trap has changed nothing but the trap
record, which names the pc of the instruction and carries its exception's information. -/
def Obligations.TrapsArePrecise : Prop :=
  ∀ (s t : State) (rec : TrapRecord), s.trap = none → s.foreign = [] → step s = .next t → t.trap = some rec →
    t = { s with trap := some rec } ∧ rec.epc = s.pc ∧ recordFits rec

/-- The program text is fixed for the run, and so are the parameters (R61, R270; D15): no step changes a byte that may be
fetched, whoever writes. -/
def Obligations.ProgramTextIsFixed : Prop :=
  ∀ s t : State, step s = .next t →
    t.params = s.params ∧ ∀ a : Word, isText s.params a = true → t.byteAt a = s.byteAt a

/-- An instruction raises no exception but those the summary table of 60_exceptions.md gives it. -/
def Obligations.OnlyListedExceptions : Prop :=
  ∀ (i : Instr) (s t : State) (rec : TrapRecord), s.trap = none → exec i s = .next t → t.trap = some rec →
    mayRaise i rec.cause = true

/-- An instruction reads no register its encoding does not name as a source (R22): changing such a register changes
nothing of what the instruction does elsewhere, not the value it writes to its rd when that is the register changed, and
otherwise the register keeps the change. -/
def Obligations.ReadsOnlyItsSources : Prop :=
  ∀ (i : Instr) (s t : State) (q : RegIdx) (v : Word), q ∉ sources i → exec i s = .next t →
    Completes (exec i (s.setReg q v)) fun t' =>
      (∀ r, r ≠ q → t'.reg r = t.reg r) ∧ t'.pc = t.pc ∧ SameMemory t t' ∧ SameEnvironment t t' ∧ SameTrace t t'
      ∧ (destination i = some q → s.trap = none → t.trap = none → t'.reg q = t.reg q)
      ∧ (destination i ≠ some q ∨ (s.trap = none ∧ t.trap ≠ none) → t'.reg q = (s.setReg q v).reg q)

/-- An instruction writes no register its encoding does not name as rd (R22). -/
def Obligations.WritesOnlyItsDestination : Prop :=
  ∀ (i : Instr) (s t : State) (r : RegIdx), exec i s = .next t → destination i ≠ some r → t.reg r = s.reg r

/-- Only loads and stores reach memory and devices (R40, R170): whatever is no store leaves every byte as it was but for
the batches of other agents' writes that land meanwhile (which they do in a split load, log entry 23), and what is no load
or store lets none land and adds nothing to the trace but a FENCE. -/
def Obligations.OnlyLoadsAndStoresAccess : Prop :=
  ∀ (i : Instr) (s t : State), exec i s = .next t →
    ((∀ w, dataAccess i ≠ some (.write, w)) →
      ∃ n, t.foreign = s.foreign.drop n ∧ ∀ a, t.byteAt a = s.byteAfter n a)
    ∧ (dataAccess i = none → SameMemory s t ∧ t.foreign = s.foreign ∧ t.draws = s.draws ∧ t.splits = s.splits
        ∧ (t.events = s.events ∨ ∃ fm pred succ, t.events = s.events ++ [.fence fm pred succ]))

/-- What is no jump or branch and does not trap advances pc by 4, modulo 2^32 (R25). -/
def Obligations.DefaultAdvance : Prop :=
  ∀ (i : Instr) (s t : State), isControl i = false → s.trap = none → exec i s = .next t → t.trap = none →
    t.pc = s.pc + 4#32

/-- A jump or taken branch to an aligned address that cannot be fetched completes, link and all, and the fault belongs to
the target (R63, R154): the next step raises InstructionAccessFault there. -/
def Obligations.FaultBelongsToTarget : Prop :=
  ∀ (i : Instr) (s : State) (target : Word), transfersTo i s = some target → s.trap = none → s.foreign = [] →
    target.toNat % 4 = 0 → memmapAnswer s.params .fetch target .word = none →
    Completes (exec i s) fun t =>
      t.pc = target ∧ t.trap = none ∧ (∀ rd, destination i = some rd → rd ≠ 0#5 → t.reg rd = s.pc + 4#32)
      ∧ Traps (step t) t .instructionAccessFault (some target)

/-- The environment restarts a stopped hart (R240, R246; D18; log entry 2): pc is epc, epc + 4 or a pc of its choice, the
last write the reply makes to a register or a byte is what it then holds, and nothing else changes. -/
def Obligations.EnvironmentRestartsHart : Prop :=
  ∀ (s : State) (rec : TrapRecord) (reply : Reply) (rest : List Reply), s.trap = some rec → s.replies = reply :: rest →
    (∀ w ∈ reply.memWrites, isText s.params w.1 = false) → (resumePc rec reply.resume).toNat % 4 = 0 →
    Completes (step s) fun t =>
      t.trap = none ∧ t.replies = rest ∧ t.params = s.params ∧ t.foreign = s.foreign ∧ SameTrace s t
      ∧ (reply.resume = .retry → t.pc = rec.epc) ∧ (reply.resume = .skip → t.pc = rec.epc + 4#32)
      ∧ (∀ pc, reply.resume = .restartAt pc → t.pc = pc)
      ∧ (∀ r, (∀ w ∈ reply.regWrites, w.1 ≠ r) → t.reg r = s.reg r)
      ∧ (∀ a, (∀ w ∈ reply.memWrites, w.1 ≠ a) → t.byteAt a = s.byteAt a)
      ∧ (∀ before r v after, reply.regWrites = before ++ (r, v) :: after → r ≠ 0#5 → (∀ w ∈ after, w.1 ≠ r) →
          t.reg r = v)
      ∧ (∀ before a b after, reply.memWrites = before ++ (a, b) :: after → (∀ w ∈ after, w.1 ≠ a) → t.byteAt a = b)

/-- With no answer from the environment the run ends at the trap (R284; D19). -/
def Obligations.RunEndsAtTrap : Prop :=
  ∀ (s : State) (rec : TrapRecord), s.trap = some rec → s.replies = [] → step s = .fault (.runEnded rec)

/-- Other agents may write memory between two instructions (R58, R59; log entry 13): what they write last is what the
coming instruction finds, the hart, the environment, the trace and every other byte are as they were, and a write to
program text is refused (D15). They may also write between the bytes of a split access (R51; log entry 23): each byte is
read or written in its turn, and a write to program text is refused there too. -/
def Obligations.OtherAgentsWriteMemory : Prop :=
  ∀ s : State,
    (∀ batch rest, s.foreign = batch :: rest →
      ((∀ w ∈ batch, isText s.params w.1 = false) →
        ∃ s', s.landForeign = .ok s' ∧ s'.regs = s.regs ∧ s'.pc = s.pc ∧ s'.params = s.params ∧ s'.foreign = rest
          ∧ s'.trap = s.trap ∧ s'.replies = s.replies ∧ SameTrace s s'
          ∧ (∀ a, (∀ w ∈ batch, w.1 ≠ a) → s'.byteAt a = s.byteAt a)
          ∧ ∀ before a b after, batch = before ++ (a, b) :: after → (∀ w ∈ after, w.1 ≠ a) → s'.byteAt a = b)
      ∧ ((∃ w ∈ batch, isText s.params w.1 = true) → s.trap = none → ∃ a, step s = .refused (.foreignWriteToText a)))
    ∧ ∀ (r rs1 : RegIdx) (imm : BitVec 12),
      let ea := s.effectiveAddress rs1 imm
      let reads (w : Width) := IsSplit s.params ea w ∧ memmapAnswer s.params .read ea w = some .memory
      let writes (w : Width) := IsSplit s.params ea w ∧ memmapAnswer s.params .write ea w = some .memory
        ∧ ∀ b ∈ touched ea w, isText s.params b = false
      let refused (i : Instr) := ∃ a, exec i s = .refused (.foreignWriteToText a)
      (reads .word →
        (s.NoTextWrites 4 → SplitLoad (exec (.lw r rs1 imm) s) s ea .word id r)
        ∧ (¬ s.NoTextWrites 4 → refused (.lw r rs1 imm)))
      ∧ (reads .half →
        (s.NoTextWrites 2 →
          SplitLoad (exec (.lh r rs1 imm) s) s ea .half (fun v => (v.setWidth 16).signExtend 32) r
          ∧ SplitLoad (exec (.lhu r rs1 imm) s) s ea .half id r)
        ∧ (¬ s.NoTextWrites 2 → refused (.lh r rs1 imm) ∧ refused (.lhu r rs1 imm)))
      ∧ (writes .word →
        (s.NoTextWrites 4 → SplitStore (exec (.sw r rs1 imm) s) s ea .word (s.reg r))
        ∧ (¬ s.NoTextWrites 4 → refused (.sw r rs1 imm)))
      ∧ (writes .half →
        (s.NoTextWrites 2 → SplitStore (exec (.sh r rs1 imm) s) s ea .half (s.reg r))
        ∧ (¬ s.NoTextWrites 2 → refused (.sh r rs1 imm)))

/-! ## Integer register-immediate (R111 to R121) -/

/-- ADDI (R111). -/
def Obligations.AddiAddsImmediate : Prop :=
  ∀ (rd rs1 : RegIdx) (imm : BitVec 12) (s : State),
    encode (.addi rd rs1 imm) = imm ++ rs1 ++ 0b000#3 ++ rd ++ 0b0010011#7
    ∧ Completes (exec (.addi rd rs1 imm) s)
        (WritesOnly rd (BitVec.ofInt 32 ((s.reg rs1).toInt + imm.toInt)) (s.pc + 4#32) s)

/-- SLTI and SLTIU (R112, R113). -/
def Obligations.SltiSltiuCompareImmediate : Prop :=
  ∀ (rd rs1 : RegIdx) (imm : BitVec 12) (s : State),
    encode (.slti rd rs1 imm) = imm ++ rs1 ++ 0b010#3 ++ rd ++ 0b0010011#7
    ∧ Completes (exec (.slti rd rs1 imm) s)
        (WritesOnly rd (if (s.reg rs1).toInt < imm.toInt then 1#32 else 0#32) (s.pc + 4#32) s)
    ∧ encode (.sltiu rd rs1 imm) = imm ++ rs1 ++ 0b011#3 ++ rd ++ 0b0010011#7
    ∧ Completes (exec (.sltiu rd rs1 imm) s)
        (WritesOnly rd (if (s.reg rs1).toNat < (imm.signExtend 32).toNat then 1#32 else 0#32) (s.pc + 4#32) s)

/-- ANDI, ORI and XORI, bit by bit; bits 11 to 31 of the immediate are its sign (R114 to R116). -/
def Obligations.LogicalImmediates : Prop :=
  ∀ (rd rs1 : RegIdx) (imm : BitVec 12) (s : State),
    encode (.andi rd rs1 imm) = imm ++ rs1 ++ 0b111#3 ++ rd ++ 0b0010011#7
    ∧ encode (.ori rd rs1 imm) = imm ++ rs1 ++ 0b110#3 ++ rd ++ 0b0010011#7
    ∧ encode (.xori rd rs1 imm) = imm ++ rs1 ++ 0b100#3 ++ rd ++ 0b0010011#7
    ∧ ∃ a o x : Word,
        (∀ k < 32, a.getLsbD k = ((s.reg rs1).getLsbD k && imm.getLsbD (min k 11))
          ∧ o.getLsbD k = ((s.reg rs1).getLsbD k || imm.getLsbD (min k 11))
          ∧ x.getLsbD k = ((s.reg rs1).getLsbD k ^^ imm.getLsbD (min k 11)))
        ∧ Completes (exec (.andi rd rs1 imm) s) (WritesOnly rd a (s.pc + 4#32) s)
        ∧ Completes (exec (.ori rd rs1 imm) s) (WritesOnly rd o (s.pc + 4#32) s)
        ∧ Completes (exec (.xori rd rs1 imm) s) (WritesOnly rd x (s.pc + 4#32) s)

/-- SLLI, SRLI and SRAI: times a power of two modulo 2^32, and the floor of the quotient by one, of the unsigned and of
the signed value (R117 to R119). -/
def Obligations.ShiftImmediates : Prop :=
  ∀ (rd rs1 : RegIdx) (shamt : BitVec 5) (s : State),
    encode (.slli rd rs1 shamt) = 0b0000000#7 ++ shamt ++ rs1 ++ 0b001#3 ++ rd ++ 0b0010011#7
    ∧ Completes (exec (.slli rd rs1 shamt) s)
        (WritesOnly rd (BitVec.ofNat 32 ((s.reg rs1).toNat * 2 ^ shamt.toNat)) (s.pc + 4#32) s)
    ∧ encode (.srli rd rs1 shamt) = 0b0000000#7 ++ shamt ++ rs1 ++ 0b101#3 ++ rd ++ 0b0010011#7
    ∧ Completes (exec (.srli rd rs1 shamt) s)
        (WritesOnly rd (BitVec.ofNat 32 ((s.reg rs1).toNat / 2 ^ shamt.toNat)) (s.pc + 4#32) s)
    ∧ encode (.srai rd rs1 shamt) = 0b0100000#7 ++ shamt ++ rs1 ++ 0b101#3 ++ rd ++ 0b0010011#7
    ∧ Completes (exec (.srai rd rs1 shamt) s)
        (WritesOnly rd (BitVec.ofInt 32 (Int.fdiv (s.reg rs1).toInt (2 ^ shamt.toNat))) (s.pc + 4#32) s)

/-- LUI and AUIPC (R120, R121). -/
def Obligations.UpperImmediates : Prop :=
  ∀ (rd : RegIdx) (imm20 : BitVec 20) (s : State),
    encode (.lui rd imm20) = imm20 ++ rd ++ 0b0110111#7
    ∧ Completes (exec (.lui rd imm20) s) (WritesOnly rd (BitVec.ofNat 32 (imm20.toNat * 2 ^ 12)) (s.pc + 4#32) s)
    ∧ encode (.auipc rd imm20) = imm20 ++ rd ++ 0b0010111#7
    ∧ Completes (exec (.auipc rd imm20) s)
        (WritesOnly rd (BitVec.ofNat 32 (s.pc.toNat + imm20.toNat * 2 ^ 12)) (s.pc + 4#32) s)

/-! ## Integer register-register (R122 to R131) and NOP -/

/-- ADD and SUB (R122, R123). -/
def Obligations.AddSub : Prop :=
  ∀ (rd rs1 rs2 : RegIdx) (s : State),
    encode (.add rd rs1 rs2) = 0b0000000#7 ++ rs2 ++ rs1 ++ 0b000#3 ++ rd ++ 0b0110011#7
    ∧ Completes (exec (.add rd rs1 rs2) s)
        (WritesOnly rd (BitVec.ofInt 32 ((s.reg rs1).toInt + (s.reg rs2).toInt)) (s.pc + 4#32) s)
    ∧ encode (.sub rd rs1 rs2) = 0b0100000#7 ++ rs2 ++ rs1 ++ 0b000#3 ++ rd ++ 0b0110011#7
    ∧ Completes (exec (.sub rd rs1 rs2) s)
        (WritesOnly rd (BitVec.ofInt 32 ((s.reg rs1).toInt - (s.reg rs2).toInt)) (s.pc + 4#32) s)

/-- SLT and SLTU, exact over the whole range (R124, R125). -/
def Obligations.SltSltuCompare : Prop :=
  ∀ (rd rs1 rs2 : RegIdx) (s : State),
    encode (.slt rd rs1 rs2) = 0b0000000#7 ++ rs2 ++ rs1 ++ 0b010#3 ++ rd ++ 0b0110011#7
    ∧ Completes (exec (.slt rd rs1 rs2) s)
        (WritesOnly rd (if (s.reg rs1).toInt < (s.reg rs2).toInt then 1#32 else 0#32) (s.pc + 4#32) s)
    ∧ encode (.sltu rd rs1 rs2) = 0b0000000#7 ++ rs2 ++ rs1 ++ 0b011#3 ++ rd ++ 0b0110011#7
    ∧ Completes (exec (.sltu rd rs1 rs2) s)
        (WritesOnly rd (if (s.reg rs1).toNat < (s.reg rs2).toNat then 1#32 else 0#32) (s.pc + 4#32) s)

/-- AND, OR and XOR, bit by bit (R126 to R128). -/
def Obligations.LogicalRegisters : Prop :=
  ∀ (rd rs1 rs2 : RegIdx) (s : State),
    encode (.and rd rs1 rs2) = 0b0000000#7 ++ rs2 ++ rs1 ++ 0b111#3 ++ rd ++ 0b0110011#7
    ∧ encode (.or rd rs1 rs2) = 0b0000000#7 ++ rs2 ++ rs1 ++ 0b110#3 ++ rd ++ 0b0110011#7
    ∧ encode (.xor rd rs1 rs2) = 0b0000000#7 ++ rs2 ++ rs1 ++ 0b100#3 ++ rd ++ 0b0110011#7
    ∧ ∃ a o x : Word,
        (∀ k < 32, a.getLsbD k = ((s.reg rs1).getLsbD k && (s.reg rs2).getLsbD k)
          ∧ o.getLsbD k = ((s.reg rs1).getLsbD k || (s.reg rs2).getLsbD k)
          ∧ x.getLsbD k = ((s.reg rs1).getLsbD k ^^ (s.reg rs2).getLsbD k))
        ∧ Completes (exec (.and rd rs1 rs2) s) (WritesOnly rd a (s.pc + 4#32) s)
        ∧ Completes (exec (.or rd rs1 rs2) s) (WritesOnly rd o (s.pc + 4#32) s)
        ∧ Completes (exec (.xor rd rs1 rs2) s) (WritesOnly rd x (s.pc + 4#32) s)

/-- SLL, SRL and SRA, by the low five bits of rs2 alone (R129 to R131). -/
def Obligations.ShiftRegisters : Prop :=
  ∀ (rd rs1 rs2 : RegIdx) (s : State),
    encode (.sll rd rs1 rs2) = 0b0000000#7 ++ rs2 ++ rs1 ++ 0b001#3 ++ rd ++ 0b0110011#7
    ∧ Completes (exec (.sll rd rs1 rs2) s)
        (WritesOnly rd (BitVec.ofNat 32 ((s.reg rs1).toNat * 2 ^ ((s.reg rs2).toNat % 32))) (s.pc + 4#32) s)
    ∧ encode (.srl rd rs1 rs2) = 0b0000000#7 ++ rs2 ++ rs1 ++ 0b101#3 ++ rd ++ 0b0110011#7
    ∧ Completes (exec (.srl rd rs1 rs2) s)
        (WritesOnly rd (BitVec.ofNat 32 ((s.reg rs1).toNat / 2 ^ ((s.reg rs2).toNat % 32))) (s.pc + 4#32) s)
    ∧ encode (.sra rd rs1 rs2) = 0b0100000#7 ++ rs2 ++ rs1 ++ 0b101#3 ++ rd ++ 0b0110011#7
    ∧ Completes (exec (.sra rd rs1 rs2) s)
        (WritesOnly rd (BitVec.ofInt 32 (Int.fdiv (s.reg rs1).toInt (2 ^ ((s.reg rs2).toNat % 32)))) (s.pc + 4#32) s)

/-- NOP is the word 0x00000013, which is ADDI x0, x0, 0, and only advances pc (R132). -/
def Obligations.NopOnlyAdvances : Prop :=
  ∀ s : State, encode pseudoNop = 0x00000013#32 ∧ decode 0x00000013#32 = .ok pseudoNop
    ∧ Completes (exec pseudoNop s) (MovesOnly (s.pc + 4#32) s)

/-- The three overflow checks of R134, on the registers the source writes (t0 to t4 are x5, x6, x7, x28, x29), run one
instruction after another: the branch is taken exactly when the sum overflows. The branch offset is a multiple of 4 and pc
is aligned, so that a taken branch does not trap. -/
def Obligations.OverflowIdioms : Prop :=
  ∀ (s : State) (off : BitVec 13) (imm : BitVec 12), s.pc.toNat % 4 = 0 → off.toNat % 4 = 0 →
    let a := s.reg 6#5
    let b := s.reg 7#5
    Completes (exec (.add 5#5 6#5 7#5) s) (fun t => Completes (exec (.bltu 5#5 6#5 off) t) fun u =>
      u.pc = if a.toNat + b.toNat ≥ 2 ^ 32 then t.pc + off.signExtend 32 else t.pc + 4#32)
    ∧ (0 < imm.toInt →
        Completes (exec (.addi 5#5 6#5 imm) s) (fun t => Completes (exec (.blt 5#5 6#5 off) t) fun u =>
          u.pc = if a.toInt + imm.toInt > 2 ^ 31 - 1 then t.pc + off.signExtend 32 else t.pc + 4#32))
    ∧ Completes (exec (.add 5#5 6#5 7#5) s) (fun t => Completes (exec (.slti 28#5 7#5 0#12) t) fun u =>
        Completes (exec (.slt 29#5 5#5 6#5) u) fun v => Completes (exec (.bne 28#5 29#5 off) v) fun z =>
          z.pc = if a.toInt + b.toInt < -2 ^ 31 ∨ a.toInt + b.toInt > 2 ^ 31 - 1 then v.pc + off.signExtend 32
            else v.pc + 4#32)

/-! ## Control transfer (R150 to R163) -/

/-- JAL (R150). -/
def Obligations.JalJumpsAndLinks : Prop :=
  ∀ (rd : RegIdx) (off : BitVec 21) (s : State),
    encode (.jal rd off) = off.extractLsb' 20 1 ++ off.extractLsb' 1 10 ++ off.extractLsb' 11 1 ++ off.extractLsb' 12 8
      ++ rd ++ 0b1101111#7
    ∧ let target := BitVec.ofInt 32 (s.pc.toNat + off.toInt)
      (target.toNat % 4 = 0 → Completes (exec (.jal rd off) s) (WritesOnly rd (s.pc + 4#32) target s))
      ∧ (target.toNat % 4 ≠ 0 → Raises (exec (.jal rd off) s) s .instructionAddressMisaligned (some target))

/-- JALR: the sum of the old rs1 and the immediate with its low bit dropped (R151). -/
def Obligations.JalrJumpsAndLinks : Prop :=
  ∀ (rd rs1 : RegIdx) (imm : BitVec 12) (s : State),
    encode (.jalr rd rs1 imm) = imm ++ rs1 ++ 0b000#3 ++ rd ++ 0b1100111#7
    ∧ let sum := BitVec.ofInt 32 ((s.reg rs1).toInt + imm.toInt)
      let target := BitVec.ofNat 32 (sum.toNat - sum.toNat % 2)
      (target.toNat % 4 = 0 → Completes (exec (.jalr rd rs1 imm) s) (WritesOnly rd (s.pc + 4#32) target s))
      ∧ (target.toNat % 4 ≠ 0 → Raises (exec (.jalr rd rs1 imm) s) s .instructionAddressMisaligned (some target))

/-- BEQ and BNE (R157, R158, with the common rule R163). -/
def Obligations.BeqBneBranch : Prop :=
  ∀ (rs1 rs2 : RegIdx) (off : BitVec 13) (s : State),
    encode (.beq rs1 rs2 off) = off.extractLsb' 12 1 ++ off.extractLsb' 5 6 ++ rs2 ++ rs1 ++ 0b000#3
      ++ off.extractLsb' 1 4 ++ off.extractLsb' 11 1 ++ 0b1100011#7
    ∧ Branches (exec (.beq rs1 rs2 off) s) (s.reg rs1 = s.reg rs2) off s
    ∧ encode (.bne rs1 rs2 off) = off.extractLsb' 12 1 ++ off.extractLsb' 5 6 ++ rs2 ++ rs1 ++ 0b001#3
      ++ off.extractLsb' 1 4 ++ off.extractLsb' 11 1 ++ 0b1100011#7
    ∧ Branches (exec (.bne rs1 rs2 off) s) (s.reg rs1 ≠ s.reg rs2) off s

/-- BLT and BGE (R159, R160, with the common rule R163). -/
def Obligations.BltBgeBranch : Prop :=
  ∀ (rs1 rs2 : RegIdx) (off : BitVec 13) (s : State),
    encode (.blt rs1 rs2 off) = off.extractLsb' 12 1 ++ off.extractLsb' 5 6 ++ rs2 ++ rs1 ++ 0b100#3
      ++ off.extractLsb' 1 4 ++ off.extractLsb' 11 1 ++ 0b1100011#7
    ∧ Branches (exec (.blt rs1 rs2 off) s) ((s.reg rs1).toInt < (s.reg rs2).toInt) off s
    ∧ encode (.bge rs1 rs2 off) = off.extractLsb' 12 1 ++ off.extractLsb' 5 6 ++ rs2 ++ rs1 ++ 0b101#3
      ++ off.extractLsb' 1 4 ++ off.extractLsb' 11 1 ++ 0b1100011#7
    ∧ Branches (exec (.bge rs1 rs2 off) s) ((s.reg rs1).toInt ≥ (s.reg rs2).toInt) off s

/-- BLTU and BGEU (R161, R162, with the common rule R163). -/
def Obligations.BltuBgeuBranch : Prop :=
  ∀ (rs1 rs2 : RegIdx) (off : BitVec 13) (s : State),
    encode (.bltu rs1 rs2 off) = off.extractLsb' 12 1 ++ off.extractLsb' 5 6 ++ rs2 ++ rs1 ++ 0b110#3
      ++ off.extractLsb' 1 4 ++ off.extractLsb' 11 1 ++ 0b1100011#7
    ∧ Branches (exec (.bltu rs1 rs2 off) s) ((s.reg rs1).toNat < (s.reg rs2).toNat) off s
    ∧ encode (.bgeu rs1 rs2 off) = off.extractLsb' 12 1 ++ off.extractLsb' 5 6 ++ rs2 ++ rs1 ++ 0b111#3
      ++ off.extractLsb' 1 4 ++ off.extractLsb' 11 1 ++ 0b1100011#7
    ∧ Branches (exec (.bgeu rs1 rs2 off) s) ((s.reg rs1).toNat ≥ (s.reg rs2).toNat) off s

/-- With pc aligned and an even offset, a JAL raises exactly when bit 1 of its offset is 1, each of the six branches exactly
when it is taken and bit 1 of its offset is 1, and a JALR exactly when bit 1 of the sum is 1 (R153). -/
def Obligations.MisalignedByBitOne : Prop :=
  ∀ (s t : State) (rd rs1 rs2 : RegIdx), s.trap = none → s.pc.toNat % 4 = 0 →
    (∀ off : BitVec 21, jumpOffsetOk off = true → exec (.jal rd off) s = .next t →
      (t.trap ≠ none ↔ off.getLsbD 1 = true))
    ∧ (∀ off : BitVec 13, branchOffsetOk off = true →
      let raises (branch : RegIdx → RegIdx → BitVec 13 → Instr) (taken : Prop) :=
        exec (branch rs1 rs2 off) s = .next t → (t.trap ≠ none ↔ taken ∧ off.getLsbD 1 = true)
      raises .beq (s.reg rs1 = s.reg rs2) ∧ raises .bne (s.reg rs1 ≠ s.reg rs2)
      ∧ raises .blt ((s.reg rs1).toInt < (s.reg rs2).toInt) ∧ raises .bge ((s.reg rs1).toInt ≥ (s.reg rs2).toInt)
      ∧ raises .bltu ((s.reg rs1).toNat < (s.reg rs2).toNat) ∧ raises .bgeu ((s.reg rs1).toNat ≥ (s.reg rs2).toNat))
    ∧ ∀ imm : BitVec 12, exec (.jalr rd rs1 imm) s = .next t →
      (t.trap ≠ none ↔ (s.reg rs1 + imm.signExtend 32).getLsbD 1 = true)

/-! ## Loads and stores (R170 to R185) -/

/-- The effective address: rs1 plus the signed displacement, modulo 2^32, not scaled; with rs1 = x0 the sign-extended
displacement itself (R171). -/
def Obligations.EffectiveAddressIsSum : Prop :=
  ∀ (s : State) (rs1 : RegIdx) (imm : BitVec 12),
    s.effectiveAddress rs1 imm = BitVec.ofInt 32 ((s.reg rs1).toNat + imm.toInt)
    ∧ (rs1 = 0#5 → s.effectiveAddress rs1 imm = imm.signExtend 32
        ∧ ((s.effectiveAddress rs1 imm).toNat ≤ 0x7FF ∨ 0xFFFFF800 ≤ (s.effectiveAddress rs1 imm).toNat))
    ∧ -2048 ≤ imm.toInt ∧ imm.toInt ≤ 2047

/-- LW (R175). The order of the checks is D9's (log entry 22); that a supported misaligned access gives the same value when
no other agent has writes to come is a consequence of how the model splits it (R50, R51; log entry 23). -/
def Obligations.LwLoadsWord : Prop :=
  ∀ (rd rs1 : RegIdx) (imm : BitVec 12) (s : State),
    let ea := s.effectiveAddress rs1 imm
    encode (.lw rd rs1 imm) = imm ++ rs1 ++ 0b010#3 ++ rd ++ 0b0000011#7
    ∧ LoadsMemory (exec (.lw rd rs1 imm) s) s ea .word rd (s.wordAt ea)
    ∧ LoadRaises (exec (.lw rd rs1 imm) s) s ea .word

/-- LH and LHU (R176, R177). The order of the checks is D9's (log entry 22); that a supported misaligned access gives the
same value when no other agent has writes to come is a consequence of how the model splits it (R50, R51; log entry 23). -/
def Obligations.LhLhuLoadHalf : Prop :=
  ∀ (rd rs1 : RegIdx) (imm : BitVec 12) (s : State),
    let ea := s.effectiveAddress rs1 imm
    encode (.lh rd rs1 imm) = imm ++ rs1 ++ 0b001#3 ++ rd ++ 0b0000011#7
    ∧ encode (.lhu rd rs1 imm) = imm ++ rs1 ++ 0b101#3 ++ rd ++ 0b0000011#7
    ∧ LoadsMemory (exec (.lh rd rs1 imm) s) s ea .half rd (BitVec.ofInt 32 (s.halfAt ea).toInt)
    ∧ LoadsMemory (exec (.lhu rd rs1 imm) s) s ea .half rd (BitVec.ofNat 32 (s.halfAt ea).toNat)
    ∧ LoadRaises (exec (.lh rd rs1 imm) s) s ea .half ∧ LoadRaises (exec (.lhu rd rs1 imm) s) s ea .half

/-- LB and LBU (R178, R179). A byte access is never misaligned, so the first clause of `LoadRaises` never applies. -/
def Obligations.LbLbuLoadByte : Prop :=
  ∀ (rd rs1 : RegIdx) (imm : BitVec 12) (s : State),
    let ea := s.effectiveAddress rs1 imm
    encode (.lb rd rs1 imm) = imm ++ rs1 ++ 0b000#3 ++ rd ++ 0b0000011#7
    ∧ encode (.lbu rd rs1 imm) = imm ++ rs1 ++ 0b100#3 ++ rd ++ 0b0000011#7
    ∧ (memmapAnswer s.params .read ea .byte = some .memory →
        Completes (exec (.lb rd rs1 imm) s)
          (WritesOnly rd (BitVec.ofInt 32 (s.byteAt ea).toInt) (s.pc + 4#32) s)
        ∧ Completes (exec (.lbu rd rs1 imm) s)
          (WritesOnly rd (BitVec.ofNat 32 (s.byteAt ea).toNat) (s.pc + 4#32) s))
    ∧ (memmapAnswer s.params .read ea .byte = none →
        Raises (exec (.lb rd rs1 imm) s) s .loadAccessFault (some ea)
        ∧ Raises (exec (.lbu rd rs1 imm) s) s .loadAccessFault (some ea))

/-- SW (R180): the four bytes at the effective address, in the byte order of the run (R42), and no other. The order of the
checks is D9's (log entry 22); that a supported misaligned access leaves the same bytes when no other agent has writes to
come is a consequence of how the model splits it (R50, R51; log entry 23). -/
def Obligations.SwStoresWord : Prop :=
  ∀ (rs2 rs1 : RegIdx) (imm : BitVec 12) (s : State),
    let ea := s.effectiveAddress rs1 imm
    encode (.sw rs2 rs1 imm) = imm.extractLsb' 5 7 ++ rs2 ++ rs1 ++ 0b010#3 ++ imm.extractLsb' 0 5 ++ 0b0100011#7
    ∧ StoresMemory (exec (.sw rs2 rs1 imm) s) s ea .word (s.reg rs2)
    ∧ StoreRaises (exec (.sw rs2 rs1 imm) s) s ea .word

/-- SH (R181) and SB (R182): the low two bytes and the low byte of rs2. For SH the order of the checks is D9's (log entry
22), and that a supported misaligned access leaves the same bytes when no other agent has writes to come is a consequence
of how the model splits it (R50, R51; log entry 23); a byte access is never misaligned. -/
def Obligations.ShSbStore : Prop :=
  ∀ (rs2 rs1 : RegIdx) (imm : BitVec 12) (s : State),
    let ea := s.effectiveAddress rs1 imm
    encode (.sh rs2 rs1 imm) = imm.extractLsb' 5 7 ++ rs2 ++ rs1 ++ 0b001#3 ++ imm.extractLsb' 0 5 ++ 0b0100011#7
    ∧ encode (.sb rs2 rs1 imm) = imm.extractLsb' 5 7 ++ rs2 ++ rs1 ++ 0b000#3 ++ imm.extractLsb' 0 5 ++ 0b0100011#7
    ∧ StoresMemory (exec (.sh rs2 rs1 imm) s) s ea .half (s.reg rs2)
    ∧ (CanStore s.params ea .byte → Completes (exec (.sb rs2 rs1 imm) s) (StoresOnly ea .byte (s.reg rs2) s))
    ∧ StoreRaises (exec (.sh rs2 rs1 imm) s) s ea .half
    ∧ (memmapAnswer s.params .write ea .byte = none → Raises (exec (.sb rs2 rs1 imm) s) s .storeAccessFault (some ea))

/-- Under MISALIGNED_POLICY = fault a misaligned access raises the access fault (R50, R234, R236). -/
def Obligations.MisalignedFaultPolicy : Prop :=
  ∀ (r rs1 : RegIdx) (imm : BitVec 12) (s : State), s.params.misaligned = .fault →
    let ea := s.effectiveAddress rs1 imm
    (ea.toNat % 4 ≠ 0 → Raises (exec (.lw r rs1 imm) s) s .loadAccessFault (some ea)
      ∧ Raises (exec (.sw r rs1 imm) s) s .storeAccessFault (some ea))
    ∧ (ea.toNat % 2 ≠ 0 → Raises (exec (.lh r rs1 imm) s) s .loadAccessFault (some ea)
      ∧ Raises (exec (.lhu r rs1 imm) s) s .loadAccessFault (some ea)
      ∧ Raises (exec (.sh r rs1 imm) s) s .storeAccessFault (some ea))

/-- A load from an I/O location is a device input: some value of its width is drawn, recorded and extended into rd (R52;
D23). A misaligned one that the environment supports is one byte input for each byte, in some order (R50, R51; log entries
9, 23). -/
def Obligations.LoadsFromDevices : Prop :=
  ∀ (rd rs1 : RegIdx) (imm : BitVec 12) (s : State),
    let ea := s.effectiveAddress rs1 imm
    let io (w : Width) := ea.toNat % w.bytes = 0 ∧ memmapAnswer s.params .read ea w = some .io
    let split (w : Width) := IsSplit s.params ea w ∧ memmapAnswer s.params .read ea w = some .io
      ∧ s.NoTextWrites w.bytes
    let signed16 (v : Word) := (v.setWidth 16).signExtend 32
    (io .word → Completes (exec (.lw rd rs1 imm) s) (ReadsDevice ea .word id rd s))
    ∧ (io .half →
        Completes (exec (.lh rd rs1 imm) s) (ReadsDevice ea .half signed16 rd s)
        ∧ Completes (exec (.lhu rd rs1 imm) s) (ReadsDevice ea .half id rd s))
    ∧ (io .byte →
        Completes (exec (.lb rd rs1 imm) s) (ReadsDevice ea .byte (fun v => (v.setWidth 8).signExtend 32) rd s)
        ∧ Completes (exec (.lbu rd rs1 imm) s) (ReadsDevice ea .byte id rd s))
    ∧ (split .word → SplitInput (exec (.lw rd rs1 imm) s) s ea .word id rd)
    ∧ (split .half →
        SplitInput (exec (.lh rd rs1 imm) s) s ea .half signed16 rd
        ∧ SplitInput (exec (.lhu rd rs1 imm) s) s ea .half id rd)

/-- A store to an I/O location is an output event of its address, width and value, and changes no memory (R52; D23; log
entry 10). A misaligned one that the environment supports is one byte output for each byte, in some order (R50, R51; log
entry 23). -/
def Obligations.StoresToDevices : Prop :=
  ∀ (rs2 rs1 : RegIdx) (imm : BitVec 12) (s : State),
    let ea := s.effectiveAddress rs1 imm
    let allowed (w : Width) := memmapAnswer s.params .write ea w = some .io ∧ ∀ b ∈ touched ea w, isText s.params b = false
    let io (w : Width) := ea.toNat % w.bytes = 0 ∧ allowed w
    let split (w : Width) := IsSplit s.params ea w ∧ allowed w ∧ s.NoTextWrites w.bytes
    (io .word → Completes (exec (.sw rs2 rs1 imm) s) (WritesDevice ea .word (s.reg rs2) s))
    ∧ (io .half → Completes (exec (.sh rs2 rs1 imm) s) (WritesDevice ea .half (s.reg rs2) s))
    ∧ (io .byte → Completes (exec (.sb rs2 rs1 imm) s) (WritesDevice ea .byte (s.reg rs2) s))
    ∧ (split .word → SplitOutput (exec (.sw rs2 rs1 imm) s) s ea .word (s.reg rs2))
    ∧ (split .half → SplitOutput (exec (.sh rs2 rs1 imm) s) s ea .half (s.reg rs2))

/-- A store that MEMMAP allows to a byte it also makes fetchable is refused, not guessed (R61; D15; log entry 12). -/
def Obligations.StoreToTextIsRefused : Prop :=
  ∀ (rs2 rs1 : RegIdx) (imm : BitVec 12) (s : State),
    let ea := s.effectiveAddress rs1 imm
    let text (w : Width) := AlignmentOk s.params ea w ∧ (memmapAnswer s.params .write ea w).isSome = true
      ∧ ∃ b ∈ touched ea w, isText s.params b = true
    (text .word → exec (.sw rs2 rs1 imm) s = .refused (.storeToText ea))
    ∧ (text .half → exec (.sh rs2 rs1 imm) s = .refused (.storeToText ea))
    ∧ (text .byte → exec (.sb rs2 rs1 imm) s = .refused (.storeToText ea))

/-- A load into x0 raises what the same load into another register raises, and does to devices and to pc what that load
does; only the value is discarded (R173). -/
def Obligations.LoadsIntoX0 : Prop :=
  ∀ (rd rs1 : RegIdx) (imm : BitVec 12) (s t : State) (load : RegIdx → RegIdx → BitVec 12 → Instr),
    load ∈ [Instr.lw, .lh, .lhu, .lb, .lbu] → exec (load rd rs1 imm) s = .next t →
    Completes (exec (load 0#5 rs1 imm) s) fun t' =>
      SameRegs s t' ∧ t'.pc = t.pc ∧ t'.trap = t.trap ∧ SameTrace t t' ∧ SameMemory t t'

/-- What was stored is what is loaded (R185): at an aligned address of ordinary memory, through the same base register
and displacement. -/
def Obligations.StoreThenLoad : Prop :=
  ∀ (rs2 rs1 rd : RegIdx) (imm : BitVec 12) (s : State), rd ≠ 0#5 →
    let ea := s.effectiveAddress rs1 imm
    let ok (w : Width) := ea.toNat % w.bytes = 0 ∧ OrdinaryMemory s.params ea w
    (ok .word → Completes (exec (.sw rs2 rs1 imm) s) fun t =>
      Completes (exec (.lw rd rs1 imm) t) fun u => u.reg rd = s.reg rs2)
    ∧ (ok .half → Completes (exec (.sh rs2 rs1 imm) s) fun t =>
      Completes (exec (.lhu rd rs1 imm) t) (fun u => u.reg rd = s.reg rs2 &&& 0xFFFF#32)
      ∧ Completes (exec (.lh rd rs1 imm) t) fun u => u.reg rd = ((s.reg rs2).extractLsb' 0 16).signExtend 32)
    ∧ (ok .byte → Completes (exec (.sb rs2 rs1 imm) s) fun t =>
      Completes (exec (.lbu rd rs1 imm) t) (fun u => u.reg rd = s.reg rs2 &&& 0xFF#32)
      ∧ Completes (exec (.lb rd rs1 imm) t) fun u => u.reg rd = ((s.reg rs2).extractLsb' 0 8).signExtend 32)

/-- After SW, each of the four bytes and the upper half load in the byte order of the run (R53, R185). The narrow loads
take their own base register and displacement, whatever they are. -/
def Obligations.StoreWordLoadNarrow : Prop :=
  ∀ (rs2 rs1 base rd : RegIdx) (imm disp : BitVec 12) (s : State) (k : Nat), rd ≠ 0#5 →
    let ea := s.effectiveAddress rs1 imm
    CanStore s.params ea .word → ea.toNat % 4 = 0 →
    Completes (exec (.sw rs2 rs1 imm) s) fun t =>
      (k < 4 → t.effectiveAddress base disp = ea + BitVec.ofNat 32 k → CanLoad s.params (ea + BitVec.ofNat 32 k) .byte →
        Completes (exec (.lbu rd base disp) t) fun u =>
          u.reg rd = (byteOfValue s.params.endian 4 k (s.reg rs2)).setWidth 32)
      ∧ (t.effectiveAddress base disp = ea + 2#32 → CanLoad s.params (ea + 2#32) .half →
        Completes (exec (.lhu rd base disp) t) fun u =>
          u.reg rd = match s.params.endian with
            | .little => s.reg rs2 >>> 16
            | .big => s.reg rs2 &&& 0xFFFF#32)

/-! ## FENCE, ECALL, EBREAK, HINTs -/

/-- FENCE: pc advances; no register and no byte of memory is read or written; rs1 is not read and rd not written; no field
raises anything (R190). -/
def Obligations.FenceAdvances : Prop :=
  ∀ (fm : BitVec 4) (pred succ : AccessSet) (rs1 rd : RegIdx) (s : State),
    encode (.fence fm pred succ rs1 rd) = fm
      ++ (BitVec.ofBool pred.i ++ BitVec.ofBool pred.o ++ BitVec.ofBool pred.r ++ BitVec.ofBool pred.w)
      ++ (BitVec.ofBool succ.i ++ BitVec.ofBool succ.o ++ BitVec.ofBool succ.r ++ BitVec.ofBool succ.w)
      ++ rs1 ++ 0b000#3 ++ rd ++ 0b0001111#7
    ∧ Completes (exec (.fence fm pred succ rs1 rd) s) (AdvancesOnly s)

/-- FENCE.TSO and PAUSE are the words 0x8330000F and 0x0100000F, meet the FENCE row, and advance pc and nothing else
(R192, R196). -/
def Obligations.NamedFencesAdvance : Prop :=
  ∀ s : State,
    encode .fenceTso = 0x8330000F#32 ∧ rowFence.hits 0x8330000F#32 = true
    ∧ Completes (exec .fenceTso s) (AdvancesOnly s)
    ∧ encode .pause = 0x0100000F#32 ∧ rowFence.hits 0x0100000F#32 = true
    ∧ Completes (exec .pause s) (AdvancesOnly s)

/-- Each FENCE adds one event with its own fields to the trace, in program order (R195; D21), and the named encodings add
what the FENCE they are would add. -/
def Obligations.FencesAreRecorded : Prop :=
  ∀ (fm : BitVec 4) (pred succ : AccessSet) (rs1 rd : RegIdx) (s : State),
    Completes (exec (.fence fm pred succ rs1 rd) s) (fun t => t.events = s.events ++ [.fence fm pred succ])
    ∧ exec .fenceTso s = exec (.fence 0b1000#4 .rw .rw 0#5 0#5) s
    ∧ exec .pause s = exec (.fence 0b0000#4 .write .none 0#5 0#5) s

/-- ECALL and EBREAK raise EnvironmentCall and Breakpoint, always, with no information; epc is their own address and no
register, no byte of memory and not pc changes (R200, R201). -/
def Obligations.EcallEbreakTrap : Prop :=
  ∀ s : State,
    encode .ecall = 0x00000073#32 ∧ Traps (exec .ecall s) s .environmentCall none
    ∧ encode .ebreak = 0x00100073#32 ∧ Traps (exec .ebreak s) s .breakpoint none

/-- First clause: the HINTs are the computational instructions with rd = x0 but NOP, and the FENCEs with fm = 0 and an empty
set that have rd or rs1 = x0. That is Table 5 (R211) as 90_conflicts.md C5 settles it, narrower than R210's own sentence.
Second clause: every one, and every FENCE with fm = 0 and an empty set that the table does not list, advances pc and does
nothing else (R210). -/
def Obligations.HintsOnlyAdvance : Prop :=
  ∀ (i : Instr) (s : State),
    ((hintOf i).isSome = true ↔
      (destination i = some 0#5 ∧ isControl i = false ∧ dataAccess i = none ∧ i ≠ pseudoNop) ∨ i = .pause
      ∨ ∃ pred succ rs1 rd, i = .fence 0#4 pred succ rs1 rd ∧ (pred = .none ∨ succ = .none) ∧ (rd = 0#5 ∨ rs1 = 0#5))
    ∧ ((hintOf i).isSome = true ∨ (∃ pred succ rs1 rd, i = .fence 0#4 pred succ rs1 rd ∧ (pred = .none ∨ succ = .none)) →
        Completes (exec i s) (AdvancesOnly s))
end

