-- ==== Sys2Proof/Laws/State.lean ====
section
/-! SUPPORT. The small lemmas of the state's updates: one per field per update, and what the accessors read after each. No
later proof unfolds a record update. -/

namespace Sys2Proof.Machine

variable (s : State)

/-! ## setPc -/

@[simp] theorem State.setPc_regs (v : Word) : (s.setPc v).regs = s.regs := rfl
@[simp] theorem State.setPc_pc (v : Word) : (s.setPc v).pc = v := rfl
@[simp] theorem State.setPc_mem (v : Word) : (s.setPc v).mem = s.mem := rfl
@[simp] theorem State.setPc_params (v : Word) : (s.setPc v).params = s.params := rfl
@[simp] theorem State.setPc_trap (v : Word) : (s.setPc v).trap = s.trap := rfl
@[simp] theorem State.setPc_replies (v : Word) : (s.setPc v).replies = s.replies := rfl
@[simp] theorem State.setPc_foreign (v : Word) : (s.setPc v).foreign = s.foreign := rfl
@[simp] theorem State.setPc_draws (v : Word) : (s.setPc v).draws = s.draws := rfl
@[simp] theorem State.setPc_events (v : Word) : (s.setPc v).events = s.events := rfl
@[simp] theorem State.setPc_splits (v : Word) : (s.setPc v).splits = s.splits := rfl

/-! ## takeTrap -/

@[simp] theorem State.takeTrap_regs (x : Exn) : (s.takeTrap x).regs = s.regs := rfl
@[simp] theorem State.takeTrap_pc (x : Exn) : (s.takeTrap x).pc = s.pc := rfl
@[simp] theorem State.takeTrap_mem (x : Exn) : (s.takeTrap x).mem = s.mem := rfl
@[simp] theorem State.takeTrap_params (x : Exn) : (s.takeTrap x).params = s.params := rfl
@[simp] theorem State.takeTrap_trap (x : Exn) : (s.takeTrap x).trap = some ⟨x.cause, s.pc, x.info⟩ := rfl
@[simp] theorem State.takeTrap_replies (x : Exn) : (s.takeTrap x).replies = s.replies := rfl
@[simp] theorem State.takeTrap_foreign (x : Exn) : (s.takeTrap x).foreign = s.foreign := rfl
@[simp] theorem State.takeTrap_draws (x : Exn) : (s.takeTrap x).draws = s.draws := rfl
@[simp] theorem State.takeTrap_events (x : Exn) : (s.takeTrap x).events = s.events := rfl
@[simp] theorem State.takeTrap_splits (x : Exn) : (s.takeTrap x).splits = s.splits := rfl

/-! ## record -/

@[simp] theorem State.record_regs (e : Event) : (s.record e).regs = s.regs := rfl
@[simp] theorem State.record_pc (e : Event) : (s.record e).pc = s.pc := rfl
@[simp] theorem State.record_mem (e : Event) : (s.record e).mem = s.mem := rfl
@[simp] theorem State.record_params (e : Event) : (s.record e).params = s.params := rfl
@[simp] theorem State.record_trap (e : Event) : (s.record e).trap = s.trap := rfl
@[simp] theorem State.record_replies (e : Event) : (s.record e).replies = s.replies := rfl
@[simp] theorem State.record_foreign (e : Event) : (s.record e).foreign = s.foreign := rfl
@[simp] theorem State.record_draws (e : Event) : (s.record e).draws = s.draws := rfl
@[simp] theorem State.record_events (e : Event) : (s.record e).events = s.events ++ [e] := rfl
@[simp] theorem State.record_splits (e : Event) : (s.record e).splits = s.splits := rfl

/-! ## advance -/

@[simp] theorem State.advance_regs : (s.advance).regs = s.regs := rfl
@[simp] theorem State.advance_pc : (s.advance).pc = s.nextPc := rfl
@[simp] theorem State.advance_mem : (s.advance).mem = s.mem := rfl
@[simp] theorem State.advance_params : (s.advance).params = s.params := rfl
@[simp] theorem State.advance_trap : (s.advance).trap = s.trap := rfl
@[simp] theorem State.advance_replies : (s.advance).replies = s.replies := rfl
@[simp] theorem State.advance_foreign : (s.advance).foreign = s.foreign := rfl
@[simp] theorem State.advance_draws : (s.advance).draws = s.draws := rfl
@[simp] theorem State.advance_events : (s.advance).events = s.events := rfl
@[simp] theorem State.advance_splits : (s.advance).splits = s.splits := rfl

/-! ## writeMemory -/

@[simp] theorem State.writeMemory_regs (a : Word) (w : Width) (v : Word) : (s.writeMemory a w v).regs = s.regs := rfl
@[simp] theorem State.writeMemory_pc (a : Word) (w : Width) (v : Word) : (s.writeMemory a w v).pc = s.pc := rfl
@[simp] theorem State.writeMemory_mem (a : Word) (w : Width) (v : Word) : (s.writeMemory a w v).mem = Memory.putAll s.mem a (bytesOf s.params.endian w v) := rfl
@[simp] theorem State.writeMemory_params (a : Word) (w : Width) (v : Word) : (s.writeMemory a w v).params = s.params := rfl
@[simp] theorem State.writeMemory_trap (a : Word) (w : Width) (v : Word) : (s.writeMemory a w v).trap = s.trap := rfl
@[simp] theorem State.writeMemory_replies (a : Word) (w : Width) (v : Word) : (s.writeMemory a w v).replies = s.replies := rfl
@[simp] theorem State.writeMemory_foreign (a : Word) (w : Width) (v : Word) : (s.writeMemory a w v).foreign = s.foreign := rfl
@[simp] theorem State.writeMemory_draws (a : Word) (w : Width) (v : Word) : (s.writeMemory a w v).draws = s.draws := rfl
@[simp] theorem State.writeMemory_events (a : Word) (w : Width) (v : Word) : (s.writeMemory a w v).events = s.events := rfl
@[simp] theorem State.writeMemory_splits (a : Word) (w : Width) (v : Word) : (s.writeMemory a w v).splits = s.splits := rfl

/-! ## readDevice -/

@[simp] theorem State.readDevice_regs (a : Word) (w : Width) : (s.readDevice a w).2.regs = s.regs := rfl
@[simp] theorem State.readDevice_pc (a : Word) (w : Width) : (s.readDevice a w).2.pc = s.pc := rfl
@[simp] theorem State.readDevice_mem (a : Word) (w : Width) : (s.readDevice a w).2.mem = s.mem := rfl
@[simp] theorem State.readDevice_params (a : Word) (w : Width) : (s.readDevice a w).2.params = s.params := rfl
@[simp] theorem State.readDevice_trap (a : Word) (w : Width) : (s.readDevice a w).2.trap = s.trap := rfl
@[simp] theorem State.readDevice_replies (a : Word) (w : Width) : (s.readDevice a w).2.replies = s.replies := rfl
@[simp] theorem State.readDevice_foreign (a : Word) (w : Width) : (s.readDevice a w).2.foreign = s.foreign := rfl
@[simp] theorem State.readDevice_draws (a : Word) (w : Width) : (s.readDevice a w).2.draws = s.draws + 1 := rfl
@[simp] theorem State.readDevice_events (a : Word) (w : Width) : (s.readDevice a w).2.events = s.events ++ [.input a w (s.readDevice a w).1] := rfl
@[simp] theorem State.readDevice_splits (a : Word) (w : Width) : (s.readDevice a w).2.splits = s.splits := rfl

/-! ## writeDevice -/

@[simp] theorem State.writeDevice_regs (a : Word) (w : Width) (v : Word) : (s.writeDevice a w v).regs = s.regs := rfl
@[simp] theorem State.writeDevice_pc (a : Word) (w : Width) (v : Word) : (s.writeDevice a w v).pc = s.pc := rfl
@[simp] theorem State.writeDevice_mem (a : Word) (w : Width) (v : Word) : (s.writeDevice a w v).mem = s.mem := rfl
@[simp] theorem State.writeDevice_params (a : Word) (w : Width) (v : Word) : (s.writeDevice a w v).params = s.params := rfl
@[simp] theorem State.writeDevice_trap (a : Word) (w : Width) (v : Word) : (s.writeDevice a w v).trap = s.trap := rfl
@[simp] theorem State.writeDevice_replies (a : Word) (w : Width) (v : Word) : (s.writeDevice a w v).replies = s.replies := rfl
@[simp] theorem State.writeDevice_foreign (a : Word) (w : Width) (v : Word) : (s.writeDevice a w v).foreign = s.foreign := rfl
@[simp] theorem State.writeDevice_draws (a : Word) (w : Width) (v : Word) : (s.writeDevice a w v).draws = s.draws := rfl
@[simp] theorem State.writeDevice_splits (a : Word) (w : Width) (v : Word) : (s.writeDevice a w v).splits = s.splits := rfl
@[simp] theorem State.writeDevice_events (a : Word) (w : Width) (v : Word) : (s.writeDevice a w v).events = s.events ++ [.output a w (lowBits w v)] := rfl

/-! ## beginSplit -/

@[simp] theorem State.beginSplit_regs : s.beginSplit.regs = s.regs := rfl
@[simp] theorem State.beginSplit_pc : s.beginSplit.pc = s.pc := rfl
@[simp] theorem State.beginSplit_mem : s.beginSplit.mem = s.mem := rfl
@[simp] theorem State.beginSplit_params : s.beginSplit.params = s.params := rfl
@[simp] theorem State.beginSplit_trap : s.beginSplit.trap = s.trap := rfl
@[simp] theorem State.beginSplit_replies : s.beginSplit.replies = s.replies := rfl
@[simp] theorem State.beginSplit_foreign : s.beginSplit.foreign = s.foreign := rfl
@[simp] theorem State.beginSplit_draws : s.beginSplit.draws = s.draws := rfl
@[simp] theorem State.beginSplit_splits : s.beginSplit.splits = s.splits + 1 := rfl
@[simp] theorem State.beginSplit_events : s.beginSplit.events = s.events := rfl

/-! ## setReg -/

@[simp] theorem State.setReg_pc (r : RegIdx) (v : Word) : (s.setReg r v).pc = s.pc := by unfold State.setReg; split <;> rfl
@[simp] theorem State.setReg_mem (r : RegIdx) (v : Word) : (s.setReg r v).mem = s.mem := by unfold State.setReg; split <;> rfl
@[simp] theorem State.setReg_params (r : RegIdx) (v : Word) : (s.setReg r v).params = s.params := by unfold State.setReg; split <;> rfl
@[simp] theorem State.setReg_trap (r : RegIdx) (v : Word) : (s.setReg r v).trap = s.trap := by unfold State.setReg; split <;> rfl
@[simp] theorem State.setReg_replies (r : RegIdx) (v : Word) : (s.setReg r v).replies = s.replies := by unfold State.setReg; split <;> rfl
@[simp] theorem State.setReg_foreign (r : RegIdx) (v : Word) : (s.setReg r v).foreign = s.foreign := by unfold State.setReg; split <;> rfl
@[simp] theorem State.setReg_draws (r : RegIdx) (v : Word) : (s.setReg r v).draws = s.draws := by unfold State.setReg; split <;> rfl
@[simp] theorem State.setReg_events (r : RegIdx) (v : Word) : (s.setReg r v).events = s.events := by unfold State.setReg; split <;> rfl
@[simp] theorem State.setReg_splits (r : RegIdx) (v : Word) : (s.setReg r v).splits = s.splits := by unfold State.setReg; split <;> rfl

@[simp] theorem State.setReg_x0 (v : Word) : s.setReg 0#5 v = s := rfl

/-! ## setRegs -/

@[simp] theorem State.setRegs_pc (l : List (RegIdx × Word)) : (s.setRegs l).pc = s.pc := by
  induction l generalizing s with
  | nil => rfl
  | cons p rest ih => simp [State.setRegs, ih]
@[simp] theorem State.setRegs_mem (l : List (RegIdx × Word)) : (s.setRegs l).mem = s.mem := by
  induction l generalizing s with
  | nil => rfl
  | cons p rest ih => simp [State.setRegs, ih]
@[simp] theorem State.setRegs_params (l : List (RegIdx × Word)) : (s.setRegs l).params = s.params := by
  induction l generalizing s with
  | nil => rfl
  | cons p rest ih => simp [State.setRegs, ih]
@[simp] theorem State.setRegs_trap (l : List (RegIdx × Word)) : (s.setRegs l).trap = s.trap := by
  induction l generalizing s with
  | nil => rfl
  | cons p rest ih => simp [State.setRegs, ih]
@[simp] theorem State.setRegs_replies (l : List (RegIdx × Word)) : (s.setRegs l).replies = s.replies := by
  induction l generalizing s with
  | nil => rfl
  | cons p rest ih => simp [State.setRegs, ih]
@[simp] theorem State.setRegs_foreign (l : List (RegIdx × Word)) : (s.setRegs l).foreign = s.foreign := by
  induction l generalizing s with
  | nil => rfl
  | cons p rest ih => simp [State.setRegs, ih]
@[simp] theorem State.setRegs_draws (l : List (RegIdx × Word)) : (s.setRegs l).draws = s.draws := by
  induction l generalizing s with
  | nil => rfl
  | cons p rest ih => simp [State.setRegs, ih]
@[simp] theorem State.setRegs_events (l : List (RegIdx × Word)) : (s.setRegs l).events = s.events := by
  induction l generalizing s with
  | nil => rfl
  | cons p rest ih => simp [State.setRegs, ih]

@[simp] theorem State.setRegs_splits (l : List (RegIdx × Word)) : (s.setRegs l).splits = s.splits := by
  induction l generalizing s with
  | nil => rfl
  | cons p rest ih => simp [State.setRegs, ih]

/-! ## The accessors -/

/-- x0 reads as 0 (R21). -/
@[simp] theorem State.reg_x0 : s.reg 0#5 = 0#32 := rfl

theorem State.reg_congr {s t : State} (h : t.regs = s.regs) (r : RegIdx) : t.reg r = s.reg r := by
  unfold State.reg; rw [h]

theorem State.byteAt_congr {s t : State} (h : t.mem = s.mem) (a : Word) : t.byteAt a = s.byteAt a := by
  unfold State.byteAt; rw [h]

/-- A register written reads back, but x0 (R21). -/
theorem State.reg_setReg_same (r : RegIdx) (v : Word) : (s.setReg r v).reg r = if r = 0#5 then 0#32 else v := by
  by_cases h : r = 0#5 <;> simp [State.reg, State.setReg, h]

theorem regSlot_inj {r q : RegIdx} (hr : r ≠ 0#5) (hq : q ≠ 0#5) (h : q ≠ r) : r.toNat - 1 ≠ q.toNat - 1 := by
  intro e
  have h1 : r.toNat ≠ 0 := fun e => hr (BitVec.eq_of_toNat_eq (by simpa using e))
  have h2 : q.toNat ≠ 0 := fun e => hq (BitVec.eq_of_toNat_eq (by simpa using e))
  exact h (BitVec.eq_of_toNat_eq (by omega))

/-- Writing one register leaves the others. -/
theorem State.reg_setReg_ne {r q : RegIdx} (v : Word) (h : q ≠ r) : (s.setReg r v).reg q = s.reg q := by
  unfold State.setReg
  split
  · rfl
  · rename_i hr
    by_cases hq : q = 0#5
    · simp [State.reg, hq]
    · simp only [State.reg, hq, if_false]
      exact Vector.getElem_set_ne _ _ (regSlot_inj hr hq h)

@[simp] theorem State.setPc_reg (v : Word) (r : RegIdx) : (s.setPc v).reg r = s.reg r := rfl
@[simp] theorem State.setPc_byteAt (v : Word) (c : Word) : (s.setPc v).byteAt c = s.byteAt c := rfl
@[simp] theorem State.takeTrap_reg (x : Exn) (r : RegIdx) : (s.takeTrap x).reg r = s.reg r := rfl
@[simp] theorem State.takeTrap_byteAt (x : Exn) (c : Word) : (s.takeTrap x).byteAt c = s.byteAt c := rfl
@[simp] theorem State.record_reg (e : Event) (r : RegIdx) : (s.record e).reg r = s.reg r := rfl
@[simp] theorem State.record_byteAt (e : Event) (c : Word) : (s.record e).byteAt c = s.byteAt c := rfl
@[simp] theorem State.advance_reg (r : RegIdx) : (s.advance).reg r = s.reg r := rfl
@[simp] theorem State.advance_byteAt (c : Word) : (s.advance).byteAt c = s.byteAt c := rfl
@[simp] theorem State.writeMemory_reg (a : Word) (w : Width) (v : Word) (r : RegIdx) : (s.writeMemory a w v).reg r = s.reg r := rfl
@[simp] theorem State.readDevice_reg (a : Word) (w : Width) (r : RegIdx) : (s.readDevice a w).2.reg r = s.reg r := rfl
@[simp] theorem State.readDevice_byteAt (a : Word) (w : Width) (c : Word) :
    (s.readDevice a w).2.byteAt c = s.byteAt c := rfl
@[simp] theorem State.setReg_byteAt (r : RegIdx) (v c : Word) : (s.setReg r v).byteAt c = s.byteAt c :=
  State.byteAt_congr (State.setReg_mem s r v) c
@[simp] theorem State.setReg_nextPc (r : RegIdx) (v : Word) : (s.setReg r v).nextPc = s.nextPc := by
  simp [State.nextPc]
@[simp] theorem State.record_nextPc (e : Event) : (s.record e).nextPc = s.nextPc := rfl
@[simp] theorem State.readDevice_nextPc (a : Word) (w : Width) : (s.readDevice a w).2.nextPc = s.nextPc := rfl
@[simp] theorem State.writeMemory_nextPc (a : Word) (w : Width) (v : Word) : (s.writeMemory a w v).nextPc = s.nextPc :=
  rfl
@[simp] theorem State.writeDevice_reg (a : Word) (w : Width) (v : Word) (r : RegIdx) :
    (s.writeDevice a w v).reg r = s.reg r := rfl
@[simp] theorem State.writeDevice_byteAt (a : Word) (w : Width) (v c : Word) :
    (s.writeDevice a w v).byteAt c = s.byteAt c := rfl
@[simp] theorem State.writeDevice_nextPc (a : Word) (w : Width) (v : Word) : (s.writeDevice a w v).nextPc = s.nextPc :=
  rfl
@[simp] theorem State.beginSplit_reg (r : RegIdx) : s.beginSplit.reg r = s.reg r := rfl
@[simp] theorem State.beginSplit_byteAt (c : Word) : s.beginSplit.byteAt c = s.byteAt c := rfl
@[simp] theorem State.beginSplit_nextPc : s.beginSplit.nextPc = s.nextPc := rfl
theorem State.nextPc_eq : s.nextPc = s.pc + 4#32 := rfl

end Sys2Proof.Machine
end

