-- ==== Sys2Proof/Laws/Memory.lean ====
section
/-! SUPPORT. The laws of memory: a byte reads back as written, a write leaves every other byte alone, and every write
keeps the canonical form. -/

namespace Sys2Proof.Machine

/-! ## One byte -/

@[simp] theorem Memory.byte?_put_same (m : Memory) (a : Nat) (v : Byte) :
    Memory.byte? (Memory.put m a v) a = some v := by
  induction m with
  | nil => simp [Memory.put, Memory.byte?]
  | cons cell rest ih =>
    obtain ⟨k, b⟩ := cell
    rcases Nat.lt_trichotomy a k with h | h | h
    · simp [Memory.put, Memory.byte?, h]
    · simp [Memory.put, Memory.byte?, h]
    · simp [Memory.put, Memory.byte?, ih, show ¬ a < k by omega, show a ≠ k by omega, show k ≠ a by omega]

theorem Memory.byte?_put_ne (m : Memory) {a c : Nat} (v : Byte) (h : c ≠ a) :
    Memory.byte? (Memory.put m a v) c = Memory.byte? m c := by
  induction m with
  | nil => simp [Memory.put, Memory.byte?, Ne.symm h]
  | cons cell rest ih =>
    obtain ⟨k, b⟩ := cell
    rcases Nat.lt_trichotomy a k with hk | hk | hk
    · simp [Memory.put, Memory.byte?, hk, Ne.symm h]
    · subst hk
      simp [Memory.put, Memory.byte?, Ne.symm h]
    · simp [Memory.put, Memory.byte?, ih, show ¬ a < k by omega, show a ≠ k by omega]

/-! ## The canonical form -/

theorem Memory.risesAbove_mono {lo : Option Nat} {a : Nat} {m : Memory} (hlo : lo.all (· < a) = true)
    (h : Memory.risesAbove (some a) m = true) : Memory.risesAbove lo m = true := by
  cases m with
  | nil => cases lo <;> rfl
  | cons cell rest =>
    obtain ⟨k, b⟩ := cell
    simp only [Memory.risesAbove, Option.all_some, Bool.and_eq_true, decide_eq_true_eq] at h ⊢
    refine ⟨⟨?_, h.1.2⟩, h.2⟩
    cases lo with
    | none => rfl
    | some l => simp only [Option.all_some, decide_eq_true_eq] at hlo ⊢; omega

theorem Memory.risesAbove_put {lo : Option Nat} {m : Memory} {a : Nat} (v : Byte) (hlo : lo.all (· < a) = true)
    (ha : a < 2 ^ 32) (h : Memory.risesAbove lo m = true) : Memory.risesAbove lo (Memory.put m a v) = true := by
  norm_num at ha
  induction m generalizing lo with
  | nil => simp [Memory.put, Memory.risesAbove, hlo, ha]
  | cons cell rest ih =>
    obtain ⟨k, b⟩ := cell
    simp only [Memory.risesAbove, Bool.and_eq_true, decide_eq_true_eq] at h
    have hk32 : k < 4294967296 := h.1.2
    rcases Nat.lt_trichotomy a k with hk | hk | hk
    · simp [Memory.put, Memory.risesAbove, hk, hlo, ha, hk32, h.2]
    · subst hk
      simp [Memory.put, Memory.risesAbove, hlo, ha, h.2]
    · simp only [Memory.put, show ¬ a < k by omega, show a ≠ k by omega, if_false, Memory.risesAbove,
        Bool.and_eq_true, decide_eq_true_eq]
      exact ⟨h.1, ih (by simpa using hk) h.2⟩

/-- A write of one byte keeps the canonical form. -/
theorem Memory.wf_put {m : Memory} {a : Nat} (v : Byte) (ha : a < 2 ^ 32) (h : Memory.wf m = true) :
    Memory.wf (Memory.put m a v) = true :=
  Memory.risesAbove_put v rfl ha h

theorem Memory.wf_putAll {m : Memory} (bs : List Byte) (a : Word) (h : Memory.wf m = true) :
    Memory.wf (Memory.putAll m a bs) = true := by
  induction bs generalizing m a with
  | nil => exact h
  | cons b rest ih => exact ih _ (Memory.wf_put b a.isLt h)

theorem Memory.wf_putEach {m : Memory} (ws : List (Word × Byte)) (h : Memory.wf m = true) :
    Memory.wf (Memory.putEach m ws) = true := by
  induction ws generalizing m with
  | nil => exact h
  | cons w rest ih => exact ih (Memory.wf_put w.2 w.1.isLt h)

/-! ## Runs of bytes -/

theorem byteAddress_zero (a : Word) : byteAddress a 0 = a := by simp [byteAddress]

theorem byteAddress_succ (a : Word) (k : Nat) : byteAddress a (k + 1) = byteAddress (a + 1#32) k := by
  simp only [byteAddress, BitVec.ofNat_add]
  ac_rfl

theorem byteAddress_inj {a : Word} {i j : Nat} (hi : i < 2 ^ 32) (hj : j < 2 ^ 32)
    (h : byteAddress a i = byteAddress a j) : i = j := by
  have := congrArg BitVec.toNat ((BitVec.add_right_inj a).mp h)
  rwa [BitVec.toNat_ofNat, BitVec.toNat_ofNat, Nat.mod_eq_of_lt hi, Nat.mod_eq_of_lt hj] at this

/-- Writing consecutive bytes leaves every address outside them alone. -/
theorem Memory.byte?_putAll_outside (m : Memory) (a : Word) (bs : List Byte) (c : Word)
    (h : ∀ k < bs.length, c ≠ byteAddress a k) :
    Memory.byte? (Memory.putAll m a bs) c.toNat = Memory.byte? m c.toNat := by
  induction bs generalizing m a with
  | nil => rfl
  | cons b rest ih =>
    have h0 : c ≠ a := by simpa [byteAddress_zero] using h 0 (by simp)
    rw [Memory.putAll, ih, Memory.byte?_put_ne]
    · exact fun e => h0 (BitVec.eq_of_toNat_eq e)
    · intro k hk
      rw [← byteAddress_succ]
      exact h (k + 1) (by simpa using hk)

/-- Writing consecutive bytes puts byte `k` at the `k`-th address. -/
theorem Memory.byte?_putAll_inside (m : Memory) (a : Word) (bs : List Byte) (hlen : bs.length ≤ 2 ^ 32) (k : Nat)
    (hk : k < bs.length) : Memory.byte? (Memory.putAll m a bs) (byteAddress a k).toNat = some bs[k] := by
  induction bs generalizing m a k with
  | nil => simp at hk
  | cons b rest ih =>
    simp only [List.length_cons] at hlen hk
    cases k with
    | zero =>
      rw [Memory.putAll, byteAddress_zero, Memory.byte?_putAll_outside, Memory.byte?_put_same]
      · rfl
      · intro j hj e
        rw [← byteAddress_succ, ← byteAddress_zero a] at e
        rw [byteAddress_zero] at e
        have := byteAddress_inj (i := 0) (j := j + 1) (a := a) (by decide) (by omega) (by rw [byteAddress_zero]; exact e)
        omega
    | succ j =>
      rw [Memory.putAll, byteAddress_succ, ih _ _ (by omega) j (by omega)]
      rfl

/-- Writing bytes at addresses of their own leaves every other address alone. -/
theorem Memory.byte?_putEach_outside (m : Memory) (ws : List (Word × Byte)) (c : Word)
    (h : ∀ w ∈ ws, w.1 ≠ c) : Memory.byte? (Memory.putEach m ws) c.toNat = Memory.byte? m c.toNat := by
  induction ws generalizing m with
  | nil => rfl
  | cons w rest ih =>
    rw [Memory.putEach, ih _ (fun x hx => h x (List.mem_cons_of_mem _ hx)), Memory.byte?_put_ne]
    exact fun e => h w (List.mem_cons_self ..) (BitVec.eq_of_toNat_eq e.symm)

/-! ## Widths -/

theorem width_bytes_le (w : Width) : w.bytes ≤ 4 := by cases w <;> decide

theorem width_bytes_pos (w : Width) : 0 < w.bytes := by cases w <;> decide

@[simp] theorem length_littleBytes (v : Word) (n : Nat) : (littleBytes v n).length = n := by simp [littleBytes]

@[simp] theorem length_bytesOf (e : Endian) (w : Width) (v : Word) : (bytesOf e w v).length = w.bytes := by
  cases e <;> simp [bytesOf]

theorem mem_touched {a b : Word} {w : Width} : b ∈ touched a w ↔ ∃ k < w.bytes, byteAddress a k = b := by
  simp [touched]

/-! ## Stores to ordinary memory -/

/-- A store changes no byte outside those it touches (R185). -/
theorem State.writeMemory_byteAt_outside (s : State) {a b : Word} {w : Width} (v : Word) (h : b ∉ touched a w) :
    (s.writeMemory a w v).byteAt b = s.byteAt b := by
  unfold State.byteAt
  rw [State.writeMemory_mem, Memory.byte?_putAll_outside]
  intro k hk e
  rw [length_bytesOf] at hk
  exact h (mem_touched.mpr ⟨k, hk, e.symm⟩)

/-- After a store, its `k`-th byte address holds the `k`-th byte of the value in the data byte order (R42, R47). -/
theorem State.writeMemory_byteAt_inside (s : State) (a : Word) (w : Width) (v : Word) (k : Nat) (hk : k < w.bytes) :
    (s.writeMemory a w v).byteAt (byteAddress a k)
      = (bytesOf s.params.endian w v)[k]'(by rw [length_bytesOf]; exact hk) := by
  have h4 := width_bytes_le w
  unfold State.byteAt
  rw [State.writeMemory_mem, Memory.byte?_putAll_inside _ _ _ (by rw [length_bytesOf]; omega) k
    (by rw [length_bytesOf]; exact hk)]
  rfl

/-- Reading the bytes a store has just written gives the bytes of the value. -/
theorem State.touched_map_byteAt_writeMemory (s : State) (a : Word) (w : Width) (v : Word) :
    (touched a w).map (s.writeMemory a w v).byteAt = bytesOf s.params.endian w v := by
  apply List.ext_getElem
  · simp [touched]
  · intro k h1 h2
    rw [List.getElem_map]
    simp only [touched, List.getElem_map, List.getElem_range]
    exact State.writeMemory_byteAt_inside s a w v k (by simpa using h2)

/-! ## Byte order -/

theorem littleValue_littleBytes (w : Width) (v : Word) : littleValue (littleBytes v w.bytes) = lowBits w v := by
  cases w <;> ext i hi <;>
    simp [littleBytes, Width.bytes, List.range_succ, littleValue, lowBits] <;> grind

/-- The bytes of a value, put together again in the same order, are its low bits (R42). -/
theorem valueOf_bytesOf (e : Endian) (w : Width) (v : Word) : valueOf e (bytesOf e w v) = lowBits w v := by
  cases e <;> simp [valueOf, bytesOf, littleValue_littleBytes]

/-- A read after a write to the same place gives the value written (R185). -/
theorem State.readMemory_writeMemory (s : State) (a : Word) (w : Width) (v : Word) :
    (s.writeMemory a w v).readMemory a w = lowBits w v := by
  unfold State.readMemory
  rw [State.touched_map_byteAt_writeMemory, State.writeMemory_params, valueOf_bytesOf]

end Sys2Proof.Machine
end

