-- ==== Sys2Proof/Laws/Ops.lean ====
section
/-! SUPPORT. For each shared operation, what it can do, said once: its equation in each case the spec tells apart, and an
inversion lemma. -/

namespace Sys2Proof.Machine

/-! ## Alignment and the map -/

theorem isAligned_word (a : Word) : isAligned a .word = true ↔ a.toNat % 4 = 0 := by
  simp [isAligned, Width.bytes]

theorem isAligned_half (a : Word) : isAligned a .half = true ↔ a.toNat % 2 = 0 := by
  simp [isAligned, Width.bytes]

/-- "Byte accesses are always naturally aligned" (R45). -/
@[simp] theorem isAligned_byte (a : Word) : isAligned a .byte = true := by
  simp [isAligned, Width.bytes, Nat.mod_one]

theorem misalignedCause_aligned {p : Params} {a : Word} {w : Width} {m x : Cause} (h : isAligned a w = true) :
    misalignedCause p a w m x = none := by simp [misalignedCause, h]

theorem misalignedCause_support {p : Params} {a : Word} {w : Width} {m x : Cause} (h : p.misaligned = .support) :
    misalignedCause p a w m x = none := by simp [misalignedCause, h]

theorem misalignedCause_trap {p : Params} {a : Word} {w : Width} {m x : Cause} (h : isAligned a w = false)
    (hp : p.misaligned = .trap) : misalignedCause p a w m x = some m := by simp [misalignedCause, h, hp]

theorem misalignedCause_fault {p : Params} {a : Word} {w : Width} {m x : Cause} (h : isAligned a w = false)
    (hp : p.misaligned = .fault) : misalignedCause p a w m x = some x := by simp [misalignedCause, h, hp]

/-- What a misaligned access raises is one of the two exceptions, and only where the access is misaligned (R50). -/
theorem misalignedCause_some {p : Params} {a : Word} {w : Width} {m x c : Cause}
    (h : misalignedCause p a w m x = some c) :
    isAligned a w = false ∧ ((c = m ∧ p.misaligned = .trap) ∨ (c = x ∧ p.misaligned = .fault)) := by
  unfold misalignedCause at h
  split at h
  · cases h
  · rename_i ha
    refine ⟨by simpa using ha, ?_⟩
    split at h
    · rename_i hp; exact .inl ⟨(Option.some.inj h).symm, hp⟩
    · rename_i hp; exact .inr ⟨(Option.some.inj h).symm, hp⟩
    · cases h

/-! ## The access itself -/

theorem State.performRead_memory {s : State} {a : Word} {w : Width} (h : isAligned a w = true) :
    s.performRead .memory a w = .done (s.readMemory a w, s) := by simp [State.performRead, h]

theorem State.performRead_io {s : State} {a : Word} {w : Width} (h : isAligned a w = true) :
    s.performRead .io a w = .done (s.readDevice a w) := by simp [State.performRead, h]

theorem State.performRead_split {s : State} {cls : RegionClass} {a : Word} {w : Width} (h : isAligned a w = false) :
    s.performRead cls a w = s.readSplit cls a w := by simp [State.performRead, h]

theorem State.performWrite_memory {s : State} {a v : Word} {w : Width} (h : isAligned a w = true) :
    s.performWrite .memory a w v = .done (s.writeMemory a w v) := by simp [State.performWrite, h]

theorem State.performWrite_io {s : State} {a v : Word} {w : Width} (h : isAligned a w = true) :
    s.performWrite .io a w v = .done (s.writeDevice a w v) := by simp [State.performWrite, h]

theorem State.performWrite_split {s : State} {cls : RegionClass} {a v : Word} {w : Width} (h : isAligned a w = false) :
    s.performWrite cls a w v = s.writeSplit cls a w v := by simp [State.performWrite, h]

/-! ## MemRead (R46) -/

theorem State.memRead_misaligned {s : State} {a : Word} {w : Width} {c : Cause}
    (h : misalignedCause s.params a w .loadAddressMisaligned .loadAccessFault = some c) :
    s.memRead a w = .raised ⟨c, some a⟩ := by simp [State.memRead, h]

theorem State.memRead_denied {s : State} {a : Word} {w : Width}
    (h : misalignedCause s.params a w .loadAddressMisaligned .loadAccessFault = none)
    (hm : memmapAnswer s.params .read a w = none) : s.memRead a w = .raised ⟨.loadAccessFault, some a⟩ := by
  simp [State.memRead, h, hm]

theorem State.memRead_allowed {s : State} {a : Word} {w : Width} {cls : RegionClass}
    (h : misalignedCause s.params a w .loadAddressMisaligned .loadAccessFault = none)
    (hm : memmapAnswer s.params .read a w = some cls) : s.memRead a w = s.performRead cls a w := by
  simp [State.memRead, h, hm]

/-- All that a MemRead can answer. -/
theorem State.memRead_cases (s : State) (a : Word) (w : Width) :
    (∃ cls, s.memRead a w = s.performRead cls a w ∧ memmapAnswer s.params .read a w = some cls)
    ∨ s.memRead a w = .raised ⟨.loadAccessFault, some a⟩
    ∨ (s.memRead a w = .raised ⟨.loadAddressMisaligned, some a⟩ ∧ isAligned a w = false) := by
  cases h : misalignedCause s.params a w .loadAddressMisaligned .loadAccessFault with
  | some c =>
    obtain ⟨ha, ⟨rfl, -⟩ | ⟨rfl, -⟩⟩ := misalignedCause_some h
    · exact .inr (.inr ⟨memRead_misaligned h, ha⟩)
    · exact .inr (.inl (memRead_misaligned h))
  | none =>
    cases hm : memmapAnswer s.params .read a w with
    | none => exact .inr (.inl (memRead_denied h hm))
    | some cls => exact .inl ⟨cls, memRead_allowed h hm, rfl⟩

/-! ## MemWrite (R47) -/

theorem State.memWrite_misaligned {s : State} {a v : Word} {w : Width} {c : Cause}
    (h : misalignedCause s.params a w .storeAddressMisaligned .storeAccessFault = some c) :
    s.memWrite a w v = .raised ⟨c, some a⟩ := by simp [State.memWrite, h]

theorem State.memWrite_denied {s : State} {a v : Word} {w : Width}
    (h : misalignedCause s.params a w .storeAddressMisaligned .storeAccessFault = none)
    (hm : memmapAnswer s.params .write a w = none) : s.memWrite a w v = .raised ⟨.storeAccessFault, some a⟩ := by
  simp [State.memWrite, h, hm]

theorem State.memWrite_text {s : State} {a v : Word} {w : Width}
    (h : misalignedCause s.params a w .storeAddressMisaligned .storeAccessFault = none)
    (hm : (memmapAnswer s.params .write a w).isSome = true) (ht : (touched a w).any (isText s.params) = true) :
    s.memWrite a w v = .refused (.storeToText a) := by
  obtain ⟨cls, hcls⟩ := Option.isSome_iff_exists.mp hm
  simp only [State.memWrite, h, hcls, ht, if_true]

theorem State.memWrite_allowed {s : State} {a v : Word} {w : Width} {cls : RegionClass}
    (h : misalignedCause s.params a w .storeAddressMisaligned .storeAccessFault = none)
    (hm : memmapAnswer s.params .write a w = some cls) (ht : (touched a w).any (isText s.params) = false) :
    s.memWrite a w v = s.performWrite cls a w v := by
  simp only [State.memWrite, h, hm, ht]
  rfl

/-- All that a MemWrite can answer. -/
theorem State.memWrite_cases (s : State) (a : Word) (w : Width) (v : Word) :
    (∃ cls, s.memWrite a w v = s.performWrite cls a w v ∧ memmapAnswer s.params .write a w = some cls
      ∧ (touched a w).any (isText s.params) = false)
    ∨ s.memWrite a w v = .raised ⟨.storeAccessFault, some a⟩
    ∨ (s.memWrite a w v = .raised ⟨.storeAddressMisaligned, some a⟩ ∧ isAligned a w = false)
    ∨ (s.memWrite a w v = .refused (.storeToText a) ∧ (memmapAnswer s.params .write a w).isSome = true
      ∧ (touched a w).any (isText s.params) = true) := by
  cases h : misalignedCause s.params a w .storeAddressMisaligned .storeAccessFault with
  | some c =>
    obtain ⟨ha, ⟨rfl, -⟩ | ⟨rfl, -⟩⟩ := misalignedCause_some h
    · exact .inr (.inr (.inl ⟨memWrite_misaligned h, ha⟩))
    · exact .inr (.inl (memWrite_misaligned h))
  | none =>
    cases hm : memmapAnswer s.params .write a w with
    | none => exact .inr (.inl (memWrite_denied h hm))
    | some cls =>
      cases ht : (touched a w).any (isText s.params) with
      | true => exact .inr (.inr (.inr ⟨memWrite_text h (by simp [hm]) ht, rfl, rfl⟩))
      | false => exact .inl ⟨cls, memWrite_allowed h hm ht, rfl, rfl⟩

/-! ## Fetch (R48) -/

theorem State.fetch_cases (s : State) :
    (∃ w, s.fetch = .ok w ∧ (memmapAnswer s.params .fetch s.pc .word).isSome = true)
    ∨ (s.fetch = .error ⟨.instructionAccessFault, some s.pc⟩ ∧ memmapAnswer s.params .fetch s.pc .word = none) := by
  unfold State.fetch
  cases h : memmapAnswer s.params .fetch s.pc .word with
  | none => exact .inr ⟨rfl, rfl⟩
  | some c => exact .inl ⟨_, rfl, rfl⟩

/-! ## Restart and other agents (R246, R58) -/

/-- All that a restart can answer. -/
theorem State.resume_cases (s : State) (t : TrapRecord) :
    (s.replies = [] ∧ s.resume t = .fault (.runEnded t))
    ∨ ∃ reply rest, s.replies = reply :: rest ∧
      ((∃ a, s.resume t = .refused (.foreignWriteToText a))
      ∨ (isAligned (resumePc t reply.resume) .word = false
          ∧ s.resume t = .fault (.misalignedPc (resumePc t reply.resume)))
      ∨ (isAligned (resumePc t reply.resume) .word = true
          ∧ (∀ w ∈ reply.memWrites, isText s.params w.1 = false)
          ∧ s.resume t = .next { s.setRegs reply.regWrites with
              mem := Memory.putEach s.mem reply.memWrites, pc := resumePc t reply.resume, trap := none,
              replies := rest })) := by
  cases hr : s.replies with
  | nil => exact .inl ⟨rfl, by simp [State.resume, hr]⟩
  | cons reply rest =>
    refine .inr ⟨reply, rest, rfl, ?_⟩
    cases hf : reply.memWrites.find? (fun w => isText s.params w.1) with
    | some w => exact .inl ⟨w.1, by simp [State.resume, hr, hf]⟩
    | none =>
      cases ha : isAligned (resumePc t reply.resume) .word with
      | false => exact .inr (.inl ⟨rfl, by simp [State.resume, hr, hf, ha]⟩)
      | true =>
        refine .inr (.inr ⟨rfl, ?_, by simp [State.resume, hr, hf, ha]⟩)
        intro w hw
        simpa using List.find?_eq_none.mp hf w hw

/-- All that the writes of other agents can do. -/
theorem State.landForeign_cases (s : State) :
    (s.foreign = [] ∧ s.landForeign = .ok s)
    ∨ ∃ batch rest, s.foreign = batch :: rest ∧
      ((∃ a, s.landForeign = .error (.foreignWriteToText a))
      ∨ ((∀ w ∈ batch, isText s.params w.1 = false)
          ∧ s.landForeign = .ok { s with mem := Memory.putEach s.mem batch, foreign := rest })) := by
  cases hf : s.foreign with
  | nil => exact .inl ⟨rfl, by simp [State.landForeign, hf]⟩
  | cons batch rest =>
    refine .inr ⟨batch, rest, rfl, ?_⟩
    cases hb : batch.find? (fun w => isText s.params w.1) with
    | some w => exact .inl ⟨w.1, by simp [State.landForeign, hf, hb]⟩
    | none =>
      refine .inr ⟨?_, by simp [State.landForeign, hf, hb]⟩
      intro w hw
      simpa using List.find?_eq_none.mp hb w hw

/-! ## The shared ends of the instructions -/

theorem State.jump_aligned {s : State} {rd : RegIdx} {target : Word} (h : isAligned target .word = true) :
    s.jump rd target = .next ((s.setReg rd s.nextPc).setPc target) := by simp [State.jump, h]

theorem State.jump_misaligned {s : State} {rd : RegIdx} {target : Word} (h : isAligned target .word = false) :
    s.jump rd target = .next (s.takeTrap ⟨.instructionAddressMisaligned, some target⟩) := by simp [State.jump, h]

theorem State.branch_not_taken (s : State) (off : BitVec 13) : s.branch false off = .next s.advance := rfl

theorem State.branch_taken {s : State} {off : BitVec 13} (h : isAligned (s.branchTarget off) .word = true) :
    s.branch true off = .next (s.setPc (s.branchTarget off)) := by simp [State.branch, h]

theorem State.branch_misaligned {s : State} {off : BitVec 13} (h : isAligned (s.branchTarget off) .word = false) :
    s.branch true off = .next (s.takeTrap ⟨.instructionAddressMisaligned, some (s.branchTarget off)⟩) := by
  simp [State.branch, h]

theorem State.load_done {s : State} {w : Width} {f : Word → Word} {rd rs1 : RegIdx} {imm : BitVec 12}
    {p : Word × State} (h : s.memRead (s.effectiveAddress rs1 imm) w = .done p) :
    s.load w f rd rs1 imm = .next (p.2.setReg rd (f p.1)).advance := by simp [State.load, h]

theorem State.load_raised {s : State} {w : Width} {f : Word → Word} {rd rs1 : RegIdx} {imm : BitVec 12} {x : Exn}
    (h : s.memRead (s.effectiveAddress rs1 imm) w = .raised x) :
    s.load w f rd rs1 imm = .next (s.takeTrap x) := by simp [State.load, h]

theorem State.load_refused {s : State} {w : Width} {f : Word → Word} {rd rs1 : RegIdx} {imm : BitVec 12} {r : Refusal}
    (h : s.memRead (s.effectiveAddress rs1 imm) w = .refused r) :
    s.load w f rd rs1 imm = .refused r := by simp [State.load, h]

theorem State.store_done {s s' : State} {w : Width} {rs2 rs1 : RegIdx} {imm : BitVec 12}
    (h : s.memWrite (s.effectiveAddress rs1 imm) w (s.reg rs2) = .done s') :
    s.store w rs2 rs1 imm = .next s'.advance := by simp [State.store, h]

theorem State.store_raised {s : State} {w : Width} {rs2 rs1 : RegIdx} {imm : BitVec 12} {x : Exn}
    (h : s.memWrite (s.effectiveAddress rs1 imm) w (s.reg rs2) = .raised x) :
    s.store w rs2 rs1 imm = .next (s.takeTrap x) := by simp [State.store, h]

theorem State.store_refused {s : State} {w : Width} {rs2 rs1 : RegIdx} {imm : BitVec 12} {r : Refusal}
    (h : s.memWrite (s.effectiveAddress rs1 imm) w (s.reg rs2) = .refused r) :
    s.store w rs2 rs1 imm = .refused r := by simp [State.store, h]

end Sys2Proof.Machine
end

