-- ==== Sys2Proof/Laws/Access.lean ====
section
/-! SUPPORT. The accesses in the terms claims use: what a read of ordinary memory gives, when an access raises nothing for
its alignment, and the map of `State.reset`. -/

namespace Sys2Proof.Machine

/-! ## Values read (R42) -/

theorem append_two_bytes (b1 b0 : Byte) :
    (b1 ++ b0 : BitVec (8 + 8)).setWidth 32 = b1.setWidth 32 <<< 8 ||| b0.setWidth 32 := by
  apply BitVec.eq_of_getLsbD_eq
  intro i hi
  simp only [BitVec.getLsbD_or, BitVec.getLsbD_shiftLeft, BitVec.getLsbD_setWidth, BitVec.getLsbD_append]
  interval_cases i <;> simp

theorem append_four_bytes (b3 b2 b1 b0 : Byte) :
    (b3 ++ b2 ++ b1 ++ b0 : BitVec (8 + 8 + 8 + 8))
      = ((b3.setWidth 32 <<< 8 ||| b2.setWidth 32) <<< 8 ||| b1.setWidth 32) <<< 8 ||| b0.setWidth 32 := by
  apply BitVec.eq_of_getLsbD_eq
  intro i hi
  simp only [BitVec.getLsbD_or, BitVec.getLsbD_shiftLeft, BitVec.getLsbD_setWidth, BitVec.getLsbD_append]
  interval_cases i <;> simp

/-- Four bytes read are the word there in the byte order of the run. -/
theorem State.readMemory_word (s : State) (a : Word) : s.readMemory a .word = s.wordAt a := by
  unfold State.readMemory State.wordAt
  cases s.params.endian <;> refine Eq.trans ?_ (append_four_bytes ..).symm <;>
    simp [touched, Width.bytes, List.range_succ, byteAddress, valueOf, littleValue]

/-- Two bytes read are the halfword there in the byte order of the run, zero-extended. -/
theorem State.readMemory_half (s : State) (a : Word) : s.readMemory a .half = (s.halfAt a).setWidth 32 := by
  unfold State.readMemory State.halfAt
  cases s.params.endian <;> refine Eq.trans ?_ (append_two_bytes ..).symm <;>
    simp [touched, Width.bytes, List.range_succ, byteAddress, valueOf, littleValue]

/-- One byte read is the byte there, zero-extended; "Byte order plays no part" (R178). -/
theorem State.readMemory_byte (s : State) (a : Word) : s.readMemory a .byte = (s.byteAt a).setWidth 32 := by
  unfold State.readMemory
  cases s.params.endian <;> simp [touched, Width.bytes, byteAddress, valueOf, littleValue]

/-! ## Alignment (R45, R50) -/

theorem misalignedCause_ok {p : Params} {a : Word} {w : Width} {m x : Cause} (h : AlignmentOk p a w) :
    misalignedCause p a w m x = none := by
  rcases h with h | h
  · exact misalignedCause_aligned (by simp [isAligned, h])
  · exact misalignedCause_support h

theorem isAligned_eq_false {a : Word} {w : Width} (h : a.toNat % w.bytes ≠ 0) : isAligned a w = false := by
  simp [isAligned, h]

theorem any_isText_eq_false {p : Params} {l : List Word} (h : ∀ b ∈ l, isText p b = false) :
    l.any (isText p) = false := by
  rw [List.any_eq_false]
  intro b hb
  simp [h b hb]

/-! ## The map of `State.reset` -/

theorem low_two_bits_cleared (b : Word) : (b &&& 0xFFFFFFFC#32).toNat = b.toNat - b.toNat % 4 := by
  have h : b &&& 0xFFFFFFFC#32 = (b >>> 2) <<< 2 := by
    apply BitVec.eq_of_getLsbD_eq
    intro i hi
    interval_cases i <;> simp
  rw [h]
  simp only [BitVec.toNat_shiftLeft, BitVec.toNat_ushiftRight, Nat.shiftLeft_eq, Nat.shiftRight_eq_div_pow]
  have := b.isLt
  omega

/-- No byte is both fetchable and writable under the parameters of `State.reset`, as D15 recommends. -/
theorem resetParams_textUnwritable : TextUnwritable Config.resetParams := by
  intro a w hw b hb
  obtain ⟨k, hk, rfl⟩ := mem_touched.mp hb
  have h4 := width_bytes_le w
  have ha : (a - 0x00002000#32).toNat + w.bytes ≤ 0xFFFFF000 := by
    by_contra hn
    have : memmapAnswer Config.resetParams .write a w = none := by
      cases w <;>
        simp [memmapAnswer, Config.resetParams, Config.textRegion, Config.dataRegion, regionAllows, widthsAllow,
          Widths.none, Widths.all, regionCovers, Width.bytes] <;> simp [Width.bytes] at hn <;> omega
    rw [this] at hw
    cases hw
  cases ht : isText Config.resetParams (byteAddress a k) with
  | false => rfl
  | true =>
    exfalso
    have hc : ((byteAddress a k &&& 0xFFFFFFFC#32) - 0x00001000#32).toNat + 4 ≤ 0x1000 := by
      by_contra hn
      have : isText Config.resetParams (byteAddress a k) = false := by
        unfold isText
        generalize byteAddress a k &&& 0xFFFFFFFC#32 = x at hn
        simp [memmapAnswer, Config.resetParams, Config.textRegion, Config.dataRegion, regionAllows, regionCovers,
          Width.bytes]
        simp at hn
        omega
      rw [this] at ht
      cases ht
    rw [BitVec.toNat_sub, low_two_bits_cleared] at hc
    rw [BitVec.toNat_sub] at ha
    simp only [byteAddress, BitVec.toNat_add, BitVec.toNat_ofNat] at hc ha
    omega

end Sys2Proof.Machine
end

