-- ==== Sys2Proof/Laws/Decode.lean ====
section
/-! SUPPORT. The opcode table picks at most one row (R96), and the fields of an encoded word read back. -/

namespace Sys2Proof

/-! ## Rows (R96) -/

/-- Two rows that no word can meet together: they fix some common bit to different values. -/
def OpRow.clash (a b : OpRow) : Bool := a.mask &&& b.mask &&& (a.pattern ^^^ b.pattern) != 0#32

theorem OpRow.clash_not_both {a b : OpRow} {w : Word} (h : a.clash b = true) (ha : a.hits w = true) :
    b.hits w = false := by
  rw [Bool.eq_false_iff]
  intro hb
  simp only [OpRow.hits, beq_iff_eq] at ha hb
  simp only [OpRow.clash, ← ha, ← hb, bne_iff_ne, ne_eq] at h
  apply h
  ext i hi
  simp
  grind

/-- Every row but the last. -/
def specificRows : List OpRow :=
  rowsImmediate ++ rowsRegister ++ rowsControl ++ rowsMemory ++ rowsSystem ++ rowsNamedFence

theorem opcodeTable_eq : opcodeTable = specificRows ++ [rowFence] := rfl

/-- The rows before FENCE are pairwise disjoint. -/
theorem specificRows_clash : specificRows.Pairwise (fun a b => a.clash b = true) := by decide

/-- FENCE is disjoint from every row but those of its two named encodings. -/
theorem fence_clash : ∀ r ∈ rowsImmediate ++ rowsRegister ++ rowsControl ++ rowsMemory ++ rowsSystem,
    rowFence.clash r = true := by decide

theorem find?_of_clash {l : List OpRow} (hl : l.Pairwise (fun a b => a.clash b = true)) {r : OpRow} {w : Word}
    (hr : r ∈ l) (hw : r.hits w = true) : l.find? (·.hits w) = some r := by
  induction l with
  | nil => cases hr
  | cons a rest ih =>
    obtain ⟨ha, hrest⟩ := List.pairwise_cons.mp hl
    rcases List.mem_cons.mp hr with rfl | hr'
    · simp [hw]
    · have : a.hits w = false := by
        rw [Bool.eq_false_iff]
        intro h
        rw [OpRow.clash_not_both (ha r hr') h] at hw
        cases hw
      rw [List.find?_cons, this]
      exact ih hrest hr'

/-- A word that meets a row before FENCE is that row's instruction. -/
theorem decode_of_hits {r : OpRow} {w : Word} (hr : r ∈ specificRows) (hw : r.hits w = true) :
    decode w = .ok (r.build w) := by
  unfold decode
  rw [opcodeTable_eq, List.find?_append, find?_of_clash specificRows_clash hr hw]
  rfl

/-- A word that meets the FENCE row and is neither FENCE.TSO nor PAUSE is a FENCE. -/
theorem decode_fence {w : Word} (hw : rowFence.hits w = true) (ht : w ≠ 0x8330000F#32) (hp : w ≠ 0x0100000F#32) :
    decode w = .ok (rowFence.build w) := by
  have hnone : specificRows.find? (·.hits w) = none := by
    rw [List.find?_eq_none]
    intro r hr
    rcases List.mem_append.mp hr with hr | hr
    · rw [OpRow.clash_not_both (fence_clash r hr) hw]; decide
    · have all_ones : w &&& 0xFFFFFFFF#32 = w := by
        rw [show (0xFFFFFFFF#32 : Word) = BitVec.allOnes 32 from rfl, BitVec.and_allOnes]
      simp only [rowsNamedFence, List.mem_cons, List.not_mem_nil, or_false] at hr
      rcases hr with rfl | rfl <;> simp [OpRow.hits, rowWord, all_ones, ht, hp]
  unfold decode
  rw [opcodeTable_eq, List.find?_append, hnone]
  simp [hw]

/-- What a word decodes to comes from a row of the table that it meets. -/
theorem decode_ok {w : Word} {i : Instr} (h : decode w = .ok i) :
    ∃ r ∈ opcodeTable, r.hits w = true ∧ r.build w = i := by
  unfold decode at h
  split at h
  · rename_i r hr
    have hh : r.hits w = true := by simpa using List.find?_some (p := fun x : OpRow => x.hits w) hr
    exact ⟨r, List.mem_of_find?_eq_some hr, hh, Except.ok.inj h⟩
  · cases h

/-- A word is reserved exactly when it meets no row (R93). -/
theorem decode_error_iff (w : Word) :
    (∃ c, decode w = .error c) ↔ opcodeTable.all (fun r => !r.hits w) = true := by
  unfold decode
  cases h : opcodeTable.find? (·.hits w) with
  | none =>
    simp only [Except.error.injEq, exists_eq', true_iff]
    simpa using List.find?_eq_none.mp h
  | some r =>
    have hm := List.mem_of_find?_eq_some h
    have hh : r.hits w = true := by simpa using List.find?_some (p := fun x : OpRow => x.hits w) h
    simp only [reduceCtorEq, exists_false, false_iff]
    intro hall
    have := List.all_eq_true.mp hall r hm
    simp [hh] at this

/-! ## Words and their bytes (R43) -/

/-- A word laid out byte by byte reads back. -/
theorem wordOfBytes_byteOfWord (w : Word) :
    wordOfBytes (byteOfWord w 0) (byteOfWord w 1) (byteOfWord w 2) (byteOfWord w 3) = w := by
  ext i hi
  simp [wordOfBytes, byteOfWord]
  grind

/-- Decoding from the bytes of a word is decoding the word. -/
theorem decodeBytes_byteOfWord (w : Word) :
    decodeBytes (byteOfWord w 0) (byteOfWord w 1) (byteOfWord w 2) (byteOfWord w 3) = decode w := by
  rw [decodeBytes, wordOfBytes_byteOfWord]

/-! ## Set fields (R91) -/

theorem accessSet_ofBits_toBits (a : AccessSet) : AccessSet.ofBits a.toBits = a := by
  obtain ⟨i, o, r, w⟩ := a
  cases i <;> cases o <;> cases r <;> cases w <;> rfl

theorem accessSet_toBits_ofBits (b : BitVec 4) : (AccessSet.ofBits b).toBits = b := by
  revert b; decide

/-! ## Fields of encoded words (R71 to R84) -/

section Fields

variable (f7 : BitVec 7) (rs2 rs1 rd : RegIdx) (f3 : BitVec 3) (op : BitVec 7) (imm : BitVec 12)
  (imm20 : BitVec 20) (off13 : BitVec 13) (off21 : BitVec 21) (fm : BitVec 4) (pred succ : AccessSet)

theorem encodeR_fields : rdField (encodeR f7 rs2 rs1 f3 rd op) = rd ∧ rs1Field (encodeR f7 rs2 rs1 f3 rd op) = rs1
    ∧ rs2Field (encodeR f7 rs2 rs1 f3 rd op) = rs2 := by
  refine ⟨?_, ?_, ?_⟩ <;> apply BitVec.eq_of_getLsbD_eq <;> intro i hi <;>
    simp only [encodeR, rdField, rs1Field, rs2Field, BitVec.getLsbD_append, BitVec.getLsbD_extractLsb'] <;> interval_cases i <;> simp

theorem encodeI_fields : rdField (encodeI imm rs1 f3 rd op) = rd ∧ rs1Field (encodeI imm rs1 f3 rd op) = rs1
    ∧ immIField (encodeI imm rs1 f3 rd op) = imm := by
  refine ⟨?_, ?_, ?_⟩ <;> apply BitVec.eq_of_getLsbD_eq <;> intro i hi <;>
    simp only [encodeI, rdField, rs1Field, immIField, BitVec.getLsbD_append, BitVec.getLsbD_extractLsb'] <;> interval_cases i <;> simp

/-- The two pieces of an S-immediate make it up (R79). -/
theorem immS_pieces : (imm.extractLsb' 5 7 ++ imm.extractLsb' 0 5 : BitVec 12) = imm := by
  apply BitVec.eq_of_getLsbD_eq
  intro i hi
  rw [BitVec.getLsbD_append]
  interval_cases i <;> simp

theorem encodeS_fields : rs2Field (encodeS imm rs2 rs1 f3 op) = rs2 ∧ rs1Field (encodeS imm rs2 rs1 f3 op) = rs1
    ∧ immSField (encodeS imm rs2 rs1 f3 op) = imm := by
  have p1 : (encodeS imm rs2 rs1 f3 op).extractLsb' 25 7 = imm.extractLsb' 5 7 := by
    apply BitVec.eq_of_getLsbD_eq; intro i hi
    simp only [encodeS, BitVec.getLsbD_append, BitVec.getLsbD_extractLsb']
    interval_cases i <;> simp
  have p2 : (encodeS imm rs2 rs1 f3 op).extractLsb' 7 5 = imm.extractLsb' 0 5 := by
    apply BitVec.eq_of_getLsbD_eq; intro i hi
    simp only [encodeS, BitVec.getLsbD_append, BitVec.getLsbD_extractLsb']
    interval_cases i <;> simp
  refine ⟨?_, ?_, ?_⟩
  · apply BitVec.eq_of_getLsbD_eq; intro i hi
    simp only [encodeS, rs2Field, BitVec.getLsbD_append, BitVec.getLsbD_extractLsb']
    interval_cases i <;> simp
  · apply BitVec.eq_of_getLsbD_eq; intro i hi
    simp only [encodeS, rs1Field, BitVec.getLsbD_append, BitVec.getLsbD_extractLsb']
    interval_cases i <;> simp
  · rw [immSField, p1, p2, immS_pieces]

/-- The pieces of a branch offset and its low zero bit make it up (R80). -/
theorem immB_pieces (h : branchOffsetOk off13 = true) :
    (off13.extractLsb' 12 1 ++ off13.extractLsb' 11 1 ++ off13.extractLsb' 5 6 ++ off13.extractLsb' 1 4 ++ 0#1
      : BitVec 13) = off13 := by
  simp only [branchOffsetOk, Bool.not_eq_true'] at h
  apply BitVec.eq_of_getLsbD_eq
  intro i hi
  simp only [BitVec.getLsbD_append, BitVec.getLsbD_extractLsb']
  interval_cases i <;> simp
  simpa using h

theorem encodeB_fields (h : branchOffsetOk off13 = true) :
    rs2Field (encodeB off13 rs2 rs1 f3 op) = rs2 ∧ rs1Field (encodeB off13 rs2 rs1 f3 op) = rs1
    ∧ immBField (encodeB off13 rs2 rs1 f3 op) = off13 := by
  have p1 : (encodeB off13 rs2 rs1 f3 op).extractLsb' 31 1 = off13.extractLsb' 12 1 := by
    apply BitVec.eq_of_getLsbD_eq; intro i hi
    simp only [encodeB, BitVec.getLsbD_append, BitVec.getLsbD_extractLsb']
    interval_cases i; simp
  have p2 : (encodeB off13 rs2 rs1 f3 op).extractLsb' 7 1 = off13.extractLsb' 11 1 := by
    apply BitVec.eq_of_getLsbD_eq; intro i hi
    simp only [encodeB, BitVec.getLsbD_append, BitVec.getLsbD_extractLsb']
    interval_cases i; simp
  have p3 : (encodeB off13 rs2 rs1 f3 op).extractLsb' 25 6 = off13.extractLsb' 5 6 := by
    apply BitVec.eq_of_getLsbD_eq; intro i hi
    simp only [encodeB, BitVec.getLsbD_append, BitVec.getLsbD_extractLsb']
    interval_cases i <;> simp
  have p4 : (encodeB off13 rs2 rs1 f3 op).extractLsb' 8 4 = off13.extractLsb' 1 4 := by
    apply BitVec.eq_of_getLsbD_eq; intro i hi
    simp only [encodeB, BitVec.getLsbD_append, BitVec.getLsbD_extractLsb']
    interval_cases i <;> simp
  refine ⟨?_, ?_, ?_⟩
  · apply BitVec.eq_of_getLsbD_eq; intro i hi
    simp only [encodeB, rs2Field, BitVec.getLsbD_append, BitVec.getLsbD_extractLsb']
    interval_cases i <;> simp
  · apply BitVec.eq_of_getLsbD_eq; intro i hi
    simp only [encodeB, rs1Field, BitVec.getLsbD_append, BitVec.getLsbD_extractLsb']
    interval_cases i <;> simp
  · rw [immBField, p1, p2, p3, p4, immB_pieces off13 h]

theorem encodeU_fields : rdField (encodeU imm20 rd op) = rd ∧ immUField (encodeU imm20 rd op) = imm20 := by
  refine ⟨?_, ?_⟩ <;> apply BitVec.eq_of_getLsbD_eq <;> intro i hi <;>
    simp only [encodeU, rdField, immUField, BitVec.getLsbD_append, BitVec.getLsbD_extractLsb'] <;> interval_cases i <;> simp

/-- The pieces of a JAL offset and its low zero bit make it up (R82). -/
theorem immJ_pieces (h : jumpOffsetOk off21 = true) :
    (off21.extractLsb' 20 1 ++ off21.extractLsb' 12 8 ++ off21.extractLsb' 11 1 ++ off21.extractLsb' 1 10 ++ 0#1
      : BitVec 21) = off21 := by
  simp only [jumpOffsetOk, Bool.not_eq_true'] at h
  apply BitVec.eq_of_getLsbD_eq
  intro i hi
  simp only [BitVec.getLsbD_append, BitVec.getLsbD_extractLsb']
  interval_cases i <;> simp
  simpa using h

theorem encodeJ_fields (h : jumpOffsetOk off21 = true) :
    rdField (encodeJ off21 rd op) = rd ∧ immJField (encodeJ off21 rd op) = off21 := by
  have p1 : (encodeJ off21 rd op).extractLsb' 31 1 = off21.extractLsb' 20 1 := by
    apply BitVec.eq_of_getLsbD_eq; intro i hi
    simp only [encodeJ, BitVec.getLsbD_append, BitVec.getLsbD_extractLsb']
    interval_cases i; simp
  have p2 : (encodeJ off21 rd op).extractLsb' 12 8 = off21.extractLsb' 12 8 := by
    apply BitVec.eq_of_getLsbD_eq; intro i hi
    simp only [encodeJ, BitVec.getLsbD_append, BitVec.getLsbD_extractLsb']
    interval_cases i <;> simp
  have p3 : (encodeJ off21 rd op).extractLsb' 20 1 = off21.extractLsb' 11 1 := by
    apply BitVec.eq_of_getLsbD_eq; intro i hi
    simp only [encodeJ, BitVec.getLsbD_append, BitVec.getLsbD_extractLsb']
    interval_cases i; simp
  have p4 : (encodeJ off21 rd op).extractLsb' 21 10 = off21.extractLsb' 1 10 := by
    apply BitVec.eq_of_getLsbD_eq; intro i hi
    simp only [encodeJ, BitVec.getLsbD_append, BitVec.getLsbD_extractLsb']
    interval_cases i <;> simp
  refine ⟨?_, ?_⟩
  · apply BitVec.eq_of_getLsbD_eq; intro i hi
    simp only [encodeJ, rdField, BitVec.getLsbD_append, BitVec.getLsbD_extractLsb']
    interval_cases i <;> simp
  · rw [immJField, p1, p2, p3, p4, immJ_pieces off21 h]

theorem encodeFence_fields : fmField (encodeFence fm pred succ rs1 rd) = fm
    ∧ predField (encodeFence fm pred succ rs1 rd) = pred ∧ succField (encodeFence fm pred succ rs1 rd) = succ
    ∧ rs1Field (encodeFence fm pred succ rs1 rd) = rs1 ∧ rdField (encodeFence fm pred succ rs1 rd) = rd := by
  have p : (encodeFence fm pred succ rs1 rd).extractLsb' 24 4 = pred.toBits := by
    apply BitVec.eq_of_getLsbD_eq; intro i hi
    simp only [encodeFence, BitVec.getLsbD_append, BitVec.getLsbD_extractLsb']
    interval_cases i <;> simp
  have q : (encodeFence fm pred succ rs1 rd).extractLsb' 20 4 = succ.toBits := by
    apply BitVec.eq_of_getLsbD_eq; intro i hi
    simp only [encodeFence, BitVec.getLsbD_append, BitVec.getLsbD_extractLsb']
    interval_cases i <;> simp
  refine ⟨?_, ?_, ?_, ?_, ?_⟩
  · apply BitVec.eq_of_getLsbD_eq; intro i hi
    simp only [encodeFence, fmField, BitVec.getLsbD_append, BitVec.getLsbD_extractLsb']
    interval_cases i <;> simp
  · rw [predField, p, accessSet_ofBits_toBits]
  · rw [succField, q, accessSet_ofBits_toBits]
  · apply BitVec.eq_of_getLsbD_eq; intro i hi
    simp only [encodeFence, rs1Field, BitVec.getLsbD_append, BitVec.getLsbD_extractLsb']
    interval_cases i <;> simp
  · apply BitVec.eq_of_getLsbD_eq; intro i hi
    simp only [encodeFence, rdField, BitVec.getLsbD_append, BitVec.getLsbD_extractLsb']
    interval_cases i <;> simp

/-! ## The fixed bits of encoded words (R86 to R92) -/

theorem encodeR_masked : encodeR f7 rs2 rs1 f3 rd op &&& 0xFE00707F#32 = encodeR f7 0#5 0#5 f3 0#5 op := by
  apply BitVec.eq_of_getLsbD_eq
  intro i hi
  simp only [BitVec.getLsbD_append, BitVec.getLsbD_and, encodeR]
  interval_cases i <;> simp

theorem encodeI_masked : encodeI imm rs1 f3 rd op &&& 0x0000707F#32 = encodeI 0#12 0#5 f3 0#5 op := by
  apply BitVec.eq_of_getLsbD_eq
  intro i hi
  simp only [BitVec.getLsbD_append, BitVec.getLsbD_and, encodeI]
  interval_cases i <;> simp

theorem encodeS_masked : encodeS imm rs2 rs1 f3 op &&& 0x0000707F#32 = encodeS 0#12 0#5 0#5 f3 op := by
  apply BitVec.eq_of_getLsbD_eq
  intro i hi
  simp only [BitVec.getLsbD_append, BitVec.getLsbD_and, encodeS, BitVec.getLsbD_extractLsb']
  interval_cases i <;> simp

theorem encodeB_masked : encodeB off13 rs2 rs1 f3 op &&& 0x0000707F#32 = encodeB 0#13 0#5 0#5 f3 op := by
  apply BitVec.eq_of_getLsbD_eq
  intro i hi
  simp only [BitVec.getLsbD_append, BitVec.getLsbD_and, encodeB, BitVec.getLsbD_extractLsb']
  interval_cases i <;> simp

theorem encodeU_masked : encodeU imm20 rd op &&& 0x0000007F#32 = encodeU 0#20 0#5 op := by
  apply BitVec.eq_of_getLsbD_eq
  intro i hi
  simp only [BitVec.getLsbD_append, BitVec.getLsbD_and, encodeU]
  interval_cases i <;> simp

theorem encodeJ_masked : encodeJ off21 rd op &&& 0x0000007F#32 = encodeJ 0#21 0#5 op := by
  apply BitVec.eq_of_getLsbD_eq
  intro i hi
  simp only [BitVec.getLsbD_append, BitVec.getLsbD_and, encodeJ, BitVec.getLsbD_extractLsb']
  interval_cases i <;> simp

theorem encodeFence_masked :
    encodeFence fm pred succ rs1 rd &&& 0x0000707F#32 = encodeFence 0#4 .none .none 0#5 0#5 := by
  apply BitVec.eq_of_getLsbD_eq
  intro i hi
  simp only [BitVec.getLsbD_append, BitVec.getLsbD_and, encodeFence, AccessSet.toBits, AccessSet.none]
  interval_cases i <;> simp

end Fields

end Sys2Proof
end

