-- ==== Sys2Proof/Laws/Split.lean ====
section
/-! SUPPORT. What split accesses can do (R50, R51): their order is some order of the bytes, each of other agents' batches
lands once, and what is read, written, drawn and recorded at each place of the order. -/

namespace Sys2Proof.Machine

/-! ## The order -/

theorem arrange_perm (choice : Nat → Nat) (l : List Nat) : (arrange choice l).Perm l := by
  induction l with
  | nil => exact .nil
  | cons k rest ih =>
    refine (List.perm_insertIdx k _ ?_).trans (ih.cons k)
    rw [ih.length_eq]
    exact Nat.lt_succ_iff.mp (Nat.mod_lt _ (Nat.succ_pos _))

theorem splitOrder_perm (n : Nat) (w : Width) : (splitOrder n w).Perm (List.range w.bytes) := arrange_perm _ _

@[simp] theorem length_splitOrder (n : Nat) (w : Width) : (splitOrder n w).length = w.bytes := by
  simpa using (splitOrder_perm n w).length_eq

theorem splitOrder_nodup (n : Nat) (w : Width) : (splitOrder n w).Nodup :=
  (splitOrder_perm n w).nodup_iff.mpr List.nodup_range

theorem mem_splitOrder {n : Nat} {w : Width} {k : Nat} : k ∈ splitOrder n w ↔ k < w.bytes := by
  rw [(splitOrder_perm n w).mem_iff, List.mem_range]

/-! ## Writes one after another -/

theorem lastWritten_append (a : Word) (b : Byte) (l₁ l₂ : List (Word × Byte)) :
    lastWritten a b (l₁ ++ l₂) = lastWritten a (lastWritten a b l₁) l₂ := by
  induction l₁ generalizing b with
  | nil => rfl
  | cons w rest ih => exact ih _

theorem Memory.putEach_append (m : Memory) (l₁ l₂ : List (Word × Byte)) :
    Memory.putEach m (l₁ ++ l₂) = Memory.putEach (Memory.putEach m l₁) l₂ := by
  induction l₁ generalizing m with
  | nil => rfl
  | cons w rest ih => exact ih _

/-- The byte at an address after writes, in order. -/
theorem Memory.byte?_putEach (m : Memory) (ws : List (Word × Byte)) (a : Word) (d : Byte) :
    (Memory.byte? (Memory.putEach m ws) a.toNat).getD d = lastWritten a ((Memory.byte? m a.toNat).getD d) ws := by
  induction ws generalizing m with
  | nil => rfl
  | cons w rest ih =>
    obtain ⟨c, v⟩ := w
    rw [Memory.putEach, ih, lastWritten]
    congr 1
    by_cases h : c = a
    · subst h; simp
    · rw [Memory.byte?_put_ne _ _ (fun e => h (BitVec.eq_of_toNat_eq e.symm)), if_neg h]

/-- The state once the next `n` batches of other agents' writes have landed. -/
def State.afterOthers (s : State) (n : Nat) : State :=
  { s with mem := Memory.putEach s.mem (s.foreign.take n).flatten, foreign := s.foreign.drop n }

theorem State.afterOthers_byteAt (s : State) (n : Nat) (a : Word) : (s.afterOthers n).byteAt a = s.byteAfter n a :=
  Memory.byte?_putEach _ _ _ _

theorem State.afterOthers_quiet {s : State} (h : s.foreign = []) (n : Nat) : s.afterOthers n = s := by
  obtain ⟨_, _, _, _, _, _, f, _, _, _⟩ := s
  cases h
  simp [State.afterOthers, Memory.putEach]

@[simp] theorem State.afterOthers_zero (s : State) : s.afterOthers 0 = s := by simp [State.afterOthers, Memory.putEach]

theorem State.afterOthers_succ (s : State) (n : Nat) : (s.afterOthers 1).afterOthers n = s.afterOthers (n + 1) := by
  cases h : s.foreign with
  | nil => rw [State.afterOthers_quiet h, State.afterOthers_quiet h, State.afterOthers_quiet h]
  | cons batch rest => simp [State.afterOthers, h, Memory.putEach_append]

theorem State.byteAfter_quiet {s : State} (h : s.foreign = []) (n : Nat) (a : Word) : s.byteAfter n a = s.byteAt a := by
  simp [State.byteAfter, h, lastWritten]

/-! ## One batch -/

theorem State.landForeign_ok {s : State} (h : s.NoTextWrites 1) : s.landForeign = .ok (s.afterOthers 1) := by
  rcases s.landForeign_cases with ⟨hf, h'⟩ | ⟨batch, rest, hf, ⟨a, h'⟩ | ⟨-, h'⟩⟩
  · rw [h', State.afterOthers_quiet hf]
  · exfalso
    simp only [State.NoTextWrites, hf, List.take_succ_cons, List.take_zero, List.flatten_cons, List.flatten_nil,
      List.append_nil] at h
    have : batch.find? (fun w => isText s.params w.1) = none := List.find?_eq_none.mpr fun w hw => by simp [h w hw]
    simp [State.landForeign, hf, this] at h'
  · rw [h']; simp [State.afterOthers, hf]

/-- All that a landing batch can do. -/
theorem State.landForeign_inv (s : State) :
    (s.NoTextWrites 1 ∧ s.landForeign = .ok (s.afterOthers 1))
    ∨ (¬ s.NoTextWrites 1 ∧ ∃ a, s.landForeign = .error (.foreignWriteToText a)) := by
  by_cases h : s.NoTextWrites 1
  · exact .inl ⟨h, State.landForeign_ok h⟩
  · refine .inr ⟨h, ?_⟩
    rcases s.landForeign_cases with ⟨hf, -⟩ | ⟨batch, rest, hf, h' | ⟨ht, -⟩⟩
    · exact absurd (by simp [State.NoTextWrites, hf]) h
    · exact h'
    · exact absurd (by simpa [State.NoTextWrites, hf] using ht) h

theorem State.noTextWrites_succ {s t : State} {n : Nat} (hf : t.foreign = s.foreign.drop 1)
    (hp : t.params = s.params) : s.NoTextWrites (n + 1) ↔ s.NoTextWrites 1 ∧ t.NoTextWrites n := by
  unfold State.NoTextWrites
  rw [hf, hp]
  cases s.foreign with
  | nil => simp
  | cons batch rest =>
    simp only [List.take_succ_cons, List.take_zero, List.flatten_cons, List.flatten_nil, List.append_nil,
      List.mem_append, List.drop_succ_cons, List.drop_zero]
    constructor
    · exact fun h => ⟨fun w hw => h w (.inl hw), fun w hw => h w (.inr hw)⟩
    · rintro ⟨h1, h2⟩ w (hw | hw)
      · exact h1 w hw
      · exact h2 w hw

@[simp] theorem State.beginSplit_noTextWrites (s : State) (n : Nat) :
    s.beginSplit.NoTextWrites n ↔ s.NoTextWrites n := Iff.rfl

@[simp] theorem State.beginSplit_byteAfter (s : State) (n : Nat) (b : Word) :
    s.beginSplit.byteAfter n b = s.byteAfter n b := rfl

/-! ## Interleaving in general -/

/-- What every byte access leaves as it is. -/
def ByteFrame (s t : State) : Prop :=
  t.regs = s.regs ∧ t.pc = s.pc ∧ t.params = s.params ∧ t.trap = s.trap ∧ t.replies = s.replies
    ∧ t.foreign = s.foreign ∧ t.splits = s.splits

theorem readByte_frame (cls : RegionClass) (a : Word) (got : List (Nat × Byte)) (s : State) (k : Nat) :
    ByteFrame s (State.readByte cls a got s k).2 := by
  cases cls <;> exact ⟨rfl, rfl, rfl, rfl, rfl, rfl, rfl⟩

theorem writeByte_frame (cls : RegionClass) (a : Word) (w : Width) (v : Word) (u : Unit) (s : State) (k : Nat) :
    ByteFrame s (State.writeByte cls a w v u s k).2 := by
  cases cls <;> exact ⟨rfl, rfl, rfl, rfl, rfl, rfl, rfl⟩

section
variable {α : Type} {act : α → State → Nat → α × State}

/-- One byte access and what follows it. -/
theorem interleave_cons {s : State} (h : s.NoTextWrites 1) (acc : α) (k : Nat) (rest : List Nat) :
    interleave act acc s (k :: rest)
      = interleave act (act acc (s.afterOthers 1) k).1 (act acc (s.afterOthers 1) k).2 rest := by
  rw [interleave, State.landForeign_ok h]

/-- Byte accesses complete exactly when no batch among them touches program text; else the run is refused. -/
theorem interleave_cases (hact : ∀ acc s k, ByteFrame s (act acc s k).2) (acc : α) (s : State) (order : List Nat) :
    (s.NoTextWrites order.length ∧ ∃ p, interleave act acc s order = .ok p)
    ∨ (¬ s.NoTextWrites order.length ∧ ∃ a, interleave act acc s order = .error (.foreignWriteToText a)) := by
  induction order generalizing acc s with
  | nil => exact .inl ⟨by simp [State.NoTextWrites], _, rfl⟩
  | cons k rest ih =>
    rcases s.landForeign_inv with ⟨h1, h⟩ | ⟨h1, a, h⟩
    · obtain ⟨-, -, hp, -, -, hf, -⟩ := hact acc (s.afterOthers 1) k
      rw [interleave_cons h1, List.length_cons, State.noTextWrites_succ hf hp]
      rcases ih (act acc (s.afterOthers 1) k).1 (act acc (s.afterOthers 1) k).2 with ⟨h2, h3⟩ | ⟨h2, h3⟩
      · exact .inl ⟨⟨h1, h2⟩, h3⟩
      · exact .inr ⟨fun h => h2 h.2, h3⟩
    · refine .inr ⟨fun h2 => h1 fun w hw => h2 w ?_, a, by rw [interleave, h]⟩
      cases hf : s.foreign with
      | nil => simp [hf] at hw
      | cons batch more =>
        simp only [hf, List.take_succ_cons, List.take_zero, List.flatten_cons, List.flatten_nil, List.append_nil] at hw
        simp [hw]

/-- What byte accesses leave as it is: all but memory, the trace and the batches used up. -/
theorem interleave_frame (hact : ∀ acc s k, ByteFrame s (act acc s k).2) {acc : α} {s : State} {order : List Nat}
    {p : α × State} (h : interleave act acc s order = .ok p) :
    p.2.regs = s.regs ∧ p.2.pc = s.pc ∧ p.2.params = s.params ∧ p.2.trap = s.trap ∧ p.2.replies = s.replies
      ∧ p.2.foreign = s.foreign.drop order.length ∧ p.2.splits = s.splits := by
  induction order generalizing acc s with
  | nil => cases h; exact ⟨rfl, rfl, rfl, rfl, rfl, rfl, rfl⟩
  | cons k rest ih =>
    rcases s.landForeign_inv with ⟨h1, -⟩ | ⟨-, a, h'⟩
    · rw [interleave_cons h1] at h
      obtain ⟨h1, h2, h3, h4, h5, h6, h7⟩ := hact acc (s.afterOthers 1) k
      obtain ⟨g1, g2, g3, g4, g5, g6, g7⟩ := ih h
      refine ⟨g1.trans h1, g2.trans h2, g3.trans h3, g4.trans h4, g5.trans h5, ?_, g7.trans h7⟩
      rw [g6, h6]
      simp [State.afterOthers]
    · rw [interleave, h'] at h; cases h

/-- What every byte access and every landing batch keeps, byte accesses keep. -/
theorem interleave_keeps {P : State → Prop} (hact : ∀ acc s k, P s → P (act acc s k).2)
    (hland : ∀ s, P s → s.NoTextWrites 1 → P (s.afterOthers 1)) {acc : α} {s : State} {order : List Nat} {p : α × State}
    (h : interleave act acc s order = .ok p) (hs : P s) : P p.2 := by
  induction order generalizing acc s with
  | nil => cases h; exact hs
  | cons k rest ih =>
    rcases s.landForeign_inv with ⟨h1, -⟩ | ⟨-, a, h'⟩
    · rw [interleave_cons h1] at h
      exact ih h (hact _ _ _ (hland s hs h1))
    · rw [interleave, h'] at h; cases h

end

/-! ## Split loads -/

theorem lookup_cons_ne {k q : Nat} {b : Byte} {got : List (Nat × Byte)} (h : ¬ k = q) :
    List.lookup k ((q, b) :: got) = got.lookup k := by
  have : (k == q) = false := by simpa using h
  simp [List.lookup, this]

theorem State.byteAfter_afterOthers (s : State) (n : Nat) (a : Word) :
    (s.afterOthers 1).byteAfter n a = s.byteAfter (n + 1) a := by
  rw [← State.afterOthers_byteAt, State.afterOthers_succ, State.afterOthers_byteAt]

/-- Bytes read from memory: each as it is at its turn, and nothing but the batches changes the state. -/
theorem interleave_readMemory {a : Word} {got : List (Nat × Byte)} {s : State} {order : List Nat} (hn : order.Nodup)
    (ht : s.NoTextWrites order.length) :
    ∃ all, interleave (State.readByte .memory a) got s order = .ok (all, s.afterOthers order.length)
      ∧ (∀ j k, order[j]? = some k → all.lookup k = some (s.byteAfter (j + 1) (byteAddress a k)))
      ∧ ∀ k, k ∉ order → all.lookup k = got.lookup k := by
  induction order generalizing got s with
  | nil => exact ⟨got, by simp [interleave], by simp, fun _ _ => rfl⟩
  | cons q rest ih =>
    obtain ⟨hq, hn⟩ := List.nodup_cons.mp hn
    rw [List.length_cons, State.noTextWrites_succ (t := s.afterOthers 1) rfl rfl] at ht
    obtain ⟨all, h1, h2, h3⟩ :=
      ih (got := (q, (s.afterOthers 1).byteAt (byteAddress a q)) :: got) (s := s.afterOthers 1) hn ht.2
    refine ⟨all, ?_, ?_, ?_⟩
    · rw [interleave_cons ht.1]
      refine h1.trans ?_
      rw [State.afterOthers_succ, List.length_cons]
    · rintro (_ | j) k hk
      · obtain rfl : q = k := by simpa using hk
        rw [h3 _ hq, List.lookup_cons_self, State.afterOthers_byteAt]
      · rw [h2 j k (by simpa using hk), State.byteAfter_afterOthers]
    · intro k hk
      rw [List.mem_cons, not_or] at hk
      rw [h3 k hk.2, lookup_cons_ne hk.1]

theorem byte_of_word (b : Byte) : (b.setWidth 32).extractLsb' 0 8 = b := by
  apply BitVec.eq_of_getLsbD_eq
  intro i hi
  interval_cases i <;> simp

/-- Bytes read from a device: one input a byte, each with the byte that is read there. -/
theorem interleave_readDevice {a : Word} {got : List (Nat × Byte)} {s : State} {order : List Nat} (hn : order.Nodup)
    (ht : s.NoTextWrites order.length) :
    ∃ all t, interleave (State.readByte .io a) got s order = .ok (all, t)
      ∧ (∀ b, t.byteAt b = s.byteAfter order.length b) ∧ t.draws = s.draws + order.length
      ∧ t.events = s.events
        ++ order.map (fun k => .input (byteAddress a k) .byte (((all.lookup k).getD 0#8).setWidth 32))
      ∧ ∀ k, k ∉ order → all.lookup k = got.lookup k := by
  induction order generalizing got s with
  | nil => exact ⟨got, s, rfl, fun b => by simp [State.byteAfter, lastWritten], rfl, by simp, fun _ _ => rfl⟩
  | cons q rest ih =>
    obtain ⟨hq, hn⟩ := List.nodup_cons.mp hn
    let u := ((s.afterOthers 1).readDevice (byteAddress a q) .byte)
    rw [List.length_cons, State.noTextWrites_succ (t := u.2) rfl rfl] at ht
    obtain ⟨all, t, h1, h2, h3, h4, h5⟩ := ih (got := (q, u.1.setWidth 8) :: got) (s := u.2) hn ht.2
    refine ⟨all, t, ?_, ?_, ?_, ?_, ?_⟩
    · rw [interleave_cons ht.1]; exact h1
    · intro b
      exact (h2 b).trans (State.byteAfter_afterOthers s rest.length b)
    · rw [h3, List.length_cons]
      simp only [u, State.readDevice_draws]
      simp only [State.afterOthers]
      omega
    · rw [h4, List.map_cons, h5 q hq, List.lookup_cons_self]
      simp [u, State.afterOthers, State.readDevice, lowBits]
    · intro k hk
      rw [List.mem_cons, not_or] at hk
      rw [h5 k hk.2, lookup_cons_ne hk.1]

/-! ## Split stores -/

theorem writeByte_memory (a : Word) (w : Width) (v : Word) (s : State) (k : Nat) :
    (State.writeByte .memory a w v () s k).2
      = { s with mem := Memory.put s.mem (byteAddress a k).toNat ((bytesOf s.params.endian w v).getD k 0#8) } := by
  simp only [State.writeByte, State.writeMemory]
  congr 1
  have h : ∀ (e : Endian) (b : Byte), bytesOf e .byte (b.setWidth 32) = [b] := by
    intro e b
    cases e <;> simp [bytesOf, littleBytes, Width.bytes, byte_of_word]
  rw [h]
  rfl

/-- Bytes written to memory: each stays until a later batch overwrites it, and no other byte is written. -/
theorem interleave_writeMemory {a : Word} {w : Width} {v : Word} {s : State} {order : List Nat} (hn : order.Nodup)
    (hr : ∀ k ∈ order, k < w.bytes) (ht : s.NoTextWrites order.length) :
    ∃ t, interleave (State.writeByte .memory a w v) () s order = .ok ((), t)
      ∧ t.draws = s.draws ∧ t.events = s.events
      ∧ (∀ j k, order[j]? = some k → t.byteAt (byteAddress a k)
          = lastWritten (byteAddress a k) ((bytesOf s.params.endian w v).getD k 0#8)
            ((s.foreign.take order.length).drop (j + 1)).flatten)
      ∧ ∀ b, (∀ k ∈ order, b ≠ byteAddress a k) → t.byteAt b = s.byteAfter order.length b := by
  induction order generalizing s with
  | nil => exact ⟨s, rfl, rfl, rfl, by simp, fun b _ => by simp [State.byteAfter, lastWritten]⟩
  | cons q rest ih =>
    obtain ⟨hq, hn⟩ := List.nodup_cons.mp hn
    have hq4 := hr q List.mem_cons_self
    have h4 := width_bytes_le w
    let u : State := (State.writeByte .memory a w v () (s.afterOthers 1) q).2
    obtain ⟨-, -, hp, -, -, hf, -⟩ := writeByte_frame .memory a w v () (s.afterOthers 1) q
    have hu (b : Word) : u.byteAt b
        = if b = byteAddress a q then (bytesOf s.params.endian w v).getD q 0#8 else s.byteAfter 1 b := by
      simp only [u, writeByte_memory]
      rw [← State.afterOthers_byteAt]
      split
      · rename_i h; subst h
        simp only [State.byteAt, Memory.byte?_put_same]; rfl
      · rename_i h
        simp only [State.byteAt]
        rw [Memory.byte?_put_ne _ _ (fun e => h (BitVec.eq_of_toNat_eq e))]
    have huf : u.foreign = s.foreign.drop 1 := hf
    have hup : u.params = s.params := hp
    rw [List.length_cons, State.noTextWrites_succ (t := u) huf hup] at ht
    obtain ⟨t, h1, h2, h3, h5, h6⟩ := ih (s := u) hn (fun k hk => hr k (List.mem_cons_of_mem _ hk)) ht.2
    have hdiff : ∀ k ∈ rest, byteAddress a q ≠ byteAddress a k := by
      intro k hk e
      have := byteAddress_inj (by omega) (by have := hr k (List.mem_cons_of_mem _ hk); omega) e
      exact hq (this ▸ hk)
    have hdrop (n : Nat) : (u.foreign.take n) = (s.foreign.take (n + 1)).drop 1 := by
      rw [huf, List.drop_take]; rfl
    refine ⟨t, ?_, ?_, ?_, ?_, ?_⟩
    · rw [interleave_cons ht.1]; exact h1
    · rw [h2]; simp only [u, writeByte_memory]; rfl
    · rw [h3]; simp only [u, writeByte_memory]; rfl
    · rintro (_ | j) k hk
      · obtain rfl : q = k := by simpa using hk
        rw [h6 _ hdiff, State.byteAfter, hu, if_pos rfl, hdrop]
        rfl
      · rw [h5 j k (by simpa using hk), hup, hdrop, List.drop_drop, Nat.add_comm 1 (j + 1)]
        rfl
    · intro b hb
      rw [h6 b (fun k hk => hb k (List.mem_cons_of_mem _ hk)), State.byteAfter, hu, if_neg (hb q List.mem_cons_self),
        huf, State.byteAfter, ← lastWritten_append, List.length_cons, State.byteAfter]
      congr 1
      cases s.foreign <;> simp

/-- Bytes written to a device: one output a byte, and no byte of memory written but by other agents. -/
theorem interleave_writeDevice {a : Word} {w : Width} {v : Word} {s : State} {order : List Nat}
    (ht : s.NoTextWrites order.length) :
    ∃ t, interleave (State.writeByte .io a w v) () s order = .ok ((), t)
      ∧ (∀ b, t.byteAt b = s.byteAfter order.length b) ∧ t.draws = s.draws
      ∧ t.events = s.events ++ order.map (fun k =>
          .output (byteAddress a k) .byte (((bytesOf s.params.endian w v).getD k 0#8).setWidth 32)) := by
  induction order generalizing s with
  | nil => exact ⟨s, rfl, fun b => by simp [State.byteAfter, lastWritten], rfl, by simp⟩
  | cons q rest ih =>
    let u : State := (State.writeByte .io a w v () (s.afterOthers 1) q).2
    rw [List.length_cons, State.noTextWrites_succ (t := u) rfl rfl] at ht
    obtain ⟨t, h1, h2, h3, h4⟩ := ih (s := u) ht.2
    refine ⟨t, ?_, ?_, ?_, ?_⟩
    · rw [interleave_cons ht.1]; exact h1
    · intro b
      exact (h2 b).trans (State.byteAfter_afterOthers s rest.length b)
    · exact h3
    · rw [h4, List.map_cons]
      have : ∀ b : Byte, lowBits .byte (b.setWidth 32) = b.setWidth 32 := by intro b; simp [lowBits, byte_of_word]
      simp [u, State.afterOthers, State.writeByte, State.writeDevice, State.record, this]

/-! ## Bytes of a value -/

theorem lt_bytes {w : Width} {k : Nat} (h : k < w.bytes) : k = 0 ∨ k = 1 ∨ k = 2 ∨ k = 3 := by
  have := width_bytes_le w
  omega

/-- The byte a store puts `k` bytes above its address. -/
theorem getD_bytesOf (e : Endian) (w : Width) (v : Word) {k : Nat} (h : k < w.bytes) :
    (bytesOf e w v).getD k 0#8 = byteOfValue e w.bytes k v := by
  rcases lt_bytes h with rfl | rfl | rfl | rfl <;> cases w <;> cases e <;>
    simp_all [bytesOf, littleBytes, Width.bytes, byteOfValue, List.range_succ]

/-- The byte of a value read that comes from `k` bytes above its address. -/
theorem byteOfValue_valueOfRead (e : Endian) (w : Width) (got : List (Nat × Byte)) {k : Nat} (h : k < w.bytes) :
    byteOfValue e w.bytes k (valueOfRead e w.bytes got) = (got.lookup k).getD 0#8 := by
  generalize hb : (fun k => (got.lookup k).getD 0#8) = f
  have hk : (got.lookup k).getD 0#8 = f k := by rw [← hb]
  rw [hk, valueOfRead, hb]
  clear hk hb
  rcases lt_bytes h with rfl | rfl | rfl | rfl <;> cases w <;> first
    | exact absurd h (by decide)
    | (cases e <;>
        simp only [Width.bytes, byteOfValue, valueOf, List.range_succ, List.range_zero, List.map_cons,
          List.map_nil, List.nil_append, List.cons_append, List.reverse_cons, List.reverse_nil, littleValue] <;>
        (apply BitVec.eq_of_getLsbD_eq; intro i hi; interval_cases i <;> simp))

/-- A value read has no more bits than its bytes. -/
theorem valueOfRead_lt (e : Endian) (w : Width) (got : List (Nat × Byte)) :
    (valueOfRead e w.bytes got).toNat < 2 ^ (8 * w.bytes) := by
  have h (v : Word) (hv : v = lowBits w v) : v.toNat < 2 ^ (8 * w.bytes) := by
    rw [hv]
    cases w
    · have := (v.extractLsb' 0 8).isLt
      simp only [lowBits, Width.bytes, BitVec.toNat_setWidth]
      omega
    · have := (v.extractLsb' 0 16).isLt
      simp only [lowBits, Width.bytes, BitVec.toNat_setWidth]
      omega
    · exact v.isLt
  apply h
  cases w <;> cases e <;>
    simp only [Width.bytes, valueOfRead, valueOf, List.range_succ, List.range_zero, List.map_cons,
      List.map_nil, List.nil_append, List.cons_append, List.reverse_cons, List.reverse_nil, littleValue, lowBits] <;>
    (apply BitVec.eq_of_getLsbD_eq; intro i hi; interval_cases i <;> simp)

/-! ## Split accesses as the shared operations perform them -/

/-- A split load completes unless a batch among its bytes touches program text. -/
theorem State.readSplit_cases (s : State) (cls : RegionClass) (a : Word) (w : Width) :
    (s.NoTextWrites w.bytes ∧ ∃ p, s.readSplit cls a w = .done p)
    ∨ (¬ s.NoTextWrites w.bytes ∧ ∃ a', s.readSplit cls a w = .refused (.foreignWriteToText a')) := by
  rcases interleave_cases (readByte_frame cls a) [] s.beginSplit (splitOrder s.splits w) with ⟨h, p, hp⟩ | ⟨h, x, hx⟩
  · exact .inl ⟨by simpa using h, (valueOfRead s.params.endian w.bytes p.1, p.2), by simp [State.readSplit, hp]⟩
  · exact .inr ⟨by simpa using h, x, by simp [State.readSplit, hx]⟩

/-- A split store completes unless a batch among its bytes touches program text. -/
theorem State.writeSplit_cases (s : State) (cls : RegionClass) (a : Word) (w : Width) (v : Word) :
    (s.NoTextWrites w.bytes ∧ ∃ t, s.writeSplit cls a w v = .done t)
    ∨ (¬ s.NoTextWrites w.bytes ∧ ∃ a', s.writeSplit cls a w v = .refused (.foreignWriteToText a')) := by
  rcases interleave_cases (writeByte_frame cls a w v) () s.beginSplit (splitOrder s.splits w) with ⟨h, p, hp⟩ | ⟨h, x, hx⟩
  · exact .inl ⟨by simpa using h, p.2, by simp [State.writeSplit, hp]⟩
  · exact .inr ⟨by simpa using h, x, by simp [State.writeSplit, hx]⟩

/-- What a split access leaves as it is, read or write. -/
def SplitFrame (n : Nat) (s t : State) : Prop :=
  t.regs = s.regs ∧ t.pc = s.pc ∧ t.params = s.params ∧ t.trap = s.trap ∧ t.replies = s.replies
    ∧ t.foreign = s.foreign.drop n ∧ t.splits = s.splits + 1

theorem State.readSplit_frame {s : State} {cls : RegionClass} {a : Word} {w : Width} {p : Word × State}
    (h : s.readSplit cls a w = .done p) : SplitFrame w.bytes s p.2 := by
  unfold State.readSplit at h
  split at h
  · rename_i q hq
    cases h
    simpa [SplitFrame] using interleave_frame (readByte_frame cls a) hq
  · cases h

theorem State.writeSplit_frame {s t : State} {cls : RegionClass} {a : Word} {w : Width} {v : Word}
    (h : s.writeSplit cls a w v = .done t) : SplitFrame w.bytes s t := by
  unfold State.writeSplit at h
  split at h
  · rename_i q hq
    cases h
    simpa [SplitFrame] using interleave_frame (writeByte_frame cls a w v) hq
  · cases h

/-- What every byte read and every landing batch keeps, a split load keeps. -/
theorem State.readSplit_keeps {P : State → Prop} {s : State} {cls : RegionClass} {a : Word} {w : Width}
    {p : Word × State} (hact : ∀ got s k, P s → P (State.readByte cls a got s k).2)
    (hland : ∀ s, P s → s.NoTextWrites 1 → P (s.afterOthers 1)) (hs : P s.beginSplit)
    (h : s.readSplit cls a w = .done p) : P p.2 := by
  unfold State.readSplit at h
  split at h
  · rename_i q hq
    cases h
    exact interleave_keeps hact hland hq hs
  · cases h

/-- What every byte written and every landing batch keeps, a split store keeps. -/
theorem State.writeSplit_keeps {P : State → Prop} {s t : State} {cls : RegionClass} {a : Word} {w : Width} {v : Word}
    (hact : ∀ u s k, P s → P (State.writeByte cls a w v u s k).2)
    (hland : ∀ s, P s → s.NoTextWrites 1 → P (s.afterOthers 1)) (hs : P s.beginSplit)
    (h : s.writeSplit cls a w v = .done t) : P t := by
  unfold State.writeSplit at h
  split at h
  · rename_i q hq
    cases h
    exact interleave_keeps hact hland hq hs
  · cases h

/-- A split load from memory: each byte as it is at its turn, and only the batches change the state. -/
theorem State.readSplit_memory {s : State} {a : Word} {w : Width} (ht : s.NoTextWrites w.bytes) :
    ∃ v, s.readSplit .memory a w = .done (v, s.beginSplit.afterOthers w.bytes) ∧ v.toNat < 2 ^ (8 * w.bytes)
      ∧ ∀ j k, (splitOrder s.splits w)[j]? = some k →
        byteOfValue s.params.endian w.bytes k v = s.byteAfter (j + 1) (byteAddress a k) := by
  obtain ⟨all, h1, h2, -⟩ := interleave_readMemory (a := a) (got := []) (s := s.beginSplit)
    (splitOrder_nodup s.splits w) (by simpa using ht)
  refine ⟨valueOfRead s.params.endian w.bytes all, by simp [State.readSplit, h1], valueOfRead_lt _ _ _, ?_⟩
  intro j k hk
  rw [byteOfValue_valueOfRead _ _ _ (mem_splitOrder.mp (List.mem_of_getElem? hk)), h2 j k hk]
  rfl

/-- With no other agent a split load from memory reads what a whole one reads. -/
theorem State.readSplit_quiet {s : State} (a : Word) (w : Width) (hf : s.foreign = []) :
    s.readSplit .memory a w = .done (s.readMemory a w, s.beginSplit) := by
  obtain ⟨all, h1, h2, -⟩ := interleave_readMemory (a := a) (got := []) (s := s.beginSplit)
    (splitOrder_nodup s.splits w) (by simp [State.NoTextWrites, hf])
  rw [State.afterOthers_quiet (by exact hf)] at h1
  simp only [State.readSplit, h1]
  congr 2
  unfold valueOfRead State.readMemory touched
  rw [List.map_map]
  congr 1
  apply List.map_congr_left
  intro k hk
  obtain ⟨j, hj⟩ := List.mem_iff_getElem?.mp (mem_splitOrder.mpr (List.mem_range.mp hk) : k ∈ splitOrder s.splits w)
  rw [h2 j k hj, State.byteAfter_quiet (by exact hf)]
  rfl

/-- A split load from a device: one byte input for each byte. -/
theorem State.readSplit_io {s : State} {a : Word} {w : Width} (ht : s.NoTextWrites w.bytes) :
    ∃ (v : Word) (t : State) (answer : Nat → Byte), s.readSplit .io a w = .done (v, t) ∧ v.toNat < 2 ^ (8 * w.bytes)
      ∧ (∀ k < w.bytes, byteOfValue s.params.endian w.bytes k v = answer k)
      ∧ (∀ b, t.byteAt b = s.byteAfter w.bytes b) ∧ t.draws = s.draws + w.bytes
      ∧ t.events = s.events
        ++ (splitOrder s.splits w).map (fun k => .input (byteAddress a k) .byte ((answer k).setWidth 32)) := by
  obtain ⟨all, t, h1, h2, h3, h4, -⟩ := interleave_readDevice (a := a) (got := []) (s := s.beginSplit)
    (splitOrder_nodup s.splits w) (by simpa using ht)
  rw [length_splitOrder] at h2 h3
  refine ⟨valueOfRead s.params.endian w.bytes all, t, fun k => (all.lookup k).getD 0#8, by simp [State.readSplit, h1],
    valueOfRead_lt _ _ _, fun k hk => byteOfValue_valueOfRead _ _ _ hk, h2, h3, h4⟩

/-- A split store to memory. -/
theorem State.writeSplit_memory {s : State} {a : Word} {w : Width} {v : Word} (ht : s.NoTextWrites w.bytes) :
    ∃ t, s.writeSplit .memory a w v = .done t ∧ t.draws = s.draws ∧ t.events = s.events
      ∧ (∀ j k, (splitOrder s.splits w)[j]? = some k → t.byteAt (byteAddress a k)
          = lastWritten (byteAddress a k) (byteOfValue s.params.endian w.bytes k v)
            ((s.foreign.take w.bytes).drop (j + 1)).flatten)
      ∧ ∀ b, b ∉ touched a w → t.byteAt b = s.byteAfter w.bytes b := by
  obtain ⟨t, h1, h2, h3, h4, h5⟩ := interleave_writeMemory (a := a) (w := w) (v := v) (s := s.beginSplit)
    (splitOrder_nodup s.splits w) (fun k hk => mem_splitOrder.mp hk) (by simpa using ht)
  rw [length_splitOrder] at h4 h5
  refine ⟨t, by simp [State.writeSplit, h1], h2, h3, ?_, ?_⟩
  · intro j k hk
    rw [h4 j k hk, State.beginSplit_params, getD_bytesOf _ _ _ (mem_splitOrder.mp (List.mem_of_getElem? hk))]
    rfl
  · intro b hb
    exact h5 b fun k hk e => hb (mem_touched.mpr ⟨k, mem_splitOrder.mp hk, e.symm⟩)

/-- With no other agent a split store to memory leaves what a whole one leaves. -/
theorem State.writeSplit_quiet {s : State} {a : Word} {w : Width} {v : Word} (hf : s.foreign = []) :
    ∃ t, s.writeSplit .memory a w v = .done t ∧ t.draws = s.draws ∧ t.events = s.events
      ∧ (∀ k < w.bytes, t.byteAt (byteAddress a k) = byteOfValue s.params.endian w.bytes k v)
      ∧ ∀ b, b ∉ touched a w → t.byteAt b = s.byteAt b := by
  obtain ⟨t, h1, h2, h3, h4, h5⟩ :=
    State.writeSplit_memory (s := s) (a := a) (w := w) (v := v) (by simp [State.NoTextWrites, hf])
  refine ⟨t, h1, h2, h3, ?_, fun b hb => (h5 b hb).trans (State.byteAfter_quiet hf _ _)⟩
  intro k hk
  obtain ⟨j, hj⟩ := List.mem_iff_getElem?.mp (mem_splitOrder.mpr hk : k ∈ splitOrder s.splits w)
  rw [h4 j k hj, hf]
  simp [lastWritten]

/-- A split store to a device: one byte output for each byte. -/
theorem State.writeSplit_io {s : State} {a : Word} {w : Width} {v : Word} (ht : s.NoTextWrites w.bytes) :
    ∃ t, s.writeSplit .io a w v = .done t ∧ (∀ b, t.byteAt b = s.byteAfter w.bytes b) ∧ t.draws = s.draws
      ∧ t.events = s.events ++ (splitOrder s.splits w).map (fun k =>
          .output (byteAddress a k) .byte ((byteOfValue s.params.endian w.bytes k v).setWidth 32)) := by
  obtain ⟨t, h1, h2, h3, h4⟩ := interleave_writeDevice (a := a) (w := w) (v := v) (s := s.beginSplit)
    (order := splitOrder s.splits w) (by simpa using ht)
  rw [length_splitOrder] at h2
  refine ⟨t, by simp [State.writeSplit, h1], h2, h3, h4.trans ?_⟩
  congr 1
  apply List.map_congr_left
  intro k hk
  rw [State.beginSplit_params, getD_bytesOf _ _ _ (mem_splitOrder.mp hk)]

end Sys2Proof.Machine
end

