-- ==== Sys2Proof/Laws/Exec.lean ====
section
/-! SUPPORT. What executing an instruction can do, said once for all instructions: the eleven shapes of its effect, and an
inversion lemma from which the invariants follow. -/

namespace Sys2Proof.Machine

/-- The shapes of a next state of `exec i s`. -/
inductive Effect (i : Instr) (s : State) : State → Prop where
  | computed (rd : RegIdx) (v : Word) : Effect i s (s.setReg rd v).advance
  | moved (target : Word) (h : isAligned target .word = true) : Effect i s (s.setPc target)
  | advanced : Effect i s s.advance
  | jumped (rd : RegIdx) (target : Word) (h : isAligned target .word = true) :
      Effect i s ((s.setReg rd s.nextPc).setPc target)
  | input (a : Word) (w : Width) (rd : RegIdx) (v : Word) : Effect i s ((s.readDevice a w).2.setReg rd v).advance
  | stored (a : Word) (w : Width) (v : Word) (ht : (touched a w).any (isText s.params) = false) :
      Effect i s (s.writeMemory a w v).advance
  | output (a : Word) (w : Width) (v : Word) : Effect i s (s.writeDevice a w v).advance
  | splitRead (cls : RegionClass) (a : Word) (w : Width) (p : Word × State) (rd : RegIdx) (v : Word)
      (hd : (dataAccess i).isSome = true) (h : s.readSplit cls a w = .done p) : Effect i s (p.2.setReg rd v).advance
  | splitWrite (cls : RegionClass) (a : Word) (w : Width) (v : Word) (t : State)
      (hd : (dataAccess i).isSome = true) (ht : (touched a w).any (isText s.params) = false)
      (h : s.writeSplit cls a w v = .done t) : Effect i s t.advance
  | fenced (fm : BitVec 4) (pred succ : AccessSet) : Effect i s (s.record (.fence fm pred succ)).advance
  | trapped (x : Exn) (hr : mayRaise i x.cause = true) (hf : recordFits ⟨x.cause, s.pc, x.info⟩) :
      Effect i s (s.takeTrap x)

variable {i : Instr} {s t : State}

theorem compute_effect {rd : RegIdx} {v : Word} (h : s.compute rd v = .next t) : Effect i s t := by
  cases h; exact .computed rd v

theorem misaligned_fits {a : Word} (h : isAligned a .word = false) (c : Cause)
    (hc : c = .instructionAddressMisaligned ∨ c = .loadAddressMisaligned ∨ c = .storeAddressMisaligned) (pc : Word) :
    recordFits ⟨c, pc, some a⟩ := by
  have : a.toNat % 4 ≠ 0 := fun e => by rw [(isAligned_word a).mpr e] at h; cases h
  rcases hc with rfl | rfl | rfl <;> exact this

theorem width_misaligned {a : Word} {w : Width} (h : isAligned a w = false) : isAligned a .word = false := by
  cases w
  · simp at h
  · rw [Bool.eq_false_iff, Ne, isAligned_half] at h
    rw [Bool.eq_false_iff, Ne, isAligned_word]
    omega
  · exact h

theorem jump_effect {rd : RegIdx} {target : Word} (hi : mayRaise i .instructionAddressMisaligned = true)
    (h : s.jump rd target = .next t) : Effect i s t := by
  cases ha : isAligned target .word with
  | true => rw [State.jump_aligned ha] at h; cases h; exact .jumped rd target ha
  | false =>
    rw [State.jump_misaligned ha] at h; cases h
    exact .trapped _ hi (misaligned_fits ha _ (.inl rfl) _)

theorem branch_effect {b : Bool} {off : BitVec 13} (hi : mayRaise i .instructionAddressMisaligned = true)
    (h : s.branch b off = .next t) : Effect i s t := by
  cases b with
  | false => cases h; exact .advanced
  | true =>
    cases ha : isAligned (s.branchTarget off) .word with
    | true => rw [State.branch_taken ha] at h; cases h; exact .moved _ ha
    | false =>
      rw [State.branch_misaligned ha] at h; cases h
      exact .trapped _ hi (misaligned_fits ha _ (.inl rfl) _)

theorem load_effect {w : Width} {f : Word → Word} {rd rs1 : RegIdx} {imm : BitVec 12}
    (hd : (dataAccess i).isSome = true) (hf : mayRaise i .loadAccessFault = true)
    (hm : w ≠ .byte → mayRaise i .loadAddressMisaligned = true) (h : s.load w f rd rs1 imm = .next t) :
    Effect i s t := by
  rcases State.memRead_cases s (s.effectiveAddress rs1 imm) w with ⟨cls, hr, -⟩ | hr | ⟨hr, ha⟩
  · cases ha : isAligned (s.effectiveAddress rs1 imm) w with
    | true =>
      cases cls with
      | memory => rw [State.load_done (hr.trans (State.performRead_memory ha))] at h; cases h; exact .computed _ _
      | io => rw [State.load_done (hr.trans (State.performRead_io ha))] at h; cases h; exact .input _ _ _ _
    | false =>
      rw [State.performRead_split ha] at hr
      rcases s.readSplit_cases cls (s.effectiveAddress rs1 imm) w with ⟨-, p, hp⟩ | ⟨-, a, hp⟩
      · rw [State.load_done (hr.trans hp)] at h; cases h; exact .splitRead _ _ _ p _ _ hd hp
      · rw [State.load_refused (hr.trans hp)] at h; cases h
  · rw [State.load_raised hr] at h; cases h; exact .trapped _ hf trivial
  · rw [State.load_raised hr] at h; cases h
    refine .trapped _ (hm ?_) (misaligned_fits (width_misaligned ha) _ (.inr (.inl rfl)) _)
    rintro rfl; simp at ha

theorem store_effect {w : Width} {rs2 rs1 : RegIdx} {imm : BitVec 12} (hd : (dataAccess i).isSome = true)
    (hf : mayRaise i .storeAccessFault = true) (hm : w ≠ .byte → mayRaise i .storeAddressMisaligned = true)
    (h : s.store w rs2 rs1 imm = .next t) : Effect i s t := by
  rcases State.memWrite_cases s (s.effectiveAddress rs1 imm) w (s.reg rs2) with
    ⟨cls, hr, -, ht⟩ | hr | ⟨hr, ha⟩ | ⟨hr, -, -⟩
  · cases ha : isAligned (s.effectiveAddress rs1 imm) w with
    | true =>
      cases cls with
      | memory => rw [State.store_done (hr.trans (State.performWrite_memory ha))] at h; cases h; exact .stored _ _ _ ht
      | io => rw [State.store_done (hr.trans (State.performWrite_io ha))] at h; cases h; exact .output _ _ _
    | false =>
      rw [State.performWrite_split ha] at hr
      rcases s.writeSplit_cases cls (s.effectiveAddress rs1 imm) w (s.reg rs2) with ⟨-, p, hp⟩ | ⟨-, a, hp⟩
      · rw [State.store_done (hr.trans hp)] at h; cases h; exact .splitWrite _ _ _ _ p hd ht hp
      · rw [State.store_refused (hr.trans hp)] at h; cases h
  · rw [State.store_raised hr] at h; cases h; exact .trapped _ hf trivial
  · rw [State.store_raised hr] at h; cases h
    refine .trapped _ (hm ?_) (misaligned_fits (width_misaligned ha) _ (.inr (.inr rfl)) _)
    rintro rfl; simp at ha
  · rw [State.store_refused hr] at h; cases h

/-- Every next state of an instruction has one of the eleven shapes. -/
theorem exec_effect (h : exec i s = .next t) : Effect i s t := by
  cases i with
  | addi | slti | sltiu | andi | ori | xori | slli | srli | srai | lui | auipc => exact compute_effect h
  | add | sub | slt | sltu | and | or | xor | sll | srl | sra => exact compute_effect h
  | jal | jalr => exact jump_effect rfl h
  | beq | bne | blt | bge | bltu | bgeu => exact branch_effect rfl h
  | lw | lh | lhu => exact load_effect rfl rfl (fun _ => rfl) h
  | lb | lbu => exact load_effect rfl rfl (fun hw => absurd rfl hw) h
  | sw | sh => exact store_effect rfl rfl (fun _ => rfl) h
  | sb => exact store_effect rfl rfl (fun hw => absurd rfl hw) h
  | fence | fenceTso | pause => cases h; exact .fenced _ _ _
  | ecall | ebreak => cases h; exact .trapped _ rfl rfl

/-- A load completes or raises, or a batch of other agents' writes to program text falls among its bytes. -/
theorem load_next (s : State) (w : Width) (f : Word → Word) (rd rs1 : RegIdx) (imm : BitVec 12) :
    (∃ t, s.load w f rd rs1 imm = .next t)
    ∨ ((∃ a, s.load w f rd rs1 imm = .refused (.foreignWriteToText a)) ∧ ¬ s.NoTextWrites w.bytes) := by
  rcases State.memRead_cases s (s.effectiveAddress rs1 imm) w with ⟨cls, hr, -⟩ | hr | ⟨hr, -⟩
  · cases ha : isAligned (s.effectiveAddress rs1 imm) w with
    | true =>
      cases cls with
      | memory => exact .inl ⟨_, State.load_done (hr.trans (State.performRead_memory ha))⟩
      | io => exact .inl ⟨_, State.load_done (hr.trans (State.performRead_io ha))⟩
    | false =>
      rw [State.performRead_split ha] at hr
      rcases s.readSplit_cases cls (s.effectiveAddress rs1 imm) w with ⟨-, p, hp⟩ | ⟨hn, a, hp⟩
      · exact .inl ⟨_, State.load_done (hr.trans hp)⟩
      · exact .inr ⟨⟨a, State.load_refused (hr.trans hp)⟩, hn⟩
  · exact .inl ⟨_, State.load_raised hr⟩
  · exact .inl ⟨_, State.load_raised hr⟩

theorem store_next (s : State) (w : Width) (rs2 rs1 : RegIdx) (imm : BitVec 12) :
    (∃ t, s.store w rs2 rs1 imm = .next t)
    ∨ ((∃ a, s.store w rs2 rs1 imm = .refused (.foreignWriteToText a)) ∧ ¬ s.NoTextWrites w.bytes)
    ∨ (s.store w rs2 rs1 imm = .refused (.storeToText (s.effectiveAddress rs1 imm))
        ∧ (memmapAnswer s.params .write (s.effectiveAddress rs1 imm) w).isSome = true
        ∧ (touched (s.effectiveAddress rs1 imm) w).any (isText s.params) = true) := by
  rcases State.memWrite_cases s (s.effectiveAddress rs1 imm) w (s.reg rs2) with
    ⟨cls, hr, -, -⟩ | hr | ⟨hr, -⟩ | ⟨hr, h1, h2⟩
  · cases ha : isAligned (s.effectiveAddress rs1 imm) w with
    | true =>
      cases cls with
      | memory => exact .inl ⟨_, State.store_done (hr.trans (State.performWrite_memory ha))⟩
      | io => exact .inl ⟨_, State.store_done (hr.trans (State.performWrite_io ha))⟩
    | false =>
      rw [State.performWrite_split ha] at hr
      rcases s.writeSplit_cases cls (s.effectiveAddress rs1 imm) w (s.reg rs2) with ⟨-, p, hp⟩ | ⟨hn, a, hp⟩
      · exact .inl ⟨_, State.store_done (hr.trans hp)⟩
      · exact .inr (.inl ⟨⟨a, State.store_refused (hr.trans hp)⟩, hn⟩)
  · exact .inl ⟨_, State.store_raised hr⟩
  · exact .inl ⟨_, State.store_raised hr⟩
  · exact .inr (.inr ⟨State.store_refused hr, h1, h2⟩)

/-- An instruction answers a next state, or it is a load or a store among whose bytes another agent writes program text,
or a store that MEMMAP allows to program text; both are refused (D15). -/
theorem exec_next_or_refused (i : Instr) (s : State) :
    (∃ t, exec i s = .next t)
    ∨ ((∃ a, exec i s = .refused (.foreignWriteToText a)) ∧ s.foreign ≠ [])
    ∨ ∃ a w, exec i s = .refused (.storeToText a) ∧ (memmapAnswer s.params .write a w).isSome = true
        ∧ (touched a w).any (isText s.params) = true := by
  have hq {n : Nat} (h : ¬ s.NoTextWrites n) : s.foreign ≠ [] := fun hf => h (by simp [State.NoTextWrites, hf])
  cases i with
  | addi | slti | sltiu | andi | ori | xori | slli | srli | srai | lui | auipc => exact .inl ⟨_, rfl⟩
  | add | sub | slt | sltu | and | or | xor | sll | srl | sra => exact .inl ⟨_, rfl⟩
  | jal rd off =>
    cases ha : isAligned (s.jalTarget off) .word with
    | true => exact .inl ⟨_, State.jump_aligned ha⟩
    | false => exact .inl ⟨_, State.jump_misaligned ha⟩
  | jalr rd rs1 imm =>
    cases ha : isAligned (s.jalrTarget rs1 imm) .word with
    | true => exact .inl ⟨_, State.jump_aligned ha⟩
    | false => exact .inl ⟨_, State.jump_misaligned ha⟩
  | beq _ _ off | bne _ _ off | blt _ _ off | bge _ _ off | bltu _ _ off | bgeu _ _ off =>
    left
    simp only [exec, execBeq, execBne, execBlt, execBge, execBltu, execBgeu, State.branch]
    split
    · split <;> exact ⟨_, rfl⟩
    · exact ⟨_, rfl⟩
  | lw rd rs1 imm | lh rd rs1 imm | lhu rd rs1 imm | lb rd rs1 imm | lbu rd rs1 imm =>
    rcases load_next s _ _ rd rs1 imm with h | ⟨h, hn⟩
    · exact .inl h
    · exact .inr (.inl ⟨h, hq hn⟩)
  | sw rs2 rs1 imm | sh rs2 rs1 imm | sb rs2 rs1 imm =>
    rcases store_next s _ rs2 rs1 imm with h | ⟨h, hn⟩ | h
    · exact .inl h
    · exact .inr (.inl ⟨h, hq hn⟩)
    · exact .inr (.inr ⟨_, _, h⟩)
  | fence | fenceTso | pause => exact .inl ⟨_, rfl⟩
  | ecall | ebreak => exact .inl ⟨_, rfl⟩

/-! ## Frames of the shared ends -/

theorem compute_writesOnly (s : State) (rd : RegIdx) (v : Word) :
    Completes (s.compute rd v) (WritesOnly rd v (s.pc + 4#32) s) := by
  refine ⟨_, rfl, ?_, ?_, ?_, ?_, ⟨?_, ?_, ?_, ?_⟩, ?_, ?_, ?_⟩
  · simpa using State.reg_setReg_same s rd v
  · simp [State.nextPc]
  · intro r hr; simpa using State.reg_setReg_ne s v hr
  · intro a; simp
  all_goals simp

theorem jump_writesOnly {s : State} {rd : RegIdx} {target : Word} (h : isAligned target .word = true) :
    Completes (s.jump rd target) (WritesOnly rd (s.pc + 4#32) target s) := by
  refine ⟨_, State.jump_aligned h, ?_, rfl, ?_, ?_, ⟨?_, ?_, ?_, ?_⟩, ?_, ?_, ?_⟩
  · exact State.reg_setReg_same s rd s.nextPc
  · intro r hr; simpa using State.reg_setReg_ne s s.nextPc hr
  · intro a; simp
  all_goals simp

theorem setPc_movesOnly (s : State) (target : Word) : MovesOnly target s (s.setPc target) :=
  ⟨rfl, fun _ => rfl, fun _ => rfl, ⟨rfl, rfl, rfl, rfl⟩, rfl, rfl, rfl⟩

/-- Taking a trap is the record and nothing else. -/
theorem takeTrap_traps (s : State) (c : Cause) (info : Option Word) :
    Traps (.next (s.takeTrap ⟨c, info⟩)) s c info := rfl

end Sys2Proof.Machine
end

