-- ==== Sys2Proof/Laws/PerInstr.lean ====
section
/-! SUPPORT. One lemma per instruction: the word of a well-formed instruction meets a row of the opcode table, and that row
builds the instruction back. The host's case split over `Instr` joins them. -/

namespace Sys2Proof.Laws

/-- The word of the instruction meets a row of the table (R86 to R92) whose fields are the instruction's. -/
def HitsRow.Statement (i : Instr) : Prop :=
  WellFormed i = true → ∃ r ∈ opcodeTable, r.hits (encode i) = true ∧ r.build (encode i) = i

variable {k : Nat} {pattern : Word} {f3 : BitVec 3} {f7 op : BitVec 7} {w : Word}

theorem hits_of {r : OpRow} {i : Instr} (hk : opcodeTable[k]? = some r) (hm : encode i &&& r.mask = r.pattern)
    (hb : r.build (encode i) = i) : HitsRow.Statement i :=
  fun _ => ⟨r, List.mem_of_getElem? hk, by simp [OpRow.hits, hm], hb⟩

theorem hits_rowI {f : RegIdx → RegIdx → BitVec 12 → Instr} (hk : opcodeTable[k]? = some (rowI pattern f))
    (hp : encodeI 0#12 0#5 f3 0#5 op = pattern) (rd rs1 : RegIdx) (imm : BitVec 12)
    (he : encode (f rd rs1 imm) = encodeI imm rs1 f3 rd op) : HitsRow.Statement (f rd rs1 imm) := by
  obtain ⟨h1, h2, h3⟩ := encodeI_fields rs1 rd f3 op imm
  refine hits_of hk ?_ ?_ <;> rw [he]
  · exact (encodeI_masked ..).trans hp
  · simp only [rowI, h1, h2, h3]

theorem hits_rowShift {f : RegIdx → RegIdx → BitVec 5 → Instr} (hk : opcodeTable[k]? = some (rowShift pattern f))
    (hp : encodeR f7 0#5 0#5 f3 0#5 op = pattern) (rd rs1 : RegIdx) (shamt : BitVec 5)
    (he : encode (f rd rs1 shamt) = encodeR f7 shamt rs1 f3 rd op) : HitsRow.Statement (f rd rs1 shamt) := by
  obtain ⟨h1, h2, h3⟩ := encodeR_fields f7 shamt rs1 rd f3 op
  refine hits_of hk ?_ ?_ <;> rw [he]
  · exact (encodeR_masked ..).trans hp
  · simp only [rowShift, h1, h2]
    exact congrArg (f rd rs1) h3

theorem hits_rowR {f : RegIdx → RegIdx → RegIdx → Instr} (hk : opcodeTable[k]? = some (rowR pattern f))
    (hp : encodeR f7 0#5 0#5 f3 0#5 op = pattern) (rd rs1 rs2 : RegIdx)
    (he : encode (f rd rs1 rs2) = encodeR f7 rs2 rs1 f3 rd op) : HitsRow.Statement (f rd rs1 rs2) := by
  obtain ⟨h1, h2, h3⟩ := encodeR_fields f7 rs2 rs1 rd f3 op
  refine hits_of hk ?_ ?_ <;> rw [he]
  · exact (encodeR_masked ..).trans hp
  · simp only [rowR, h1, h2, h3]

theorem hits_rowU {f : RegIdx → BitVec 20 → Instr} (hk : opcodeTable[k]? = some (rowU pattern f))
    (hp : encodeU 0#20 0#5 op = pattern) (rd : RegIdx) (imm20 : BitVec 20)
    (he : encode (f rd imm20) = encodeU imm20 rd op) : HitsRow.Statement (f rd imm20) := by
  obtain ⟨h1, h2⟩ := encodeU_fields rd op imm20
  refine hits_of hk ?_ ?_ <;> rw [he]
  · exact (encodeU_masked ..).trans hp
  · simp only [rowU, h1, h2]

theorem hits_rowJ {f : RegIdx → BitVec 21 → Instr} (hk : opcodeTable[k]? = some (rowJ pattern f))
    (hp : encodeJ 0#21 0#5 op = pattern) (rd : RegIdx) (off : BitVec 21)
    (hw : WellFormed (f rd off) = jumpOffsetOk off)
    (he : encode (f rd off) = encodeJ off rd op) : HitsRow.Statement (f rd off) := by
  intro h
  rw [hw] at h
  obtain ⟨h1, h2⟩ := encodeJ_fields rd op off h
  refine hits_of hk ?_ ?_ (hw.trans h) <;> rw [he]
  · exact (encodeJ_masked ..).trans hp
  · simp only [rowJ, h1, h2]

theorem hits_rowB {f : RegIdx → RegIdx → BitVec 13 → Instr} (hk : opcodeTable[k]? = some (rowB pattern f))
    (hp : encodeB 0#13 0#5 0#5 f3 op = pattern) (rs1 rs2 : RegIdx) (off : BitVec 13)
    (hw : WellFormed (f rs1 rs2 off) = branchOffsetOk off)
    (he : encode (f rs1 rs2 off) = encodeB off rs2 rs1 f3 op) : HitsRow.Statement (f rs1 rs2 off) := by
  intro h
  rw [hw] at h
  obtain ⟨h1, h2, h3⟩ := encodeB_fields rs2 rs1 f3 op off h
  refine hits_of hk ?_ ?_ (hw.trans h) <;> rw [he]
  · exact (encodeB_masked ..).trans hp
  · simp only [rowB, h1, h2, h3]

theorem hits_rowS {f : RegIdx → RegIdx → BitVec 12 → Instr} (hk : opcodeTable[k]? = some (rowS pattern f))
    (hp : encodeS 0#12 0#5 0#5 f3 op = pattern) (rs2 rs1 : RegIdx) (imm : BitVec 12)
    (he : encode (f rs2 rs1 imm) = encodeS imm rs2 rs1 f3 op) : HitsRow.Statement (f rs2 rs1 imm) := by
  obtain ⟨h1, h2, h3⟩ := encodeS_fields rs2 rs1 f3 op imm
  refine hits_of hk ?_ ?_ <;> rw [he]
  · exact (encodeS_masked ..).trans hp
  · simp only [rowS, h1, h2, h3]

theorem hits_rowWord {i : Instr} (hk : opcodeTable[k]? = some (rowWord w i)) (he : encode i = w) :
    HitsRow.Statement i := by
  refine hits_of hk ?_ rfl
  rw [he]
  exact BitVec.and_allOnes

theorem HitsRow.addi (rd rs1 : RegIdx) (imm : BitVec 12) : HitsRow.Statement (.addi rd rs1 imm) :=
  hits_rowI (k := 0) rfl (by decide) rd rs1 imm rfl

theorem HitsRow.slti (rd rs1 : RegIdx) (imm : BitVec 12) : HitsRow.Statement (.slti rd rs1 imm) :=
  hits_rowI (k := 1) rfl (by decide) rd rs1 imm rfl

theorem HitsRow.sltiu (rd rs1 : RegIdx) (imm : BitVec 12) : HitsRow.Statement (.sltiu rd rs1 imm) :=
  hits_rowI (k := 2) rfl (by decide) rd rs1 imm rfl

theorem HitsRow.andi (rd rs1 : RegIdx) (imm : BitVec 12) : HitsRow.Statement (.andi rd rs1 imm) :=
  hits_rowI (k := 3) rfl (by decide) rd rs1 imm rfl

theorem HitsRow.ori (rd rs1 : RegIdx) (imm : BitVec 12) : HitsRow.Statement (.ori rd rs1 imm) :=
  hits_rowI (k := 4) rfl (by decide) rd rs1 imm rfl

theorem HitsRow.xori (rd rs1 : RegIdx) (imm : BitVec 12) : HitsRow.Statement (.xori rd rs1 imm) :=
  hits_rowI (k := 5) rfl (by decide) rd rs1 imm rfl

theorem HitsRow.slli (rd rs1 : RegIdx) (shamt : BitVec 5) : HitsRow.Statement (.slli rd rs1 shamt) :=
  hits_rowShift (k := 6) rfl (by decide) rd rs1 shamt rfl

theorem HitsRow.srli (rd rs1 : RegIdx) (shamt : BitVec 5) : HitsRow.Statement (.srli rd rs1 shamt) :=
  hits_rowShift (k := 7) rfl (by decide) rd rs1 shamt rfl

theorem HitsRow.srai (rd rs1 : RegIdx) (shamt : BitVec 5) : HitsRow.Statement (.srai rd rs1 shamt) :=
  hits_rowShift (k := 8) rfl (by decide) rd rs1 shamt rfl

theorem HitsRow.lui (rd : RegIdx) (imm20 : BitVec 20) : HitsRow.Statement (.lui rd imm20) :=
  hits_rowU (k := 9) rfl (by decide) rd imm20 rfl

theorem HitsRow.auipc (rd : RegIdx) (imm20 : BitVec 20) : HitsRow.Statement (.auipc rd imm20) :=
  hits_rowU (k := 10) rfl (by decide) rd imm20 rfl

theorem HitsRow.add (rd rs1 rs2 : RegIdx) : HitsRow.Statement (.add rd rs1 rs2) :=
  hits_rowR (k := 11) rfl (by decide) rd rs1 rs2 rfl

theorem HitsRow.sub (rd rs1 rs2 : RegIdx) : HitsRow.Statement (.sub rd rs1 rs2) :=
  hits_rowR (k := 12) rfl (by decide) rd rs1 rs2 rfl

theorem HitsRow.slt (rd rs1 rs2 : RegIdx) : HitsRow.Statement (.slt rd rs1 rs2) :=
  hits_rowR (k := 13) rfl (by decide) rd rs1 rs2 rfl

theorem HitsRow.sltu (rd rs1 rs2 : RegIdx) : HitsRow.Statement (.sltu rd rs1 rs2) :=
  hits_rowR (k := 14) rfl (by decide) rd rs1 rs2 rfl

theorem HitsRow.and (rd rs1 rs2 : RegIdx) : HitsRow.Statement (.and rd rs1 rs2) :=
  hits_rowR (k := 15) rfl (by decide) rd rs1 rs2 rfl

theorem HitsRow.or (rd rs1 rs2 : RegIdx) : HitsRow.Statement (.or rd rs1 rs2) :=
  hits_rowR (k := 16) rfl (by decide) rd rs1 rs2 rfl

theorem HitsRow.xor (rd rs1 rs2 : RegIdx) : HitsRow.Statement (.xor rd rs1 rs2) :=
  hits_rowR (k := 17) rfl (by decide) rd rs1 rs2 rfl

theorem HitsRow.sll (rd rs1 rs2 : RegIdx) : HitsRow.Statement (.sll rd rs1 rs2) :=
  hits_rowR (k := 18) rfl (by decide) rd rs1 rs2 rfl

theorem HitsRow.srl (rd rs1 rs2 : RegIdx) : HitsRow.Statement (.srl rd rs1 rs2) :=
  hits_rowR (k := 19) rfl (by decide) rd rs1 rs2 rfl

theorem HitsRow.sra (rd rs1 rs2 : RegIdx) : HitsRow.Statement (.sra rd rs1 rs2) :=
  hits_rowR (k := 20) rfl (by decide) rd rs1 rs2 rfl

theorem HitsRow.jal (rd : RegIdx) (off : BitVec 21) : HitsRow.Statement (.jal rd off) :=
  hits_rowJ (k := 21) rfl (by decide) rd off rfl rfl

theorem HitsRow.jalr (rd rs1 : RegIdx) (imm : BitVec 12) : HitsRow.Statement (.jalr rd rs1 imm) :=
  hits_rowI (k := 22) rfl (by decide) rd rs1 imm rfl

theorem HitsRow.beq (rs1 rs2 : RegIdx) (off : BitVec 13) : HitsRow.Statement (.beq rs1 rs2 off) :=
  hits_rowB (k := 23) rfl (by decide) rs1 rs2 off rfl rfl

theorem HitsRow.bne (rs1 rs2 : RegIdx) (off : BitVec 13) : HitsRow.Statement (.bne rs1 rs2 off) :=
  hits_rowB (k := 24) rfl (by decide) rs1 rs2 off rfl rfl

theorem HitsRow.blt (rs1 rs2 : RegIdx) (off : BitVec 13) : HitsRow.Statement (.blt rs1 rs2 off) :=
  hits_rowB (k := 25) rfl (by decide) rs1 rs2 off rfl rfl

theorem HitsRow.bge (rs1 rs2 : RegIdx) (off : BitVec 13) : HitsRow.Statement (.bge rs1 rs2 off) :=
  hits_rowB (k := 26) rfl (by decide) rs1 rs2 off rfl rfl

theorem HitsRow.bltu (rs1 rs2 : RegIdx) (off : BitVec 13) : HitsRow.Statement (.bltu rs1 rs2 off) :=
  hits_rowB (k := 27) rfl (by decide) rs1 rs2 off rfl rfl

theorem HitsRow.bgeu (rs1 rs2 : RegIdx) (off : BitVec 13) : HitsRow.Statement (.bgeu rs1 rs2 off) :=
  hits_rowB (k := 28) rfl (by decide) rs1 rs2 off rfl rfl

theorem HitsRow.lw (rd rs1 : RegIdx) (imm : BitVec 12) : HitsRow.Statement (.lw rd rs1 imm) :=
  hits_rowI (k := 29) rfl (by decide) rd rs1 imm rfl

theorem HitsRow.lh (rd rs1 : RegIdx) (imm : BitVec 12) : HitsRow.Statement (.lh rd rs1 imm) :=
  hits_rowI (k := 30) rfl (by decide) rd rs1 imm rfl

theorem HitsRow.lhu (rd rs1 : RegIdx) (imm : BitVec 12) : HitsRow.Statement (.lhu rd rs1 imm) :=
  hits_rowI (k := 31) rfl (by decide) rd rs1 imm rfl

theorem HitsRow.lb (rd rs1 : RegIdx) (imm : BitVec 12) : HitsRow.Statement (.lb rd rs1 imm) :=
  hits_rowI (k := 32) rfl (by decide) rd rs1 imm rfl

theorem HitsRow.lbu (rd rs1 : RegIdx) (imm : BitVec 12) : HitsRow.Statement (.lbu rd rs1 imm) :=
  hits_rowI (k := 33) rfl (by decide) rd rs1 imm rfl

theorem HitsRow.sw (rs2 rs1 : RegIdx) (imm : BitVec 12) : HitsRow.Statement (.sw rs2 rs1 imm) :=
  hits_rowS (k := 34) rfl (by decide) rs2 rs1 imm rfl

theorem HitsRow.sh (rs2 rs1 : RegIdx) (imm : BitVec 12) : HitsRow.Statement (.sh rs2 rs1 imm) :=
  hits_rowS (k := 35) rfl (by decide) rs2 rs1 imm rfl

theorem HitsRow.sb (rs2 rs1 : RegIdx) (imm : BitVec 12) : HitsRow.Statement (.sb rs2 rs1 imm) :=
  hits_rowS (k := 36) rfl (by decide) rs2 rs1 imm rfl

theorem HitsRow.fence (fm : BitVec 4) (pred succ : AccessSet) (rs1 rd : RegIdx) :
    HitsRow.Statement (.fence fm pred succ rs1 rd) := by
  obtain ⟨h1, h2, h3, h4, h5⟩ := encodeFence_fields rs1 rd fm pred succ
  refine hits_of (k := 41) (r := rowFence) rfl ?_ ?_
  · exact encodeFence_masked ..
  · simp only [rowFence, encode, h1, h2, h3, h4, h5]

theorem HitsRow.fenceTso : HitsRow.Statement .fenceTso :=
  hits_rowWord (k := 39) rfl (by decide)

theorem HitsRow.pause : HitsRow.Statement .pause :=
  hits_rowWord (k := 40) rfl (by decide)

theorem HitsRow.ecall : HitsRow.Statement .ecall :=
  hits_rowWord (k := 37) rfl (by decide)

theorem HitsRow.ebreak : HitsRow.Statement .ebreak :=
  hits_rowWord (k := 38) rfl (by decide)

end Sys2Proof.Laws
end

