-- ==== Sys2Proof/Tests/Slice0.lean ====
section
/-! SUPPORT. The model's own tests: WellFormed refuses what it must, words written out bit by bit from the encodings of
30_encoding.md decode to what they stand for, and single steps give what 95_test_vectors.md and the rules' examples give;
then, for each statement with hypotheses, a state and operands that meet them. -/

set_option maxRecDepth 4000

namespace Sys2Proof.Tests

open Sys2Proof.Machine

/-! ## WellFormed -/

theorem test_wf_refuses_odd_branch : WellFormed (.beq 1#5 2#5 3#13) = false := by decide
theorem test_wf_refuses_odd_branch_each :
    WellFormed (.bne 0#5 0#5 1#13) = false ∧ WellFormed (.blt 0#5 0#5 1#13) = false
      ∧ WellFormed (.bge 0#5 0#5 1#13) = false ∧ WellFormed (.bltu 0#5 0#5 1#13) = false
      ∧ WellFormed (.bgeu 0#5 0#5 1#13) = false := by decide
theorem test_wf_refuses_odd_jal : WellFormed (.jal 1#5 1#21) = false := by decide
theorem test_wf_refuses_fence_with_tso_fields : WellFormed (.fence 0b1000#4 .rw .rw 0#5 0#5) = false := by decide
theorem test_wf_refuses_fence_with_pause_fields : WellFormed (.fence 0#4 .write .none 0#5 0#5) = false := by decide
theorem test_wf_accepts_misaligned_even_offset : WellFormed (.jal 0#5 2#21) = true := by decide

/-! ## Decoding: every constructor's word, field by field from R72 to R92 -/

theorem test_decode_addi :
    decode (0b111111111111#12 ++ 0b00110#5 ++ 0b000#3 ++ 0b00101#5 ++ 0b0010011#7)
      = .ok (.addi 5#5 6#5 (-1#12)) := by decide

theorem test_decode_slti :
    decode (0b100000000000#12 ++ 0b00110#5 ++ 0b010#3 ++ 0b00101#5 ++ 0b0010011#7)
      = .ok (.slti 5#5 6#5 (-2048#12)) := by decide

theorem test_decode_sltiu :
    decode (0b011111111111#12 ++ 0b00110#5 ++ 0b011#3 ++ 0b00101#5 ++ 0b0010011#7)
      = .ok (.sltiu 5#5 6#5 (2047#12)) := by decide

theorem test_decode_andi :
    decode (0b000011110000#12 ++ 0b00110#5 ++ 0b111#3 ++ 0b00101#5 ++ 0b0010011#7)
      = .ok (.andi 5#5 6#5 (240#12)) := by decide

theorem test_decode_ori :
    decode (0b000000000001#12 ++ 0b00110#5 ++ 0b110#3 ++ 0b00101#5 ++ 0b0010011#7)
      = .ok (.ori 5#5 6#5 (1#12)) := by decide

theorem test_decode_xori :
    decode (0b111111111111#12 ++ 0b00110#5 ++ 0b100#3 ++ 0b00101#5 ++ 0b0010011#7)
      = .ok (.xori 5#5 6#5 (-1#12)) := by decide

theorem test_decode_slli :
    decode (0b0000000#7 ++ 0b10100#5 ++ 0b00110#5 ++ 0b001#3 ++ 0b00101#5 ++ 0b0010011#7)
      = .ok (.slli 5#5 6#5 20#5) := by decide

theorem test_decode_srli :
    decode (0b0000000#7 ++ 0b10100#5 ++ 0b00110#5 ++ 0b101#3 ++ 0b00101#5 ++ 0b0010011#7)
      = .ok (.srli 5#5 6#5 20#5) := by decide

theorem test_decode_srai :
    decode (0b0100000#7 ++ 0b10100#5 ++ 0b00110#5 ++ 0b101#3 ++ 0b00101#5 ++ 0b0010011#7)
      = .ok (.srai 5#5 6#5 20#5) := by decide

theorem test_decode_lui :
    decode (0b00010010001101000101#20 ++ 0b00101#5 ++ 0b0110111#7)
      = .ok (.lui 5#5 0x12345#20) := by decide

theorem test_decode_auipc :
    decode (0b00010010001101000101#20 ++ 0b00101#5 ++ 0b0010111#7)
      = .ok (.auipc 5#5 0x12345#20) := by decide

theorem test_decode_add :
    decode (0b0000000#7 ++ 0b00111#5 ++ 0b00110#5 ++ 0b000#3 ++ 0b00101#5 ++ 0b0110011#7)
      = .ok (.add 5#5 6#5 7#5) := by decide

theorem test_decode_sub :
    decode (0b0100000#7 ++ 0b00111#5 ++ 0b00110#5 ++ 0b000#3 ++ 0b00101#5 ++ 0b0110011#7)
      = .ok (.sub 5#5 6#5 7#5) := by decide

theorem test_decode_slt :
    decode (0b0000000#7 ++ 0b00111#5 ++ 0b00110#5 ++ 0b010#3 ++ 0b00101#5 ++ 0b0110011#7)
      = .ok (.slt 5#5 6#5 7#5) := by decide

theorem test_decode_sltu :
    decode (0b0000000#7 ++ 0b00111#5 ++ 0b00110#5 ++ 0b011#3 ++ 0b00101#5 ++ 0b0110011#7)
      = .ok (.sltu 5#5 6#5 7#5) := by decide

theorem test_decode_and :
    decode (0b0000000#7 ++ 0b00111#5 ++ 0b00110#5 ++ 0b111#3 ++ 0b00101#5 ++ 0b0110011#7)
      = .ok (.and 5#5 6#5 7#5) := by decide

theorem test_decode_or :
    decode (0b0000000#7 ++ 0b00111#5 ++ 0b00110#5 ++ 0b110#3 ++ 0b00101#5 ++ 0b0110011#7)
      = .ok (.or 5#5 6#5 7#5) := by decide

theorem test_decode_xor :
    decode (0b0000000#7 ++ 0b00111#5 ++ 0b00110#5 ++ 0b100#3 ++ 0b00101#5 ++ 0b0110011#7)
      = .ok (.xor 5#5 6#5 7#5) := by decide

theorem test_decode_sll :
    decode (0b0000000#7 ++ 0b00111#5 ++ 0b00110#5 ++ 0b001#3 ++ 0b00101#5 ++ 0b0110011#7)
      = .ok (.sll 5#5 6#5 7#5) := by decide

theorem test_decode_srl :
    decode (0b0000000#7 ++ 0b00111#5 ++ 0b00110#5 ++ 0b101#3 ++ 0b00101#5 ++ 0b0110011#7)
      = .ok (.srl 5#5 6#5 7#5) := by decide

theorem test_decode_sra :
    decode (0b0100000#7 ++ 0b00111#5 ++ 0b00110#5 ++ 0b101#3 ++ 0b00101#5 ++ 0b0110011#7)
      = .ok (.sra 5#5 6#5 7#5) := by decide

theorem test_decode_jal :
    decode (0b1#1 ++ 0b1111111110#10 ++ 0b1#1 ++ 0b11111111#8 ++ 0b00001#5 ++ 0b1101111#7)
      = .ok (.jal 1#5 (-4#21)) := by decide

theorem test_decode_jalr :
    decode (0b111111111100#12 ++ 0b00110#5 ++ 0b000#3 ++ 0b00101#5 ++ 0b1100111#7)
      = .ok (.jalr 5#5 6#5 (-4#12)) := by decide

theorem test_decode_beq :
    decode (0b0#1 ++ 0b000000#6 ++ 0b00110#5 ++ 0b00101#5 ++ 0b000#3 ++ 0b1000#4 ++ 0b1#1 ++ 0b1100011#7)
      = .ok (.beq 5#5 6#5 2064#13) := by decide

theorem test_decode_bne :
    decode (0b0#1 ++ 0b000000#6 ++ 0b00110#5 ++ 0b00101#5 ++ 0b001#3 ++ 0b1000#4 ++ 0b1#1 ++ 0b1100011#7)
      = .ok (.bne 5#5 6#5 2064#13) := by decide

theorem test_decode_blt :
    decode (0b0#1 ++ 0b000000#6 ++ 0b00110#5 ++ 0b00101#5 ++ 0b100#3 ++ 0b1000#4 ++ 0b1#1 ++ 0b1100011#7)
      = .ok (.blt 5#5 6#5 2064#13) := by decide

theorem test_decode_bge :
    decode (0b0#1 ++ 0b000000#6 ++ 0b00110#5 ++ 0b00101#5 ++ 0b101#3 ++ 0b1000#4 ++ 0b1#1 ++ 0b1100011#7)
      = .ok (.bge 5#5 6#5 2064#13) := by decide

theorem test_decode_bltu :
    decode (0b0#1 ++ 0b000000#6 ++ 0b00110#5 ++ 0b00101#5 ++ 0b110#3 ++ 0b1000#4 ++ 0b1#1 ++ 0b1100011#7)
      = .ok (.bltu 5#5 6#5 2064#13) := by decide

theorem test_decode_bgeu :
    decode (0b0#1 ++ 0b000000#6 ++ 0b00110#5 ++ 0b00101#5 ++ 0b111#3 ++ 0b1000#4 ++ 0b1#1 ++ 0b1100011#7)
      = .ok (.bgeu 5#5 6#5 2064#13) := by decide

theorem test_decode_lw :
    decode (0b000000001000#12 ++ 0b00110#5 ++ 0b010#3 ++ 0b00101#5 ++ 0b0000011#7)
      = .ok (.lw 5#5 6#5 (8#12)) := by decide

theorem test_decode_lh :
    decode (0b000000000010#12 ++ 0b00110#5 ++ 0b001#3 ++ 0b00101#5 ++ 0b0000011#7)
      = .ok (.lh 5#5 6#5 (2#12)) := by decide

theorem test_decode_lhu :
    decode (0b000000000110#12 ++ 0b00110#5 ++ 0b101#3 ++ 0b00101#5 ++ 0b0000011#7)
      = .ok (.lhu 5#5 6#5 (6#12)) := by decide

theorem test_decode_lb :
    decode (0b111111111111#12 ++ 0b00110#5 ++ 0b000#3 ++ 0b00101#5 ++ 0b0000011#7)
      = .ok (.lb 5#5 6#5 (-1#12)) := by decide

theorem test_decode_lbu :
    decode (0b000000000000#12 ++ 0b00110#5 ++ 0b100#3 ++ 0b00101#5 ++ 0b0000011#7)
      = .ok (.lbu 5#5 6#5 (0#12)) := by decide

theorem test_decode_sw :
    decode (0b1111111#7 ++ 0b00111#5 ++ 0b00110#5 ++ 0b010#3 ++ 0b11100#5 ++ 0b0100011#7)
      = .ok (.sw 7#5 6#5 (-4#12)) := by decide

theorem test_decode_sh :
    decode (0b1111111#7 ++ 0b00111#5 ++ 0b00110#5 ++ 0b001#3 ++ 0b11100#5 ++ 0b0100011#7)
      = .ok (.sh 7#5 6#5 (-4#12)) := by decide

theorem test_decode_sb :
    decode (0b1111111#7 ++ 0b00111#5 ++ 0b00110#5 ++ 0b000#3 ++ 0b11100#5 ++ 0b0100011#7)
      = .ok (.sb 7#5 6#5 (-4#12)) := by decide

theorem test_decode_fence :
    decode (0b1111#4 ++ 0b1000#4 ++ 0b0110#4 ++ 0b00101#5 ++ 0b000#3 ++ 0b10101#5 ++ 0b0001111#7)
      = .ok (.fence 0b1111#4 ⟨true, false, false, false⟩ ⟨false, true, true, false⟩ 5#5 21#5) := by decide

theorem test_decode_fenceTso :
    decode (0b1000#4 ++ 0b0011#4 ++ 0b0011#4 ++ 0b00000#5 ++ 0b000#3 ++ 0b00000#5 ++ 0b0001111#7)
      = .ok (.fenceTso) := by decide

theorem test_decode_pause :
    decode (0b0000#4 ++ 0b0001#4 ++ 0b0000#4 ++ 0b00000#5 ++ 0b000#3 ++ 0b00000#5 ++ 0b0001111#7)
      = .ok (.pause) := by decide

theorem test_decode_ecall :
    decode (0b000000000000#12 ++ 0b00000#5 ++ 0b000#3 ++ 0b00000#5 ++ 0b1110011#7)
      = .ok (.ecall) := by decide

theorem test_decode_ebreak :
    decode (0b000000000001#12 ++ 0b00000#5 ++ 0b000#3 ++ 0b00000#5 ++ 0b1110011#7)
      = .ok (.ebreak) := by decide


/-- The words and purposes of the named HINTs (R214). -/
theorem test_named_hints :
    [(0x00200033#32, HintPurpose.ntlP1), (0x00300033#32, .ntlPall), (0x00400033#32, .ntlS1), (0x00500033#32, .ntlAll),
      (0x01F01013#32, .semihostingEntry), (0x40705013#32, .semihostingExit), (0x0100000F#32, .pause)].all
      (fun p => (decode p.1).toOption.bind hintOf == some p.2) = true := by decide

/-- A reserved word of each class of R93 (95_test_vectors.md section 2.11). -/
theorem test_reserved_classes :
    [(0x00000000#32, Reserved.notWordLength), (0x0000007F#32, .unusedOpcode), (0x40431293#32, .opImmShift),
      (0x027302B3#32, .op), (0x00002063#32, .branch), (0x00033283#32, .load), (0x00733023#32, .store),
      (0x000290E7#32, .jalr), (0x0000100F#32, .miscMem), (0x00200073#32, .system)].all
      (fun p => decode p.1 == .error p.2) = true := by decide

/-- `decodeTableWord` reads the bytes as they lie in memory. -/
theorem test_decodeTableWord :
    decodeTableWord 32 0xFFF30293 = some (.addi 5#5 6#5 (-1#12)) ∧ decodeTableWord 32 0 = none := by decide

/-! ## Helpers -/

/-- The state after reset with registers written. -/
def st (regs : List (RegIdx × Word)) : State := State.reset.setRegs regs

/-- The same with bytes in memory. -/
def stMem (regs : List (RegIdx × Word)) (a : Word) (bytes : List Byte) : State :=
  { st regs with mem := Memory.putAll [] a bytes }

/-- The eight bytes the load vectors of 95_test_vectors.md start from. -/
def loadBytes : List Byte := [0x80#8, 0x81#8, 0x82#8, 0x83#8, 0x04#8, 0x05#8, 0x06#8, 0xF7#8]

/-- The eight bytes the store vectors start from. -/
def storeBytes : List Byte := [0x10#8, 0x11#8, 0x22#8, 0x33#8, 0x44#8, 0x55#8, 0x66#8, 0x77#8]

/-- The next state, if the outcome is one. -/
def next? : Host.Outcome State Fault Refusal → Option State
  | .next t => some t
  | .fault _ => none
  | .refused _ => none

def regAfter (o : Host.Outcome State Fault Refusal) (r : RegIdx) : Option Word := (next? o).map (·.reg r)
def pcAfter (o : Host.Outcome State Fault Refusal) : Option Word := (next? o).map State.pc
def trapAfter (o : Host.Outcome State Fault Refusal) : Option (Option TrapRecord) := (next? o).map State.trap
def memAfter (o : Host.Outcome State Fault Refusal) : Option Memory := (next? o).map State.mem

/-! ## Single steps -/

theorem test_addi_wraps :
    regAfter (exec (.addi 5#5 6#5 2047#12) (st [(6#5, 0x7FFFFFFF#32)])) 5#5 = some 0x800007FE#32 := by decide

theorem test_addi_rd_is_rs1 :
    regAfter (exec (.addi 5#5 5#5 1#12) (st [(5#5, 0xFFFFFFFF#32)])) 5#5 = some 0x00000000#32 := by decide

theorem test_slti_most_negative :
    regAfter (exec (.slti 5#5 6#5 (-2048#12)) (st [(6#5, 0x80000000#32)])) 5#5 = some 0x00000001#32 := by decide

theorem test_slti_largest :
    regAfter (exec (.slti 5#5 6#5 2047#12) (st [(6#5, 0x7FFFFFFF#32)])) 5#5 = some 0x00000000#32 := by decide

theorem test_sltiu_sign_extends :
    regAfter (exec (.sltiu 5#5 6#5 (-2048#12)) (st [(6#5, 0xFFFFF7FF#32)])) 5#5 = some 0x00000001#32 := by decide

theorem test_sltiu_equal :
    regAfter (exec (.sltiu 5#5 6#5 (-1#12)) (st [(6#5, 0xFFFFFFFF#32)])) 5#5 = some 0x00000000#32 := by decide

theorem test_andi_negative :
    regAfter (exec (.andi 5#5 6#5 (-256#12)) (st [(6#5, 0x12345678#32)])) 5#5 = some 0x12345600#32 := by decide

theorem test_ori_negative :
    regAfter (exec (.ori 5#5 6#5 (-2048#12)) (st [(6#5, 0x00000123#32)])) 5#5 = some 0xFFFFF923#32 := by decide

theorem test_xori_negative :
    regAfter (exec (.xori 5#5 6#5 (-2048#12)) (st [(6#5, 0x00000FFF#32)])) 5#5 = some 0xFFFFF7FF#32 := by decide

theorem test_slli_31 :
    regAfter (exec (.slli 5#5 6#5 31#5) (st [(6#5, 0x00000003#32)])) 5#5 = some 0x80000000#32 := by decide

theorem test_srli_31 :
    regAfter (exec (.srli 5#5 6#5 31#5) (st [(6#5, 0x80000000#32)])) 5#5 = some 0x00000001#32 := by decide

theorem test_srai_31 :
    regAfter (exec (.srai 5#5 6#5 31#5) (st [(6#5, 0x80000000#32)])) 5#5 = some 0xFFFFFFFF#32 := by decide

theorem test_srai_positive :
    regAfter (exec (.srai 5#5 6#5 4#5) (st [(6#5, 0x12345678#32)])) 5#5 = some 0x01234567#32 := by decide

theorem test_lui : regAfter (exec (.lui 5#5 0x80000#20) (st [])) 5#5 = some 0x80000000#32 := by decide

theorem test_auipc : regAfter (exec (.auipc 5#5 0xFFFFF#20) (st [])) 5#5 = some 0x00000000#32 := by decide

theorem test_add_wraps :
    regAfter (exec (.add 5#5 6#5 7#5) (st [(6#5, 0xFFFFFFFF#32), (7#5, 0x00000002#32)])) 5#5 = some 0x00000001#32 := by decide

theorem test_add_all_same :
    regAfter (exec (.add 5#5 5#5 5#5) (st [(5#5, 0x40000001#32)])) 5#5 = some 0x80000002#32 := by decide

theorem test_sub_operand_order :
    regAfter (exec (.sub 5#5 6#5 7#5) (st [(6#5, 0x00000003#32), (7#5, 0x00000005#32)])) 5#5 = some 0xFFFFFFFE#32 := by decide

theorem test_slt_extremes :
    regAfter (exec (.slt 5#5 6#5 7#5) (st [(6#5, 0x80000000#32), (7#5, 0x7FFFFFFF#32)])) 5#5 = some 0x00000001#32 := by decide

theorem test_slt_extremes_reversed :
    regAfter (exec (.slt 5#5 6#5 7#5) (st [(6#5, 0x7FFFFFFF#32), (7#5, 0x80000000#32)])) 5#5 = some 0x00000000#32 := by decide

theorem test_sltu_extremes :
    regAfter (exec (.sltu 5#5 6#5 7#5) (st [(6#5, 0x7FFFFFFF#32), (7#5, 0x80000000#32)])) 5#5 = some 0x00000001#32 := by decide

theorem test_and :
    regAfter (exec (.and 5#5 6#5 7#5) (st [(6#5, 0xFFFF0000#32), (7#5, 0x00FFFF00#32)])) 5#5 = some 0x00FF0000#32 := by decide

theorem test_or :
    regAfter (exec (.or 5#5 6#5 7#5) (st [(6#5, 0xFFFF0000#32), (7#5, 0x00FFFF00#32)])) 5#5 = some 0xFFFFFF00#32 := by decide

theorem test_xor :
    regAfter (exec (.xor 5#5 6#5 7#5) (st [(6#5, 0xFFFF0000#32), (7#5, 0x00FFFF00#32)])) 5#5 = some 0xFF00FF00#32 := by decide

theorem test_sll_amount_32_is_0 :
    regAfter (exec (.sll 5#5 6#5 7#5) (st [(6#5, 0xDEADBEEF#32), (7#5, 0x00000020#32)])) 5#5 = some 0xDEADBEEF#32 := by decide

theorem test_srl_amount_low_bits :
    regAfter (exec (.srl 5#5 6#5 7#5) (st [(6#5, 0xDEADBEEF#32), (7#5, 0x00000028#32)])) 5#5 = some 0x00DEADBE#32 := by decide

theorem test_sra_amount_low_bits :
    regAfter (exec (.sra 5#5 6#5 7#5) (st [(6#5, 0xDEADBEEF#32), (7#5, 0x00000028#32)])) 5#5 = some 0xFFDEADBE#32 := by decide

theorem test_x0_is_not_written :
    regAfter (exec (.addi 0#5 6#5 5#12) (st [(6#5, 0x00000007#32)])) 0#5 = some 0x00000000#32 := by decide


/-- Link and target (R150; section 2.4). -/
theorem test_jal_back :
    regAfter (exec (.jal 1#5 (-4#21)) (st [])) 1#5 = some 0x00001004#32
      ∧ pcAfter (exec (.jal 1#5 (-4#21)) (st [])) = some 0x00000FFC#32 := by decide

theorem test_jal_misaligned :
    trapAfter (exec (.jal 5#5 (-2#21)) (st [(5#5, 0x77#32)]))
        = some (some ⟨.instructionAddressMisaligned, 0x00001000#32, some 0x00000FFE#32⟩)
      ∧ regAfter (exec (.jal 5#5 (-2#21)) (st [(5#5, 0x77#32)])) 5#5 = some 0x77#32 := by decide

/-- The target comes from the old value, and bit 0 is dropped (R151). -/
theorem test_jalr_rd_is_rs1 :
    regAfter (exec (.jalr 5#5 5#5 0#12) (st [(5#5, 0x2001#32)])) 5#5 = some 0x00001004#32
      ∧ pcAfter (exec (.jalr 5#5 5#5 0#12) (st [(5#5, 0x2001#32)])) = some 0x00002000#32 := by decide

theorem test_jalr_misaligned :
    trapAfter (exec (.jalr 0#5 6#5 0#12) (st [(6#5, 0x2003#32)]))
      = some (some ⟨.instructionAddressMisaligned, 0x00001000#32, some 0x00002002#32⟩) := by decide

theorem test_beq_equal :
    pcAfter (exec (.beq 5#5 6#5 16#13) (st [(5#5, 0x00000005#32), (6#5, 0x00000005#32)])) = some 0x00001010#32 := by decide

theorem test_beq_unequal :
    pcAfter (exec (.beq 5#5 6#5 16#13) (st [(5#5, 0x80000000#32), (6#5, 0x7FFFFFFF#32)])) = some 0x00001004#32 := by decide

theorem test_bne_unequal :
    pcAfter (exec (.bne 5#5 6#5 16#13) (st [(5#5, 0x80000000#32), (6#5, 0x7FFFFFFF#32)])) = some 0x00001010#32 := by decide

theorem test_bne_equal :
    pcAfter (exec (.bne 5#5 6#5 16#13) (st [(5#5, 0x00000005#32), (6#5, 0x00000005#32)])) = some 0x00001004#32 := by decide

theorem test_blt_extremes :
    pcAfter (exec (.blt 5#5 6#5 16#13) (st [(5#5, 0x80000000#32), (6#5, 0x7FFFFFFF#32)])) = some 0x00001010#32 := by decide

theorem test_blt_equal :
    pcAfter (exec (.blt 5#5 6#5 16#13) (st [(5#5, 0x00000005#32), (6#5, 0x00000005#32)])) = some 0x00001004#32 := by decide

theorem test_bge_extremes :
    pcAfter (exec (.bge 5#5 6#5 16#13) (st [(5#5, 0x80000000#32), (6#5, 0x7FFFFFFF#32)])) = some 0x00001004#32 := by decide

theorem test_bge_equal :
    pcAfter (exec (.bge 5#5 6#5 16#13) (st [(5#5, 0x00000005#32), (6#5, 0x00000005#32)])) = some 0x00001010#32 := by decide

theorem test_bltu_extremes :
    pcAfter (exec (.bltu 5#5 6#5 16#13) (st [(5#5, 0x80000000#32), (6#5, 0x7FFFFFFF#32)])) = some 0x00001004#32 := by decide

theorem test_bltu_extremes_reversed :
    pcAfter (exec (.bltu 5#5 6#5 16#13) (st [(5#5, 0x7FFFFFFF#32), (6#5, 0x80000000#32)])) = some 0x00001010#32 := by decide

theorem test_bgeu_extremes :
    pcAfter (exec (.bgeu 5#5 6#5 16#13) (st [(5#5, 0x80000000#32), (6#5, 0x7FFFFFFF#32)])) = some 0x00001010#32 := by decide

theorem test_bgeu_equal :
    pcAfter (exec (.bgeu 5#5 6#5 16#13) (st [(5#5, 0x00000005#32), (6#5, 0x00000005#32)])) = some 0x00001010#32 := by decide


/-- A branch that is not taken does not trap, whatever its offset (R163). -/
theorem test_beq_misaligned_not_taken :
    trapAfter (exec (.beq 5#5 6#5 2#13) (st [(5#5, 1#32), (6#5, 2#32)])) = some none := by decide

theorem test_lw_negative_offset :
    regAfter (exec (.lw 5#5 6#5 (-4#12)) (stMem [(6#5, 0x00002008#32)] 0x2000#32 loadBytes)) 5#5
      = some 0xF7060504#32 := by decide

theorem test_lh_sign :
    regAfter (exec (.lh 5#5 6#5 (6#12)) (stMem [(6#5, 0x00002000#32)] 0x2000#32 loadBytes)) 5#5
      = some 0xFFFFF706#32 := by decide

theorem test_lhu_zero :
    regAfter (exec (.lhu 5#5 6#5 (6#12)) (stMem [(6#5, 0x00002000#32)] 0x2000#32 loadBytes)) 5#5
      = some 0x0000F706#32 := by decide

theorem test_lb_sign :
    regAfter (exec (.lb 5#5 6#5 (7#12)) (stMem [(6#5, 0x00002000#32)] 0x2000#32 loadBytes)) 5#5
      = some 0xFFFFFFF7#32 := by decide

theorem test_lbu_zero :
    regAfter (exec (.lbu 5#5 6#5 (7#12)) (stMem [(6#5, 0x00002000#32)] 0x2000#32 loadBytes)) 5#5
      = some 0x000000F7#32 := by decide

theorem test_sw_word :
    memAfter (exec (.sw 7#5 6#5 (4#12)) (stMem [(6#5, 0x2000#32), (7#5, 0xA1B2C3D4#32)] 0x2000#32 storeBytes))
      = some (Memory.putAll [] 0x2000#32 [0x10#8, 0x11#8, 0x22#8, 0x33#8, 0xD4#8, 0xC3#8, 0xB2#8, 0xA1#8]) := by decide

theorem test_sh_half :
    memAfter (exec (.sh 7#5 6#5 (6#12)) (stMem [(6#5, 0x2000#32), (7#5, 0xA1B2C3D4#32)] 0x2000#32 storeBytes))
      = some (Memory.putAll [] 0x2000#32 [0x10#8, 0x11#8, 0x22#8, 0x33#8, 0x44#8, 0x55#8, 0xD4#8, 0xC3#8]) := by decide

theorem test_sb_byte :
    memAfter (exec (.sb 7#5 6#5 (5#12)) (stMem [(6#5, 0x2000#32), (7#5, 0xA1B2C3D4#32)] 0x2000#32 storeBytes))
      = some (Memory.putAll [] 0x2000#32 [0x10#8, 0x11#8, 0x22#8, 0x33#8, 0x44#8, 0xD4#8, 0x66#8, 0x77#8]) := by decide


theorem test_lw_misaligned_traps :
    trapAfter (exec (.lw 5#5 6#5 2#12) (st [(6#5, 0x2000#32)]))
      = some (some ⟨.loadAddressMisaligned, 0x00001000#32, some 0x00002002#32⟩) := by decide

/-- Misaligned is reported before denied, and a store to program text is denied at reset (D9, D15). -/
theorem test_sw_misaligned_in_text_traps :
    trapAfter (exec (.sw 7#5 6#5 1#12) (st [(6#5, 0x1000#32)]))
        = some (some ⟨.storeAddressMisaligned, 0x00001000#32, some 0x00001001#32⟩)
      ∧ trapAfter (exec (.sw 7#5 6#5 0#12) (st [(6#5, 0x1000#32)]))
        = some (some ⟨.storeAccessFault, 0x00001000#32, some 0x00001000#32⟩) := by decide

/-- A map with all of memory, a device page and a page that is fetchable and writable, and each misaligned policy. -/
def mapped (policy : MisalignedPolicy) (e : Endian) (s : State) : State :=
  { s with params := ⟨[⟨0x4000#32, 0x1000, .io, false, .all, .all⟩, ⟨0x5000#32, 0x1000, .memory, true, .all, .all⟩,
      ⟨0x0000#32, 0x4000, .memory, false, .all, .all⟩], policy, e⟩ }

/-- The misaligned word of section 2.6 under `fault`. -/
theorem test_misaligned_fault :
    trapAfter (exec (.lw 5#5 6#5 1#12) (mapped .fault .little (st [(6#5, 0x2000#32)])))
      = some (some ⟨.loadAccessFault, 0x00001000#32, some 0x00002001#32⟩) := by decide

/-- The misaligned word of section 2.6 under `support`: the same whatever the free order of its bytes. -/
theorem test_misaligned_support :
    regAfter (exec (.lw 5#5 6#5 1#12) (mapped .support .little (stMem [(6#5, 0x2000#32)] 0x2000#32 loadBytes))) 5#5
      = some 0x04838281#32 := by
  let s := mapped .support .little (stMem [(6#5, 0x2000#32)] 0x2000#32 loadBytes)
  have h : s.memRead (s.effectiveAddress 6#5 1#12) .word
      = .done (s.readMemory (s.effectiveAddress 6#5 1#12) .word, s.beginSplit) :=
    (State.memRead_allowed (cls := .memory) (misalignedCause_support rfl) (by decide)).trans
      ((State.performRead_split (by decide)).trans (State.readSplit_quiet _ _ rfl))
  have h2 : exec (.lw 5#5 6#5 1#12) s = _ := State.load_done h
  rw [h2]
  decide

/-- Both orders of two bytes are orders some choices give (R51). -/
theorem test_split_orders : arrange (fun _ => 0) [0, 1] = [0, 1] ∧ arrange (fun _ => 1) [0, 1] = [1, 0] := by decide

/-- Big-endian data (R42). -/
theorem test_big_endian_load :
    regAfter (exec (.lw 5#5 6#5 0#12) (mapped .trap .big (stMem [(6#5, 0x2000#32)] 0x2000#32 loadBytes))) 5#5
      = some 0x80818283#32 := by decide

theorem test_fence_is_recorded :
    (next? (exec (.fence 0#4 .rw .write 5#5 6#5) (st []))).map State.events = some [.fence 0#4 .rw .write] := by decide

theorem test_fenceTso_pc : pcAfter (exec .fenceTso (st [])) = some 0x00001004#32 := by decide
theorem test_pause_pc : pcAfter (exec .pause (st [])) = some 0x00001004#32 := by decide

theorem test_ecall : trapAfter (exec .ecall (st [])) = some (some ⟨.environmentCall, 0x00001000#32, none⟩) := by decide
theorem test_ebreak : trapAfter (exec .ebreak (st [])) = some (some ⟨.breakpoint, 0x00001000#32, none⟩) := by decide

/-- The first step after reset runs the word placed where it fetches. -/
theorem test_withFetchWord :
    regAfter (step (State.reset.withFetchWord 32 0xFFF30293)) 5#5 = some 0xFFFFFFFF#32
      ∧ trapAfter (step (State.reset.withFetchWord 32 0)) = some (some ⟨.illegalInstruction, 0x1000#32, some 0#32⟩) := by
  decide

/-- A pc the map does not let the hart fetch at. -/
theorem test_fetch_fault :
    trapAfter (step { State.reset with pc := 0x2000#32 })
      = some (some ⟨.instructionAccessFault, 0x2000#32, some 0x2000#32⟩) := by decide

/-! ## Witnesses: for each statement with hypotheses, a state and operands that meet them, clause by clause -/

/-- After reset, with a word where the hart fetches. -/
def fetching (w : Nat) : State := State.reset.withFetchWord 32 w

theorem fetching_inv (w : Nat) : (fetching w).Inv :=
  ⟨Memory.wf_putAll _ _ rfl, (by decide : Config.resetPc.toNat % 4 = 0), (fun _ h => nomatch h), rfl⟩

theorem no_text {p : Params} {bs : List Word} (h : bs.any (isText p) = false) : ∀ b ∈ bs, isText p b = false :=
  fun b hb => by simpa using List.any_eq_false.mp h b hb

theorem canStore {p : Params} {a : Word} {w : Width} (h : (isAligned a w && memmapAnswer p .write a w == some .memory
    && !(touched a w).any (isText p)) = true) : CanStore p a w := by
  simp only [Bool.and_eq_true, beq_iff_eq, Bool.not_eq_true'] at h
  exact ⟨by simpa [isAligned] using h.1.1, h.1.2, no_text h.2⟩

theorem noTextWrites {s : State} {n : Nat}
    (h : (s.foreign.take n).flatten.all (fun w => !isText s.params w.1) = true) : s.NoTextWrites n :=
  fun w hw => by simpa using List.all_eq_true.mp h w hw

theorem textWrites {s : State} {n : Nat} (w : Word × Byte) (hw : w ∈ (s.foreign.take n).flatten)
    (h : isText s.params w.1 = true) : ¬ s.NoTextWrites n :=
  fun hn => by rw [hn w hw] at h; cases h

/-- The map of `State.reset` with misaligned accesses supported, and other agents' coming batches. -/
def supported (foreign : List (List (Word × Byte))) : State :=
  { State.reset with params := { Config.resetParams with misaligned := .support }, foreign := foreign }

theorem next?_some {o : Host.Outcome State Fault Refusal} (h : (next? o).isSome = true) : ∃ t, o = .next t := by
  cases o with
  | next t => exact ⟨t, rfl⟩
  | fault _ => cases h
  | refused _ => cases h

theorem witness_StepKeepsInvariant : ∃ s t, State.Inv s ∧ step s = .next t := by
  obtain ⟨t, ht⟩ := next?_some (o := step (fetching 0x13)) (by decide)
  exact ⟨_, t, fetching_inv _, ht⟩

theorem witness_RegisterFile : (31#5 : RegIdx) ≠ 0#5 ∧ (1#5 : RegIdx) ≠ 31#5 := by decide

theorem witness_DecodeOfEncode :
    WellFormed (.jal 31#5 (-1048576#21)) = true ∧ WellFormed (.beq 0#5 31#5 4094#13) = true
      ∧ WellFormed (.fence 15#4 .iorw .iorw 31#5 31#5) = true := by decide

theorem witness_EncodeOfDecode : decode 0x800000EF#32 = .ok (.jal 1#5 (-1048576#21)) := by decide

theorem witness_RowsDisjoint : (rowWord 0x8330000F#32 .fenceTso).hits 0x8330000F#32 = true := by decide

theorem witness_EveryFenceWordIsAFence :
    opcodeField 0xFFFF8F8F#32 = 0b0001111#7 ∧ funct3Field 0xFFFF8F8F#32 = 0b000#3 := by decide

theorem witness_StepRunsDecodedInstruction :
    AboutToFetch (fetching 0xFFF30293) (fetching 0xFFF30293)
      ∧ (memmapAnswer (fetching 0xFFF30293).params .fetch (fetching 0xFFF30293).pc .word).isSome = true
      ∧ decodeBytes ((fetching 0xFFF30293).byteAt (fetching 0xFFF30293).pc)
          ((fetching 0xFFF30293).byteAt ((fetching 0xFFF30293).pc + 1#32))
          ((fetching 0xFFF30293).byteAt ((fetching 0xFFF30293).pc + 2#32))
          ((fetching 0xFFF30293).byteAt ((fetching 0xFFF30293).pc + 3#32)) = .ok (.addi 5#5 6#5 (-1#12))
      ∧ (fetching 0xFFF30293).foreign = [] :=
  ⟨⟨rfl, rfl, rfl⟩, by decide, by decide, rfl⟩

theorem witness_StepOnDeniedFetch :
    let s := { State.reset with pc := 0x2000#32 }
    AboutToFetch s s ∧ memmapAnswer s.params .fetch s.pc .word = none :=
  ⟨⟨rfl, rfl, rfl⟩, by decide⟩

theorem witness_StepOnReservedWord :
    AboutToFetch (fetching 0) (fetching 0)
      ∧ (memmapAnswer (fetching 0).params .fetch (fetching 0).pc .word).isSome = true
      ∧ ∀ r ∈ opcodeTable, r.hits (fetching 0).wordAtPc = false :=
  ⟨⟨rfl, rfl, rfl⟩, by decide, by decide⟩

theorem witness_StepIsTotal :
    State.reset.Inv ∧ State.reset.trap = none ∧ State.reset.foreign = [] ∧ TextUnwritable State.reset.params :=
  ⟨⟨rfl, rfl, (fun _ h => nomatch h), rfl⟩, rfl, rfl, resetParams_textUnwritable⟩

theorem witness_TrapsArePrecise :
    ∃ t rec, (fetching 0x73).trap = none ∧ (fetching 0x73).foreign = [] ∧ step (fetching 0x73) = .next t
      ∧ t.trap = some rec := by
  obtain ⟨t, ht⟩ := next?_some (o := step (fetching 0x73)) (by decide)
  have h : trapAfter (step (fetching 0x73)) = some (some ⟨.environmentCall, 0x1000#32, none⟩) := by decide
  rw [ht] at h
  exact ⟨t, _, rfl, rfl, ht, Option.some.inj h⟩

theorem witness_ProgramTextIsFixed :
    (∃ t, step (fetching 0x13) = .next t) ∧ isText (fetching 0x13).params 0x00001000#32 = true
      ∧ isText (fetching 0x13).params 0x00001FFF#32 = true :=
  ⟨next?_some (by decide), by decide, by decide⟩

theorem witness_OnlyListedExceptions :
    ∃ t rec, State.reset.trap = none ∧ exec .ebreak State.reset = .next t ∧ t.trap = some rec := ⟨_, _, rfl, rfl, rfl⟩

theorem witness_ReadsOnlyItsSources :
    (7#5 : RegIdx) ∉ sources (.addi 5#5 6#5 1#12) ∧ ∃ t, exec (.addi 5#5 6#5 1#12) State.reset = .next t :=
  ⟨by decide, _, rfl⟩

theorem witness_WritesOnlyItsDestination :
    destination (.addi 5#5 6#5 1#12) ≠ some 6#5 ∧ ∃ t, exec (.addi 5#5 6#5 1#12) State.reset = .next t :=
  ⟨by decide, _, rfl⟩

theorem witness_OnlyLoadsAndStoresAccess :
    (∃ t, exec (.lb 5#5 0#5 0#12) State.reset = .next t) ∧ (∀ w, dataAccess (.lb 5#5 0#5 0#12) ≠ some (.write, w))
      ∧ (∃ t, exec .pause State.reset = .next t) ∧ dataAccess .pause = none :=
  ⟨next?_some (by decide), (fun w h => nomatch h), ⟨_, rfl⟩, rfl⟩

theorem witness_DefaultAdvance :
    ∃ t, isControl (.lui 5#5 1#20) = false ∧ State.reset.trap = none ∧ exec (.lui 5#5 1#20) State.reset = .next t
      ∧ t.trap = none := ⟨_, rfl, rfl, rfl, rfl⟩

/-- A JALR and a taken BGEU to a page that cannot be fetched. -/
theorem witness_FaultBelongsToTarget :
    (transfersTo (.jalr 1#5 6#5 0#12) (st [(6#5, 0x2001#32)]) = some 0x2000#32
        ∧ (0x2000#32 : Word).toNat % 4 = 0 ∧ memmapAnswer (st [(6#5, 0x2001#32)]).params .fetch 0x2000#32 .word = none)
      ∧ (transfersTo (.bgeu 5#5 6#5 (-4096#13)) (st []) = some 0#32
        ∧ (0#32 : Word).toNat % 4 = 0 ∧ memmapAnswer (st []).params .fetch 0#32 .word = none)
      ∧ (st []).trap = none ∧ (st []).foreign = [] := by
  refine ⟨⟨by decide, by decide, by decide +kernel⟩, ⟨by decide, by decide, by decide +kernel⟩, rfl, rfl⟩

/-- Stopped at an ECALL, with an answer that writes a register and a byte and restarts as given. -/
def stopped (how : Resumption) : State :=
  { State.reset with
    trap := some ⟨.environmentCall, 0x1000#32, none⟩
    replies := [⟨[(0#5, 7#32), (10#5, 1#32), (10#5, 2#32)], [(0x2000#32, 5#8)], how⟩] }

theorem witness_EnvironmentRestartsHart (how : Resumption) :
    (stopped how).trap = some ⟨.environmentCall, 0x1000#32, none⟩
      ∧ (stopped how).replies = [⟨[(0#5, 7#32), (10#5, 1#32), (10#5, 2#32)], [(0x2000#32, 5#8)], how⟩]
      ∧ (∀ w ∈ [((0x2000#32 : Word), (5#8 : Byte))], isText (stopped how).params w.1 = false)
      ∧ (resumePc ⟨.environmentCall, 0x1000#32, none⟩ .retry).toNat % 4 = 0
      ∧ (resumePc ⟨.environmentCall, 0x1000#32, none⟩ .skip).toNat % 4 = 0
      ∧ (resumePc ⟨.environmentCall, 0x1000#32, none⟩ (.restartAt 0xFFFFFFFC#32)).toNat % 4 = 0 :=
  ⟨rfl, rfl, List.forall_mem_singleton.mpr (by decide +kernel : isText Config.resetParams 0x2000#32 = false), by decide,
    by decide, by decide⟩

theorem witness_RunEndsAtTrap :
    ({ State.reset with trap := some ⟨.breakpoint, 0x1000#32, none⟩ } : State).replies = [] := rfl

theorem witness_OtherAgentsWriteMemory :
    (∀ w ∈ [((0x2000#32 : Word), (1#8 : Byte))], isText State.reset.params w.1 = false)
      ∧ (∃ w ∈ [((0x1FFF#32 : Word), (1#8 : Byte))], isText State.reset.params w.1 = true)
      ∧ ∀ batch, ({ State.reset with foreign := [batch] } : State).foreign = [batch]
        ∧ ({ State.reset with foreign := [batch] } : State).trap = none :=
  ⟨List.forall_mem_singleton.mpr (by decide +kernel), ⟨_, List.mem_singleton.mpr rfl, by decide +kernel⟩,
    fun _ => ⟨rfl, rfl⟩⟩

/-- Split accesses across the top of the address space. -/
def SplitsAtTop (s : State) : Prop :=
  (IsSplit s.params (s.effectiveAddress 0#5 (-3#12)) .word
      ∧ memmapAnswer s.params .read (s.effectiveAddress 0#5 (-3#12)) .word = some .memory
      ∧ memmapAnswer s.params .write (s.effectiveAddress 0#5 (-3#12)) .word = some .memory
      ∧ (touched (s.effectiveAddress 0#5 (-3#12)) .word).any (isText s.params) = false)
    ∧ (IsSplit s.params (s.effectiveAddress 0#5 (-1#12)) .half
      ∧ memmapAnswer s.params .read (s.effectiveAddress 0#5 (-1#12)) .half = some .memory
      ∧ memmapAnswer s.params .write (s.effectiveAddress 0#5 (-1#12)) .half = some .memory
      ∧ (touched (s.effectiveAddress 0#5 (-1#12)) .half).any (isText s.params) = false)

/-- With a batch among the bytes that writes data, and with batches that write program text at the last byte. -/
theorem witness_OtherAgentsWriteMemory_split :
    SplitsAtTop (supported [[], [(0x2000#32, 1#8)]]) ∧ SplitsAtTop (supported [[], [], [], [(0x1FFF#32, 1#8)]])
      ∧ SplitsAtTop (supported [[], [(0x1000#32, 1#8)]]) := by
  unfold SplitsAtTop IsSplit
  decide +kernel

theorem witness_OtherAgentsWriteMemory_batches :
    (supported [[], [(0x2000#32, 1#8)]]).NoTextWrites 4 ∧ (supported [[], [(0x2000#32, 1#8)]]).NoTextWrites 2
      ∧ ¬ (supported [[], [], [], [(0x1FFF#32, 1#8)]]).NoTextWrites 4
      ∧ ¬ (supported [[], [(0x1000#32, 1#8)]]).NoTextWrites 2 :=
  ⟨noTextWrites (by decide +kernel), noTextWrites (by decide +kernel),
    textWrites (0x1FFF#32, 1#8) (by decide) (by decide +kernel),
    textWrites (0x1000#32, 1#8) (by decide) (by decide +kernel)⟩

theorem witness_OverflowIdioms :
    State.reset.pc.toNat % 4 = 0 ∧ (-4096#13).toNat % 4 = 0 ∧ (4092#13).toNat % 4 = 0 ∧ 0 < (1#12).toInt
      ∧ 0 < (2047#12).toInt := by decide

/-- JAL at both ends of its range: aligned, and misaligned (R150). -/
theorem witness_JalJumpsAndLinks :
    (BitVec.ofInt 32 (State.reset.pc.toNat + (-1048576#21).toInt)).toNat % 4 = 0
      ∧ (BitVec.ofInt 32 (State.reset.pc.toNat + (1048574#21).toInt)).toNat % 4 ≠ 0 := by decide

theorem witness_JalrJumpsAndLinks :
    let sum (v : Word) (imm : BitVec 12) := BitVec.ofInt 32 (((st [(6#5, v)]).reg 6#5).toInt + imm.toInt)
    let target (v : Word) (imm : BitVec 12) := BitVec.ofNat 32 ((sum v imm).toNat - (sum v imm).toNat % 2)
    (target 0x00000800#32 (-2048#12)).toNat % 4 = 0 ∧ (target 0x2001#32 0#12).toNat % 4 = 0
      ∧ (target 0x2003#32 0#12).toNat % 4 ≠ 0 := by decide

/-- Not taken, taken to an aligned target at the far end of the range, taken to a misaligned one. -/
theorem witness_BeqBneBranch :
    ¬ (st [(5#5, 1#32)]).reg 5#5 = (st [(5#5, 1#32)]).reg 6#5
      ∧ (st []).reg 5#5 = (st []).reg 6#5
      ∧ (BitVec.ofInt 32 ((st []).pc.toNat + (-4096#13).toInt)).toNat % 4 = 0
      ∧ (BitVec.ofInt 32 ((st []).pc.toNat + (4094#13).toInt)).toNat % 4 ≠ 0 := by decide

theorem witness_BltBgeBranch :
    ((st [(5#5, 0x80000000#32)]).reg 5#5).toInt < ((st [(5#5, 0x80000000#32)]).reg 6#5).toInt
      ∧ ¬ ((st []).reg 5#5).toInt < ((st []).reg 6#5).toInt
      ∧ ((st []).reg 5#5).toInt ≥ ((st []).reg 6#5).toInt
      ∧ ¬ ((st [(5#5, 0x80000000#32)]).reg 5#5).toInt ≥ ((st [(5#5, 0x80000000#32)]).reg 6#5).toInt
      ∧ (BitVec.ofInt 32 ((st []).pc.toNat + (-4096#13).toInt)).toNat % 4 = 0
      ∧ (BitVec.ofInt 32 ((st []).pc.toNat + (4094#13).toInt)).toNat % 4 ≠ 0 := by decide

theorem witness_BltuBgeuBranch :
    ((st [(6#5, 0xFFFFFFFF#32)]).reg 5#5).toNat < ((st [(6#5, 0xFFFFFFFF#32)]).reg 6#5).toNat
      ∧ ¬ ((st []).reg 5#5).toNat < ((st []).reg 6#5).toNat
      ∧ ((st []).reg 5#5).toNat ≥ ((st []).reg 6#5).toNat
      ∧ ¬ ((st [(6#5, 0xFFFFFFFF#32)]).reg 5#5).toNat ≥ ((st [(6#5, 0xFFFFFFFF#32)]).reg 6#5).toNat
      ∧ (BitVec.ofInt 32 ((st []).pc.toNat + (-4096#13).toInt)).toNat % 4 = 0
      ∧ (BitVec.ofInt 32 ((st []).pc.toNat + (4094#13).toInt)).toNat % 4 ≠ 0 := by decide

theorem witness_MisalignedByBitOne :
    State.reset.trap = none ∧ State.reset.pc.toNat % 4 = 0 ∧ jumpOffsetOk (-2#21) = true
      ∧ (∃ t, exec (.jal 1#5 (-2#21)) State.reset = .next t) ∧ branchOffsetOk 4094#13 = true
      ∧ (∀ branch ∈ [Instr.beq, .bne, .blt, .bge, .bltu, .bgeu], ∃ t, exec (branch 5#5 6#5 4094#13) State.reset = .next t)
      ∧ ∃ t, exec (.jalr 1#5 5#5 2#12) State.reset = .next t := by
  refine ⟨rfl, rfl, by decide, next?_some (by decide), by decide, ?_, next?_some (by decide)⟩
  simp only [List.forall_mem_cons, List.not_mem_nil, false_imp_iff, implies_true, and_true]
  exact ⟨next?_some (by decide), next?_some (by decide), next?_some (by decide), next?_some (by decide),
    next?_some (by decide), next?_some (by decide)⟩

theorem witness_EffectiveAddressIsSum :
    (State.reset.effectiveAddress 0#5 2047#12).toNat = 0x7FF
      ∧ (State.reset.effectiveAddress 0#5 (-2048#12)).toNat = 0xFFFFF800 := by decide

/-- A map of program text alone, under each policy. -/
def textOnly (policy : MisalignedPolicy) : State :=
  { State.reset with params := ⟨[Config.textRegion], policy, .little⟩ }

/-- LW at the last word of the address space, misaligned there, and below the first mapped byte. -/
theorem witness_LwLoadsWord :
    CanLoad State.reset.params (State.reset.effectiveAddress 0#5 (-4#12)) .word
      ∧ (State.reset.effectiveAddress 0#5 (-3#12)).toNat % Width.word.bytes ≠ 0
      ∧ State.reset.params.misaligned = .trap
      ∧ AlignmentOk (textOnly .support).params ((textOnly .support).effectiveAddress 0#5 (-3#12)) .word
      ∧ memmapAnswer (textOnly .support).params .read ((textOnly .support).effectiveAddress 0#5 (-3#12)) .word = none
      ∧ (IsSplit (supported []).params ((supported []).effectiveAddress 0#5 (-3#12)) .word
        ∧ memmapAnswer (supported []).params .read ((supported []).effectiveAddress 0#5 (-3#12)) .word = some .memory
        ∧ (supported []).foreign = []) := by
  unfold CanLoad AlignmentOk IsSplit
  decide +kernel

theorem witness_LhLhuLoadHalf :
    CanLoad State.reset.params (State.reset.effectiveAddress 0#5 (-2#12)) .half
      ∧ (State.reset.effectiveAddress 0#5 (-1#12)).toNat % Width.half.bytes ≠ 0
      ∧ State.reset.params.misaligned = .trap
      ∧ AlignmentOk (textOnly .trap).params ((textOnly .trap).effectiveAddress 0#5 (-2#12)) .half
      ∧ memmapAnswer (textOnly .trap).params .read ((textOnly .trap).effectiveAddress 0#5 (-2#12)) .half = none
      ∧ (IsSplit (supported []).params ((supported []).effectiveAddress 0#5 (-1#12)) .half
        ∧ memmapAnswer (supported []).params .read ((supported []).effectiveAddress 0#5 (-1#12)) .half = some .memory
        ∧ (supported []).foreign = []) := by
  unfold CanLoad AlignmentOk IsSplit
  decide +kernel

theorem witness_LbLbuLoadByte :
    memmapAnswer State.reset.params .read (State.reset.effectiveAddress 0#5 (-1#12)) .byte = some .memory
      ∧ memmapAnswer ⟨[Config.textRegion], .trap, .little⟩ .read (State.reset.effectiveAddress 0#5 (-1#12)) .byte = none := by
  decide +kernel

/-- SW at the last word, misaligned there, and to program text (R180). -/
theorem witness_SwStoresWord :
    CanStore State.reset.params (State.reset.effectiveAddress 0#5 (-4#12)) .word
      ∧ (State.reset.effectiveAddress 0#5 (-3#12)).toNat % Width.word.bytes ≠ 0
      ∧ State.reset.params.misaligned = .trap
      ∧ AlignmentOk State.reset.params ((st [(6#5, 0x1000#32)]).effectiveAddress 6#5 0#12) .word
      ∧ memmapAnswer State.reset.params .write ((st [(6#5, 0x1000#32)]).effectiveAddress 6#5 0#12) .word = none
      ∧ (IsSplit (supported []).params ((supported []).effectiveAddress 0#5 (-3#12)) .word
        ∧ memmapAnswer (supported []).params .write ((supported []).effectiveAddress 0#5 (-3#12)) .word = some .memory
        ∧ (supported []).foreign = []
        ∧ (touched ((supported []).effectiveAddress 0#5 (-3#12)) .word).any (isText (supported []).params) = false) := by
  refine ⟨canStore (by decide +kernel), ?_⟩
  unfold AlignmentOk IsSplit
  decide +kernel

theorem witness_ShSbStore :
    CanStore State.reset.params (State.reset.effectiveAddress 0#5 (-2#12)) .half
      ∧ CanStore State.reset.params (State.reset.effectiveAddress 0#5 (-1#12)) .byte
      ∧ (State.reset.effectiveAddress 0#5 (-1#12)).toNat % Width.half.bytes ≠ 0
      ∧ State.reset.params.misaligned = .trap
      ∧ AlignmentOk State.reset.params ((st [(6#5, 0x1FFE#32)]).effectiveAddress 6#5 0#12) .half
      ∧ memmapAnswer State.reset.params .write ((st [(6#5, 0x1FFE#32)]).effectiveAddress 6#5 0#12) .half = none
      ∧ memmapAnswer State.reset.params .write ((st [(6#5, 0x1FFF#32)]).effectiveAddress 6#5 0#12) .byte = none
      ∧ (IsSplit (supported []).params ((supported []).effectiveAddress 0#5 (-1#12)) .half
        ∧ memmapAnswer (supported []).params .write ((supported []).effectiveAddress 0#5 (-1#12)) .half = some .memory
        ∧ (supported []).foreign = []
        ∧ (touched ((supported []).effectiveAddress 0#5 (-1#12)) .half).any (isText (supported []).params) = false) := by
  refine ⟨canStore (by decide +kernel), canStore (by decide +kernel), ?_⟩
  unfold AlignmentOk IsSplit
  decide +kernel

theorem witness_MisalignedFaultPolicy :
    (mapped .fault .little State.reset).params.misaligned = .fault
      ∧ ((mapped .fault .little State.reset).effectiveAddress 0#5 2#12).toNat % 4 ≠ 0
      ∧ ((mapped .fault .little State.reset).effectiveAddress 0#5 1#12).toNat % 2 ≠ 0 := by decide

/-- x6 at the end of the device page of `mapped` and the start of its page that is both fetchable and writable. -/
def atDevice : State := mapped .trap .little (st [(6#5, 0x5000#32)])

theorem witness_LoadsFromDevices :
    ((atDevice.effectiveAddress 6#5 (-4#12)).toNat % Width.word.bytes = 0
        ∧ memmapAnswer atDevice.params .read (atDevice.effectiveAddress 6#5 (-4#12)) .word = some .io)
      ∧ ((atDevice.effectiveAddress 6#5 (-2#12)).toNat % Width.half.bytes = 0
        ∧ memmapAnswer atDevice.params .read (atDevice.effectiveAddress 6#5 (-2#12)) .half = some .io)
      ∧ ((atDevice.effectiveAddress 6#5 (-1#12)).toNat % Width.byte.bytes = 0
        ∧ memmapAnswer atDevice.params .read (atDevice.effectiveAddress 6#5 (-1#12)) .byte = some .io) := by
  decide +kernel

/-- The device page of `mapped` with misaligned accesses supported: its last misaligned word and halfword. -/
def atDeviceSplit : State := mapped .support .big (st [(6#5, 0x5000#32)])

theorem witness_DevicesSplit :
    (IsSplit atDeviceSplit.params (atDeviceSplit.effectiveAddress 6#5 (-5#12)) .word
        ∧ memmapAnswer atDeviceSplit.params .read (atDeviceSplit.effectiveAddress 6#5 (-5#12)) .word = some .io
        ∧ memmapAnswer atDeviceSplit.params .write (atDeviceSplit.effectiveAddress 6#5 (-5#12)) .word = some .io
        ∧ ∀ b ∈ touched (atDeviceSplit.effectiveAddress 6#5 (-5#12)) .word, isText atDeviceSplit.params b = false)
      ∧ (IsSplit atDeviceSplit.params (atDeviceSplit.effectiveAddress 6#5 (-3#12)) .half
        ∧ memmapAnswer atDeviceSplit.params .read (atDeviceSplit.effectiveAddress 6#5 (-3#12)) .half = some .io
        ∧ memmapAnswer atDeviceSplit.params .write (atDeviceSplit.effectiveAddress 6#5 (-3#12)) .half = some .io
        ∧ ∀ b ∈ touched (atDeviceSplit.effectiveAddress 6#5 (-3#12)) .half, isText atDeviceSplit.params b = false)
      ∧ atDeviceSplit.NoTextWrites 4 ∧ atDeviceSplit.NoTextWrites 2 := by
  refine ⟨⟨⟨?_, ?_⟩, ?_, ?_, no_text ?_⟩, ⟨⟨?_, ?_⟩, ?_, ?_, no_text ?_⟩, noTextWrites rfl, noTextWrites rfl⟩
  all_goals decide +kernel

theorem witness_StoresToDevices :
    ((atDevice.effectiveAddress 6#5 (-4#12)).toNat % Width.word.bytes = 0
        ∧ memmapAnswer atDevice.params .write (atDevice.effectiveAddress 6#5 (-4#12)) .word = some .io
        ∧ ∀ b ∈ touched (atDevice.effectiveAddress 6#5 (-4#12)) .word, isText atDevice.params b = false)
      ∧ ((atDevice.effectiveAddress 6#5 (-2#12)).toNat % Width.half.bytes = 0
        ∧ memmapAnswer atDevice.params .write (atDevice.effectiveAddress 6#5 (-2#12)) .half = some .io
        ∧ ∀ b ∈ touched (atDevice.effectiveAddress 6#5 (-2#12)) .half, isText atDevice.params b = false)
      ∧ ((atDevice.effectiveAddress 6#5 (-1#12)).toNat % Width.byte.bytes = 0
        ∧ memmapAnswer atDevice.params .write (atDevice.effectiveAddress 6#5 (-1#12)) .byte = some .io
        ∧ ∀ b ∈ touched (atDevice.effectiveAddress 6#5 (-1#12)) .byte, isText atDevice.params b = false) := by
  refine ⟨⟨?_, ?_, no_text (by decide +kernel)⟩, ⟨?_, ?_, no_text (by decide +kernel)⟩,
    ⟨?_, ?_, no_text (by decide +kernel)⟩⟩
  all_goals decide +kernel

/-- The first word, halfword and byte of the page of `mapped` that is both fetchable and writable. -/
theorem witness_StoreToTextIsRefused :
    (AlignmentOk atDevice.params (atDevice.effectiveAddress 6#5 0#12) .word
        ∧ (memmapAnswer atDevice.params .write (atDevice.effectiveAddress 6#5 0#12) .word).isSome = true
        ∧ ∃ b ∈ touched (atDevice.effectiveAddress 6#5 0#12) .word, isText atDevice.params b = true)
      ∧ (AlignmentOk atDevice.params (atDevice.effectiveAddress 6#5 0#12) .half
        ∧ (memmapAnswer atDevice.params .write (atDevice.effectiveAddress 6#5 0#12) .half).isSome = true
        ∧ ∃ b ∈ touched (atDevice.effectiveAddress 6#5 0#12) .half, isText atDevice.params b = true)
      ∧ (AlignmentOk atDevice.params (atDevice.effectiveAddress 6#5 0#12) .byte
        ∧ (memmapAnswer atDevice.params .write (atDevice.effectiveAddress 6#5 0#12) .byte).isSome = true
        ∧ ∃ b ∈ touched (atDevice.effectiveAddress 6#5 0#12) .byte, isText atDevice.params b = true) := by
  refine ⟨⟨?_, ?_, List.any_eq_true.mp ?_⟩, ⟨?_, ?_, List.any_eq_true.mp ?_⟩, ?_, ?_, List.any_eq_true.mp ?_⟩
  all_goals first | exact .inl (by decide) | decide +kernel

theorem witness_LoadsIntoX0 :
    (Instr.lw ∈ [Instr.lw, .lh, .lhu, .lb, .lbu]) ∧ ∃ t, exec (.lw 5#5 0#5 (-4#12)) State.reset = .next t :=
  ⟨List.mem_cons_self .., next?_some (by decide)⟩

theorem witness_StoreThenLoad :
    (31#5 : RegIdx) ≠ 0#5
      ∧ ((State.reset.effectiveAddress 0#5 (-4#12)).toNat % Width.word.bytes = 0
        ∧ OrdinaryMemory State.reset.params (State.reset.effectiveAddress 0#5 (-4#12)) .word)
      ∧ ((State.reset.effectiveAddress 0#5 (-2#12)).toNat % Width.half.bytes = 0
        ∧ OrdinaryMemory State.reset.params (State.reset.effectiveAddress 0#5 (-2#12)) .half)
      ∧ ((State.reset.effectiveAddress 0#5 (-1#12)).toNat % Width.byte.bytes = 0
        ∧ OrdinaryMemory State.reset.params (State.reset.effectiveAddress 0#5 (-1#12)) .byte) := by
  refine ⟨?_, ⟨?_, ?_, ?_, no_text ?_⟩, ⟨?_, ?_, ?_, no_text ?_⟩, ?_, ?_, ?_, no_text ?_⟩
  all_goals decide +kernel

/-- The state after the store has the store's registers, so the narrow loads reach bytes 0 and 3 and the upper half. -/
theorem witness_StoreWordLoadNarrow :
    CanStore State.reset.params (State.reset.effectiveAddress 0#5 (-4#12)) .word
      ∧ (State.reset.effectiveAddress 0#5 (-4#12)).toNat % 4 = 0
      ∧ ∃ t, exec (.sw 0#5 0#5 (-4#12)) State.reset = .next t
        ∧ t.effectiveAddress 0#5 (-4#12) = State.reset.effectiveAddress 0#5 (-4#12) + BitVec.ofNat 32 0
        ∧ t.effectiveAddress 0#5 (-1#12) = State.reset.effectiveAddress 0#5 (-4#12) + BitVec.ofNat 32 3
        ∧ t.effectiveAddress 0#5 (-2#12) = State.reset.effectiveAddress 0#5 (-4#12) + 2#32
        ∧ CanLoad State.reset.params (State.reset.effectiveAddress 0#5 (-4#12) + BitVec.ofNat 32 0) .byte
        ∧ CanLoad State.reset.params (State.reset.effectiveAddress 0#5 (-4#12) + BitVec.ofNat 32 3) .byte
        ∧ CanLoad State.reset.params (State.reset.effectiveAddress 0#5 (-4#12) + 2#32) .half := by
  have h : CanStore State.reset.params (State.reset.effectiveAddress 0#5 (-4#12)) .word := canStore (by decide +kernel)
  obtain ⟨t, ht⟩ := next?_some (o := exec (.sw 0#5 0#5 (-4#12)) State.reset) (by decide +kernel)
  refine ⟨h, by decide +kernel, t, ht, ?_, ?_, ?_, ?_⟩
  iterate 3 simp only [State.effectiveAddress, State.reg_x0]; decide +kernel
  unfold CanLoad
  decide +kernel

theorem witness_HintsOnlyAdvance :
    (hintOf (.add 0#5 0#5 2#5)).isSome = true ∧ (hintOf (.fence 0#4 .none .iorw 0#5 31#5)).isSome = true
      ∧ (hintOf (.addi 0#5 0#5 1#12)).isSome = true ∧ hintOf pseudoNop = none
      ∧ hintOf (.fence 0#4 .none .iorw 1#5 1#5) = none
      ∧ ∃ pred succ rs1 rd, Instr.fence 0#4 .none .iorw 1#5 1#5 = .fence 0#4 pred succ rs1 rd
        ∧ (pred = AccessSet.none ∨ succ = AccessSet.none) :=
  ⟨by decide, by decide, by decide, by decide, by decide, _, _, _, _, rfl, .inl rfl⟩

end Sys2Proof.Tests
end

section
/-! PROOFS. The integer computational instructions (40_integer_computational.md): each is `State.compute` on a word, and
what remains is to read that word in exact arithmetic or bit by bit. -/

namespace Sys2Proof.IntegerComputational

open Sys2Proof Sys2Proof.Machine

/-! ## The word operations in exact arithmetic -/

section
variable {w : Nat} (x y : BitVec w) (n : Nat)

theorem add_eq_ofInt : x + y = BitVec.ofInt w (x.toInt + y.toInt) := by
  rw [BitVec.ofInt_add, BitVec.ofInt_toInt, BitVec.ofInt_toInt]

theorem sub_eq_ofInt : x - y = BitVec.ofInt w (x.toInt - y.toInt) := by
  rw [Int.sub_eq_add_neg, BitVec.ofInt_add, BitVec.ofInt_neg, BitVec.ofInt_toInt, BitVec.ofInt_toInt,
    BitVec.sub_eq_add_neg]

theorem shiftLeft_eq_ofNat : x <<< n = BitVec.ofNat w (x.toNat * 2 ^ n) := by
  apply BitVec.eq_of_toNat_eq
  rw [BitVec.toNat_shiftLeft, BitVec.toNat_ofNat, Nat.shiftLeft_eq]

theorem ushiftRight_eq_ofNat : x >>> n = BitVec.ofNat w (x.toNat / 2 ^ n) := by
  rw [← Nat.shiftRight_eq_div_pow, ← BitVec.toNat_ushiftRight, BitVec.ofNat_toNat, BitVec.setWidth_eq]

/-- An arithmetic right shift is the floor of the signed value's quotient. -/
theorem sshiftRight_eq_ofInt : x.sshiftRight n = BitVec.ofInt w (Int.fdiv x.toInt (2 ^ n)) := by
  have hpos : (0 : Int) ≤ 2 ^ n := by positivity
  calc x.sshiftRight n
      = BitVec.ofInt w (x.sshiftRight n).toInt := BitVec.ofInt_toInt.symm
    _ = BitVec.ofInt w (Int.fdiv x.toInt (2 ^ n)) := by
      rw [BitVec.toInt_sshiftRight, Int.shiftRight_eq_div_pow, Int.fdiv_eq_ediv_of_nonneg _ hpos]
      norm_cast

end

/-! ## The operand forms and comparisons -/

theorem toInt_imm12 (imm : BitVec 12) : (imm12 imm).toInt = imm.toInt :=
  BitVec.toInt_signExtend_of_le (by decide)

/-- Bits 11 to 31 of a sign-extended 12-bit immediate are its sign (R78). -/
theorem getLsbD_imm12 (imm : BitVec 12) {k : Nat} (hk : k < 32) :
    (imm12 imm).getLsbD k = imm.getLsbD (min k 11) := by
  rw [imm12, BitVec.getLsbD_signExtend]
  by_cases h : k < 12
  · simp [hk, h, show min k 11 = k by omega]
  · simp [hk, h, show min k 11 = 11 by omega, BitVec.msb_eq_getLsbD_last]

theorem toNat_immU (imm20 : BitVec 20) : (immU imm20).toNat = imm20.toNat * 2 ^ 12 := by
  rw [immU, BitVec.toNat_append, Nat.shiftLeft_eq, BitVec.toNat_zero, Nat.or_zero]

theorem immU_eq_ofNat (imm20 : BitVec 20) : immU imm20 = BitVec.ofNat 32 (imm20.toNat * 2 ^ 12) := by
  rw [← toNat_immU, BitVec.ofNat_toNat, BitVec.setWidth_eq]

theorem shiftAmount_eq_mod (v : Word) : shiftAmount v = v.toNat % 32 := by
  simp [shiftAmount, BitVec.extractLsb'_toNat]

theorem lessSigned_iff (a b : Word) : lessSigned a b = true ↔ a.toInt < b.toInt := by simp [lessSigned]

theorem lessUnsigned_iff (a b : Word) : lessUnsigned a b = true ↔ a.toNat < b.toNat := by simp [lessUnsigned]

theorem boolWord_of_iff {b : Bool} {p : Prop} [Decidable p] (h : b = true ↔ p) :
    boolWord b = if p then 1#32 else 0#32 := by simp only [boolWord, h]

theorem boolWord_inj {b c : Bool} : boolWord b = boolWord c ↔ b = c := by
  cases b <;> cases c <;> decide

/-! ## Computing -/

/-- An instruction whose arm is `State.compute` on a word equal to `v'` has the effect R110 asks for. -/
theorem completes_of_value {o : Host.Outcome State Fault Refusal} {s : State} {rd : RegIdx} {v v' : Word}
    (ho : o = s.compute rd v) (hv : v = v') : Completes o (WritesOnly rd v' (s.pc + 4#32) s) := by
  subst ho hv
  exact compute_writesOnly s rd v

/-- Settles O26: the model's sum is the low 32 bits of the exact one. -/
theorem addiAddsImmediate : Obligations.AddiAddsImmediate := by
  intro rd rs1 imm s
  exact ⟨rfl, completes_of_value rfl (by rw [add_eq_ofInt, toInt_imm12])⟩

/-- Settles O27: both comparisons, by what they decide. -/
theorem sltiSltiuCompareImmediate : Obligations.SltiSltiuCompareImmediate := by
  intro rd rs1 imm s
  refine ⟨rfl, completes_of_value rfl (boolWord_of_iff ?_), rfl,
    completes_of_value rfl (boolWord_of_iff (lessUnsigned_iff _ _))⟩
  rw [lessSigned_iff, toInt_imm12]

/-- Settles O28: the word operations act bit by bit, and the immediate's bits are those of its sign extension. -/
theorem logicalImmediates : Obligations.LogicalImmediates := by
  intro rd rs1 imm s
  refine ⟨rfl, rfl, rfl, s.reg rs1 &&& imm12 imm, s.reg rs1 ||| imm12 imm, s.reg rs1 ^^^ imm12 imm, fun k hk => ?_,
    completes_of_value rfl rfl, completes_of_value rfl rfl, completes_of_value rfl rfl⟩
  rw [← getLsbD_imm12 imm hk]
  exact ⟨BitVec.getLsbD_and, BitVec.getLsbD_or, BitVec.getLsbD_xor⟩

/-- Settles O29: each shift is the product with, or the floor of a quotient by, a power of two. -/
theorem shiftImmediates : Obligations.ShiftImmediates := by
  intro rd rs1 shamt s
  exact ⟨rfl, completes_of_value rfl (shiftLeft_eq_ofNat _ _),
    rfl, completes_of_value rfl (ushiftRight_eq_ofNat _ _),
    rfl, completes_of_value rfl (sshiftRight_eq_ofInt _ _)⟩

/-- Settles O30: twelve zeros below imm20 multiply it by 2^12. -/
theorem upperImmediates : Obligations.UpperImmediates := by
  intro rd imm20 s
  refine ⟨rfl, completes_of_value rfl (immU_eq_ofNat imm20), rfl, completes_of_value rfl ?_⟩
  rw [BitVec.ofNat_add, ← immU_eq_ofNat, BitVec.ofNat_toNat, BitVec.setWidth_eq]

/-- Settles O31: the model's sum and difference are the low 32 bits of the exact ones. -/
theorem addSub : Obligations.AddSub := by
  intro rd rs1 rs2 s
  exact ⟨rfl, completes_of_value rfl (add_eq_ofInt _ _), rfl, completes_of_value rfl (sub_eq_ofInt _ _)⟩

/-- Settles O32: both comparisons, by what they decide. -/
theorem sltSltuCompare : Obligations.SltSltuCompare := by
  intro rd rs1 rs2 s
  exact ⟨rfl, completes_of_value rfl (boolWord_of_iff (lessSigned_iff _ _)),
    rfl, completes_of_value rfl (boolWord_of_iff (lessUnsigned_iff _ _))⟩

/-- Settles O33: the word operations act bit by bit. -/
theorem logicalRegisters : Obligations.LogicalRegisters := by
  intro rd rs1 rs2 s
  exact ⟨rfl, rfl, rfl, s.reg rs1 &&& s.reg rs2, s.reg rs1 ||| s.reg rs2, s.reg rs1 ^^^ s.reg rs2,
    fun _ _ => ⟨BitVec.getLsbD_and, BitVec.getLsbD_or, BitVec.getLsbD_xor⟩,
    completes_of_value rfl rfl, completes_of_value rfl rfl, completes_of_value rfl rfl⟩

/-- Settles O34: the same powers of two, with rs2 modulo 32 as the exponent. -/
theorem shiftRegisters : Obligations.ShiftRegisters := by
  intro rd rs1 rs2 s
  rw [← shiftAmount_eq_mod]
  exact ⟨rfl, completes_of_value rfl (shiftLeft_eq_ofNat _ _),
    rfl, completes_of_value rfl (ushiftRight_eq_ofNat _ _),
    rfl, completes_of_value rfl (sshiftRight_eq_ofInt _ _)⟩

/-- Settles O35: the word meets the ADDI row, and a result for x0 is discarded, which leaves the advance. -/
theorem nopOnlyAdvances : Obligations.NopOnlyAdvances := by
  intro s
  have hrow : rowI 0x00000013#32 .addi ∈ specificRows := List.mem_cons_self
  have hexec : exec pseudoNop s = .next (s.setPc (s.pc + 4#32)) := rfl
  exact ⟨by decide, decode_of_hits hrow (by decide), _, hexec, setPc_movesOnly s _⟩

/-! ## Overflow of a 32-bit sum (R134) -/

/-- The unsigned sum wraps exactly when it comes out below an operand. -/
theorem toNat_add_lt_iff (a b : Word) : (a + b).toNat < a.toNat ↔ a.toNat + b.toNat ≥ 2 ^ 32 := by
  rw [BitVec.toNat_add]
  omega

/-- The signed value of a sum is the exact sum, or 2^32 away from it where that is out of range. -/
theorem toInt_add_cases (a b : Word) :
    (a.toInt + b.toInt < -2 ^ 31 ∧ (a + b).toInt = a.toInt + b.toInt + 2 ^ 32)
    ∨ (-2 ^ 31 ≤ a.toInt + b.toInt ∧ a.toInt + b.toInt < 2 ^ 31 ∧ (a + b).toInt = a.toInt + b.toInt)
    ∨ (2 ^ 31 ≤ a.toInt + b.toInt ∧ (a + b).toInt = a.toInt + b.toInt - 2 ^ 32) := by
  have ha := a.le_toInt
  have ha' := a.toInt_lt
  have hb := b.le_toInt
  have hb' := b.toInt_lt
  rw [BitVec.toInt_add, Int.bmod_def]
  omega

/-- Adding a positive number overflows exactly when the sum comes out below the other operand. -/
theorem toInt_add_lt_iff_of_pos {a b : Word} (hb : 0 < b.toInt) :
    (a + b).toInt < a.toInt ↔ a.toInt + b.toInt > 2 ^ 31 - 1 := by
  have ha := a.le_toInt
  have hb' := b.toInt_lt
  have := toInt_add_cases a b
  omega

/-- "The sum should be less than one of the operands if and only if the other operand is negative" (R134): it is not
exactly when the signed sum is out of range. -/
theorem signed_overflow_iff (a b : Word) :
    ¬ (b.toInt < 0 ↔ (a + b).toInt < a.toInt)
      ↔ a.toInt + b.toInt < -2 ^ 31 ∨ a.toInt + b.toInt > 2 ^ 31 - 1 := by
  have ha := a.le_toInt
  have ha' := a.toInt_lt
  have hb := b.le_toInt
  have hb' := b.toInt_lt
  have := toInt_add_cases a b
  omega

/-! ## Straight-line code: one rule for a computation, one for a branch -/

/-- After a computation into a register other than x0, what comes next may rely on rd, the other registers and pc. -/
theorem completes_compute {s : State} {rd : RegIdx} {v : Word} {P : State → Prop} (hrd : rd ≠ 0#5)
    (h : ∀ t, t.reg rd = v → SameRegsExcept rd s t → t.pc = s.pc + 4#32 → P t) : Completes (s.compute rd v) P := by
  obtain ⟨t, ht, hv, hpc, hregs, -⟩ := compute_writesOnly s rd v
  exact ⟨t, ht, h t (by rwa [if_neg hrd] at hv) hregs hpc⟩

theorem aligned_add_four {pc : Word} (h : pc.toNat % 4 = 0) : (pc + 4#32).toNat % 4 = 0 := by
  rw [BitVec.toNat_add, BitVec.toNat_ofNat]
  omega

theorem branchTarget_aligned {s : State} {off : BitVec 13} (hpc : s.pc.toNat % 4 = 0) (hoff : off.toNat % 4 = 0) :
    isAligned (s.branchTarget off) .word = true := by
  rw [isAligned_word, State.branchTarget, immB, BitVec.toNat_add, BitVec.toNat_signExtend, BitVec.toNat_setWidth]
  split <;> omega

/-- A branch whose target is aligned goes there or advances, as its condition `c` says (R163). -/
theorem completes_branch {s : State} {off : BitVec 13} {taken : Bool} {c : Prop} [Decidable c] (hc : taken = true ↔ c)
    (hpc : s.pc.toNat % 4 = 0) (hoff : off.toNat % 4 = 0) :
    Completes (s.branch taken off) fun u => u.pc = if c then s.pc + off.signExtend 32 else s.pc + 4#32 := by
  cases taken with
  | true => exact ⟨_, State.branch_taken (branchTarget_aligned hpc hoff), (if_pos (hc.mp rfl)).symm⟩
  | false => exact ⟨_, State.branch_not_taken s off, (if_neg fun h => Bool.false_ne_true (hc.mpr h)).symm⟩

/-! ## The three idioms (R134) -/

section
variable {s : State} {off : BitVec 13} (hpc : s.pc.toNat % 4 = 0) (hoff : off.toNat % 4 = 0)
include hpc hoff

/-- `add t0, t1, t2; bltu t0, t1, overflow`. -/
theorem unsigned_add_check :
    Completes (exec (.add 5#5 6#5 7#5) s) fun t => Completes (exec (.bltu 5#5 6#5 off) t) fun u =>
      u.pc = if (s.reg 6#5).toNat + (s.reg 7#5).toNat ≥ 2 ^ 32 then t.pc + off.signExtend 32 else t.pc + 4#32 := by
  refine completes_compute (by decide) fun t ht hregs htpc => ?_
  refine completes_branch ?_ (htpc ▸ aligned_add_four hpc) hoff
  rw [lessUnsigned_iff, ht, hregs 6#5 (by decide), toNat_add_lt_iff]

/-- `addi t0, t1, +imm; blt t0, t1, overflow`. -/
theorem signed_addi_check {imm : BitVec 12} (himm : 0 < imm.toInt) :
    Completes (exec (.addi 5#5 6#5 imm) s) fun t => Completes (exec (.blt 5#5 6#5 off) t) fun u =>
      u.pc = if (s.reg 6#5).toInt + imm.toInt > 2 ^ 31 - 1 then t.pc + off.signExtend 32 else t.pc + 4#32 := by
  refine completes_compute (by decide) fun t ht hregs htpc => ?_
  refine completes_branch ?_ (htpc ▸ aligned_add_four hpc) hoff
  rw [← toInt_imm12] at himm ⊢
  rw [lessSigned_iff, ht, hregs 6#5 (by decide), toInt_add_lt_iff_of_pos himm]

/-- `add t0, t1, t2; slti t3, t2, 0; slt t4, t0, t1; bne t3, t4, overflow`. -/
theorem signed_add_check :
    Completes (exec (.add 5#5 6#5 7#5) s) fun t => Completes (exec (.slti 28#5 7#5 0#12) t) fun u =>
      Completes (exec (.slt 29#5 5#5 6#5) u) fun v => Completes (exec (.bne 28#5 29#5 off) v) fun z =>
        z.pc = if (s.reg 6#5).toInt + (s.reg 7#5).toInt < -2 ^ 31 ∨ (s.reg 6#5).toInt + (s.reg 7#5).toInt > 2 ^ 31 - 1
          then v.pc + off.signExtend 32 else v.pc + 4#32 := by
  refine completes_compute (by decide) fun t ht hst htpc => ?_
  refine completes_compute (by decide) fun u hu htu hupc => ?_
  refine completes_compute (by decide) fun v hv huv hvpc => ?_
  have hpcv : v.pc.toNat % 4 = 0 := by
    rw [hvpc, hupc, htpc]
    exact aligned_add_four (aligned_add_four (aligned_add_four hpc))
  refine completes_branch ?_ hpcv hoff
  have hneg : v.reg 28#5 = boolWord (lessSigned (s.reg 7#5) 0#32) := by
    rw [huv 28#5 (by decide), hu, hst 7#5 (by decide)]
    rfl
  have hless : v.reg 29#5 = boolWord (lessSigned (s.reg 6#5 + s.reg 7#5) (s.reg 6#5)) := by
    rw [hv, htu 5#5 (by decide), htu 6#5 (by decide), ht, hst 6#5 (by decide)]
  rw [hneg, hless, bne_iff_ne, Ne, boolWord_inj, Bool.eq_iff_iff, lessSigned_iff, lessSigned_iff,
    ← signed_overflow_iff]
  rfl

end

/-- Settles O36: each check compares registers that hold the sum, or a comparison with it. -/
theorem overflowIdioms : Obligations.OverflowIdioms := by
  intro s off imm hpc hoff
  exact ⟨unsigned_add_check hpc hoff, signed_addi_check hpc hoff, signed_add_check hpc hoff⟩

end Sys2Proof.IntegerComputational
end

section
/-! PROOFS. The control transfer instructions (41_control_transfer.md): a jump ends in `State.jump` and a branch in
`State.branch`. Each of the two has one rule, for a target given in exact arithmetic; what remains for an instruction is
its target or its condition. -/

namespace Sys2Proof.ControlTransfer

open Sys2Proof Sys2Proof.Machine Sys2Proof.IntegerComputational

/-! ## The targets in exact arithmetic -/

/-- A pc-relative target: the unsigned pc plus the signed offset, modulo 2^32 (R150, R163). -/
theorem add_signExtend_eq_ofInt {n : Nat} (a : Word) (off : BitVec n) :
    a + off.signExtend 32 = BitVec.ofInt 32 (a.toNat + off.toInt) := by
  rw [BitVec.ofInt_add, BitVec.ofInt_natCast, BitVec.ofNat_toNat, BitVec.setWidth_eq, BitVec.signExtend]

/-- Setting bit 0 to zero is shifting it out and back, which subtracts the remainder modulo 2 (R151). -/
theorem and_clearBit0_eq_ofNat (a : Word) : a &&& 0xFFFFFFFE#32 = BitVec.ofNat 32 (a.toNat - a.toNat % 2) := by
  have hmask : 0xFFFFFFFE#32 = BitVec.allOnes 32 <<< 1 := by decide
  calc a &&& 0xFFFFFFFE#32
      = a >>> 1 <<< 1 := by rw [hmask, BitVec.shiftLeft_ushiftRight]
    _ = BitVec.ofNat 32 ((a >>> 1).toNat * 2 ^ 1) := shiftLeft_eq_ofNat _ _
    _ = BitVec.ofNat 32 (a.toNat - a.toNat % 2) := by
      congr 1
      rw [BitVec.toNat_ushiftRight, Nat.shiftRight_eq_div_pow]
      omega

theorem jalTarget_eq (s : State) (off : BitVec 21) :
    s.jalTarget off = BitVec.ofInt 32 (s.pc.toNat + off.toInt) :=
  add_signExtend_eq_ofInt s.pc off

theorem branchTarget_eq (s : State) (off : BitVec 13) :
    s.branchTarget off = BitVec.ofInt 32 (s.pc.toNat + off.toInt) :=
  add_signExtend_eq_ofInt s.pc off

theorem jalrTarget_eq (s : State) (rs1 : RegIdx) (imm : BitVec 12) :
    let sum := BitVec.ofInt 32 ((s.reg rs1).toInt + imm.toInt)
    s.jalrTarget rs1 imm = BitVec.ofNat 32 (sum.toNat - sum.toNat % 2) := by
  intro sum
  have hsum : s.reg rs1 + imm12 imm = sum := by rw [add_eq_ofInt, toInt_imm12]
  rw [State.jalrTarget, hsum, and_clearBit0_eq_ofNat]

/-! ## The rule of the jumps and the rule of the branches -/

theorem isAligned_word_eq_false {a : Word} : isAligned a .word = false ↔ a.toNat % 4 ≠ 0 := by
  rw [← Bool.not_eq_true, isAligned_word]

theorem takeTrap_raises (s : State) (c : Cause) (info : Option Word) :
    Raises (.next (s.takeTrap ⟨c, info⟩)) s c info :=
  ⟨_, rfl, ⟨_, rfl⟩, rfl, fun _ => rfl, fun _ => rfl⟩

/-- A jump to an aligned target links and goes there; to another it raises (R153). -/
theorem jump_links_or_raises (s : State) (rd : RegIdx) (target : Word) :
    (target.toNat % 4 = 0 → Completes (s.jump rd target) (WritesOnly rd (s.pc + 4#32) target s))
    ∧ (target.toNat % 4 ≠ 0 → Raises (s.jump rd target) s .instructionAddressMisaligned (some target)) := by
  constructor
  · intro h
    exact jump_writesOnly ((isAligned_word target).mpr h)
  · intro h
    rw [State.jump_misaligned (isAligned_word_eq_false.mpr h)]
    exact takeTrap_raises s _ _

/-- `State.branch` follows the rule of R163 for any condition its flag decides. -/
theorem branch_branches {s : State} {off : BitVec 13} {taken : Bool} {c : Prop} (hc : taken = true ↔ c) :
    Branches (s.branch taken off) c off s := by
  rw [Branches, ← branchTarget_eq, ← hc]
  refine ⟨fun hn => ?notTaken, fun ht ha => ?jumps, fun ht ha => ?raises⟩
  case notTaken =>
    rw [Bool.not_eq_true] at hn
    subst hn
    exact ⟨_, State.branch_not_taken s off, setPc_movesOnly s _⟩
  case jumps =>
    subst ht
    exact ⟨_, State.branch_taken ((isAligned_word _).mpr ha), setPc_movesOnly s _⟩
  case raises =>
    subst ht
    rw [State.branch_misaligned (isAligned_word_eq_false.mpr ha)]
    exact takeTrap_raises s _ _

/-! ## JAL and JALR -/

/-- Settles O37: JAL is a jump to pc plus the exact offset. -/
theorem jalJumpsAndLinks : Obligations.JalJumpsAndLinks := by
  intro rd off s
  refine ⟨rfl, ?_⟩
  rw [← jalTarget_eq]
  exact jump_links_or_raises s rd (s.jalTarget off)

/-- Settles O38: JALR is a jump to the exact sum with its low bit dropped. -/
theorem jalrJumpsAndLinks : Obligations.JalrJumpsAndLinks := by
  intro rd rs1 imm s
  refine ⟨rfl, ?_⟩
  intro sum target
  rw [show target = s.jalrTarget rs1 imm from (jalrTarget_eq s rs1 imm).symm]
  exact jump_links_or_raises s rd (s.jalrTarget rs1 imm)

/-! ## The branches -/

/-- Settles O39: the flags decide equality and its negation. -/
theorem beqBneBranch : Obligations.BeqBneBranch := by
  intro rs1 rs2 off s
  exact ⟨rfl, branch_branches beq_iff_eq, rfl, branch_branches bne_iff_ne⟩

theorem not_lessSigned_iff (a b : Word) : (!lessSigned a b) = true ↔ a.toInt ≥ b.toInt := by
  rw [Bool.not_eq_true', ← Bool.not_eq_true, lessSigned_iff, Int.not_lt]

theorem not_lessUnsigned_iff (a b : Word) : (!lessUnsigned a b) = true ↔ a.toNat ≥ b.toNat := by
  rw [Bool.not_eq_true', ← Bool.not_eq_true, lessUnsigned_iff, Nat.not_lt]

/-- Settles O40: BGE's flag is the negation of BLT's, which is the signed `≥`. -/
theorem bltBgeBranch : Obligations.BltBgeBranch := by
  intro rs1 rs2 off s
  exact ⟨rfl, branch_branches (lessSigned_iff _ _), rfl, branch_branches (not_lessSigned_iff _ _)⟩

/-- Settles O41: BGEU's flag is the negation of BLTU's, which is the unsigned `≥`. -/
theorem bltuBgeuBranch : Obligations.BltuBgeuBranch := by
  intro rs1 rs2 off s
  exact ⟨rfl, branch_branches (lessUnsigned_iff _ _), rfl, branch_branches (not_lessUnsigned_iff _ _)⟩

end Sys2Proof.ControlTransfer
end

section
/-! PROOFS. The loads and stores (42_load_store.md): the effective address, and a load as what `MemRead` answers. An
aligned load from ordinary memory is `State.compute` on the value read, and a load into x0 makes the access of any other
load. -/

namespace Sys2Proof.LoadStore

open Sys2Proof Sys2Proof.Machine Sys2Proof.IntegerComputational Sys2Proof.ControlTransfer

/-! ## The effective address -/

/-- A sign-extended 12-bit displacement is small, or within 2048 of the top of the address space (R171). -/
theorem toNat_signExtend_range (imm : BitVec 12) :
    (imm.signExtend 32).toNat ≤ 0x7FF ∨ 0xFFFFF800 ≤ (imm.signExtend 32).toNat := by
  rw [BitVec.toNat_signExtend, BitVec.toNat_setWidth_of_le (by decide)]
  cases hsign : imm.msb with
  | false =>
    left
    have hsmall := BitVec.toNat_lt_of_msb_false hsign
    simpa using Nat.le_of_lt_succ hsmall
  | true =>
    right
    have hlarge := BitVec.le_toNat_of_msb_true hsign
    simp only [if_true]
    omega

theorem effectiveAddress_x0 (s : State) (imm : BitVec 12) : s.effectiveAddress 0#5 imm = imm.signExtend 32 :=
  BitVec.zero_add _

/-- Settles O43: the model's sum is the low 32 bits of the exact one. -/
theorem effectiveAddressIsSum : Obligations.EffectiveAddressIsSum := by
  intro s rs1 imm
  refine ⟨add_signExtend_eq_ofInt _ imm, fun hx0 => ?x0, imm.le_toInt, Int.lt_add_one_iff.mp imm.toInt_lt⟩
  case x0 =>
    rw [hx0, effectiveAddress_x0]
    exact ⟨rfl, toNat_signExtend_range imm⟩

/-! ## What a load does -/

section
variable {s : State} {w : Width} {f : Word → Word} {rd rs1 : RegIdx} {imm : BitVec 12}

/-- An aligned load from ordinary memory computes the extension of what is read there (R172). -/
theorem load_eq_compute (ha : isAligned (s.effectiveAddress rs1 imm) w = true)
    (hm : memmapAnswer s.params .read (s.effectiveAddress rs1 imm) w = some .memory) :
    s.load w f rd rs1 imm = s.compute rd (f (s.readMemory (s.effectiveAddress rs1 imm) w)) :=
  State.load_done ((State.memRead_allowed (misalignedCause_aligned ha) hm).trans (State.performRead_memory ha))

/-- A load that raises nothing for its alignment, and that the map denies, raises the access fault (R46). -/
theorem load_denied_raises (ha : AlignmentOk s.params (s.effectiveAddress rs1 imm) w)
    (hm : memmapAnswer s.params .read (s.effectiveAddress rs1 imm) w = none) :
    Raises (s.load w f rd rs1 imm) s .loadAccessFault (some (s.effectiveAddress rs1 imm)) := by
  rw [State.load_raised (State.memRead_denied (misalignedCause_ok ha) hm)]
  exact takeTrap_raises s _ _

/-- All that a load that answers a next state has done. -/
theorem load_next_inv {t : State} (h : s.load w f rd rs1 imm = .next t) :
    (∃ p, s.memRead (s.effectiveAddress rs1 imm) w = .done p ∧ t = (p.2.setReg rd (f p.1)).advance)
    ∨ ∃ x, s.memRead (s.effectiveAddress rs1 imm) w = .raised x ∧ t = s.takeTrap x := by
  cases hr : s.memRead (s.effectiveAddress rs1 imm) w with
  | done p => rw [State.load_done hr] at h; cases h; exact .inl ⟨p, rfl, rfl⟩
  | raised x => rw [State.load_raised hr] at h; cases h; exact .inr ⟨x, rfl, rfl⟩
  | refused r => rw [State.load_refused hr] at h; cases h

end

/-! ## LB and LBU -/

section
variable (s : State) (a : Word)

theorem signedBits_readMemory_byte :
    signedBits .byte (s.readMemory a .byte) = BitVec.ofInt 32 (s.byteAt a).toInt := by
  rw [State.readMemory_byte, signedBits, byte_of_word, BitVec.signExtend]

theorem lowBits_readMemory_byte : lowBits .byte (s.readMemory a .byte) = BitVec.ofNat 32 (s.byteAt a).toNat := by
  rw [State.readMemory_byte, lowBits, byte_of_word, BitVec.ofNat_toNat]

end

/-- A byte access is always aligned (R45). -/
theorem alignmentOk_byte (p : Params) (a : Word) : AlignmentOk p a .byte := .inl (Nat.mod_one _)

/-- Settles O46: a byte load is always aligned, and its extension is of the one byte read. -/
theorem lbLbuLoadByte : Obligations.LbLbuLoadByte := by
  intro rd rs1 imm s ea
  refine ⟨rfl, rfl, fun hm => ⟨?lb, ?lbu⟩, fun hm => ⟨?lbDenied, ?lbuDenied⟩⟩
  case lb => exact completes_of_value (load_eq_compute (isAligned_byte _) hm) (signedBits_readMemory_byte s ea)
  case lbu => exact completes_of_value (load_eq_compute (isAligned_byte _) hm) (lowBits_readMemory_byte s ea)
  case lbDenied => exact load_denied_raises (alignmentOk_byte _ _) hm
  case lbuDenied => exact load_denied_raises (alignmentOk_byte _ _) hm

/-! ## Loads into x0 -/

/-- An access to read changes no register, whole or split, of memory or of a device. -/
theorem memRead_regs {s : State} {a : Word} {w : Width} {p : Word × State} (h : s.memRead a w = .done p) :
    p.2.regs = s.regs := by
  rcases State.memRead_cases s a w with ⟨cls, hr, -⟩ | hr | ⟨hr, -⟩
  · rw [hr] at h
    cases ha : isAligned a w with
    | false =>
      rw [State.performRead_split ha] at h
      obtain ⟨hregs, -⟩ := State.readSplit_frame h
      exact hregs
    | true =>
      cases cls with
      | memory => rw [State.performRead_memory ha] at h; cases h; rfl
      | io => rw [State.performRead_io ha] at h; cases h; rfl
  · rw [hr] at h; cases h
  · rw [hr] at h; cases h

/-- The access of a load does not depend on rd, so that into x0 it ends the same but for the discarded value (R173). -/
theorem load_x0_completes {s t : State} {w : Width} {f : Word → Word} {rd rs1 : RegIdx} {imm : BitVec 12}
    (h : s.load w f rd rs1 imm = .next t) :
    Completes (s.load w f 0#5 rs1 imm) fun t' =>
      SameRegs s t' ∧ t'.pc = t.pc ∧ t'.trap = t.trap ∧ SameTrace t t' ∧ SameMemory t t' := by
  rcases load_next_inv h with ⟨p, hp, rfl⟩ | ⟨x, hx, rfl⟩
  · refine ⟨p.2.advance, State.load_done hp, ?_, ?_, ?_, ⟨?_, ?_, ?_⟩, ?_⟩
    · exact State.reg_congr (memRead_regs hp)
    all_goals simp [SameMemory]
  · exact ⟨s.takeTrap x, State.load_raised hx, fun _ => rfl, rfl, rfl, ⟨rfl, rfl, rfl⟩, fun _ => rfl⟩

/-- Settles O53: each of the five is `State.load` at its width and extension. -/
theorem loadsIntoX0 : Obligations.LoadsIntoX0 := by
  intro rd rs1 imm s t load hload h
  simp only [List.mem_cons, List.not_mem_nil, or_false] at hload
  obtain rfl | rfl | rfl | rfl | rfl := hload
  all_goals exact load_x0_completes h

end Sys2Proof.LoadStore
end

section
/-! PROOFS. ECALL and EBREAK (44_system.md): each has no field to fill, so that its encoding is one word, and its whole
effect is the trap. -/

namespace Sys2Proof.System

open Sys2Proof Sys2Proof.Machine

theorem encode_ecall : encode .ecall = 0x00000073#32 := by decide

theorem encode_ebreak : encode .ebreak = 0x00100073#32 := by decide

theorem exec_ecall (s : State) : exec .ecall s = .next (s.takeTrap ⟨.environmentCall, none⟩) := rfl

theorem exec_ebreak (s : State) : exec .ebreak s = .next (s.takeTrap ⟨.breakpoint, none⟩) := rfl

/-- Settles O59: both take their trap in every state, and taking a trap changes nothing but the record. -/
theorem ecallEbreakTrap : Obligations.EcallEbreakTrap := by
  intro s
  refine ⟨encode_ecall, ?ecallTraps, encode_ebreak, ?ebreakTraps⟩
  case ecallTraps => rw [exec_ecall]; exact takeTrap_traps s _ _
  case ebreakTraps => rw [exec_ebreak]; exact takeTrap_traps s _ _

end Sys2Proof.System
end

section
/-! PROOFS. Encoding and decoding (30_encoding.md): every encoder puts its fields where the decoder reads them, so that a
word is its fields put together again, and whether a row of the opcode table is met is a matter of the opcode, funct3 and
funct7 fields. -/

namespace Sys2Proof.Encoding

open Sys2Proof Sys2Proof.Laws

/-! ## A word is its fields put together (R72 to R77, R91) -/

section
variable (w : Word)

theorem encodeR_of_fields :
    encodeR (funct7Field w) (rs2Field w) (rs1Field w) (funct3Field w) (rdField w) (opcodeField w) = w := by
  apply BitVec.eq_of_getLsbD_eq
  intro i hi
  simp only [encodeR, funct7Field, rs2Field, rs1Field, funct3Field, rdField, opcodeField, BitVec.getLsbD_append,
    BitVec.getLsbD_extractLsb']
  interval_cases i <;> simp

theorem encodeI_of_fields :
    encodeI (immIField w) (rs1Field w) (funct3Field w) (rdField w) (opcodeField w) = w := by
  apply BitVec.eq_of_getLsbD_eq
  intro i hi
  simp only [encodeI, immIField, rs1Field, funct3Field, rdField, opcodeField, BitVec.getLsbD_append,
    BitVec.getLsbD_extractLsb']
  interval_cases i <;> simp

theorem encodeS_of_fields :
    encodeS (immSField w) (rs2Field w) (rs1Field w) (funct3Field w) (opcodeField w) = w := by
  apply BitVec.eq_of_getLsbD_eq
  intro i hi
  simp only [encodeS, immSField, rs2Field, rs1Field, funct3Field, opcodeField, BitVec.getLsbD_append,
    BitVec.getLsbD_extractLsb']
  interval_cases i <;> simp

theorem encodeB_of_fields :
    encodeB (immBField w) (rs2Field w) (rs1Field w) (funct3Field w) (opcodeField w) = w := by
  apply BitVec.eq_of_getLsbD_eq
  intro i hi
  simp only [encodeB, immBField, rs2Field, rs1Field, funct3Field, opcodeField, BitVec.getLsbD_append,
    BitVec.getLsbD_extractLsb']
  interval_cases i <;> simp

theorem encodeU_of_fields : encodeU (immUField w) (rdField w) (opcodeField w) = w := by
  apply BitVec.eq_of_getLsbD_eq
  intro i hi
  simp only [encodeU, immUField, rdField, opcodeField, BitVec.getLsbD_append, BitVec.getLsbD_extractLsb']
  interval_cases i <;> simp

theorem encodeJ_of_fields : encodeJ (immJField w) (rdField w) (opcodeField w) = w := by
  apply BitVec.eq_of_getLsbD_eq
  intro i hi
  simp only [encodeJ, immJField, rdField, opcodeField, BitVec.getLsbD_append, BitVec.getLsbD_extractLsb']
  interval_cases i <;> simp

theorem encodeFence_of_fields (h3 : funct3Field w = 0b000#3) (hop : opcodeField w = 0b0001111#7) :
    encodeFence (fmField w) (predField w) (succField w) (rs1Field w) (rdField w) = w := by
  rw [encodeFence, predField, succField, accessSet_toBits_ofBits, accessSet_toBits_ofBits, ← h3, ← hop]
  apply BitVec.eq_of_getLsbD_eq
  intro i hi
  simp only [fmField, rs1Field, funct3Field, rdField, opcodeField, BitVec.getLsbD_append, BitVec.getLsbD_extractLsb']
  interval_cases i <;> simp

/-- The low bit of a branch offset read from a word is 0 (R80). -/
theorem branchOffsetOk_immBField : branchOffsetOk (immBField w) = true := by
  rw [branchOffsetOk, immBField, BitVec.getLsbD_append]
  simp

/-- The low bit of a JAL offset read from a word is 0 (R82). -/
theorem jumpOffsetOk_immJField : jumpOffsetOk (immJField w) = true := by
  rw [jumpOffsetOk, immJField, BitVec.getLsbD_append]
  simp

end

/-! ## What the masks of the opcode table fix (R86 to R92) -/

section
variable (f7 : BitVec 7) (rs2 rs1 rd : RegIdx) (f3 : BitVec 3) (op : BitVec 7) (imm : BitVec 12) (imm20 : BitVec 20)

theorem encodeR_fixed : funct7Field (encodeR f7 rs2 rs1 f3 rd op) = f7
    ∧ funct3Field (encodeR f7 rs2 rs1 f3 rd op) = f3 ∧ opcodeField (encodeR f7 rs2 rs1 f3 rd op) = op := by
  refine ⟨?_, ?_, ?_⟩ <;> apply BitVec.eq_of_getLsbD_eq <;> intro i hi <;>
    simp only [encodeR, funct7Field, funct3Field, opcodeField, BitVec.getLsbD_append, BitVec.getLsbD_extractLsb'] <;>
    interval_cases i <;> simp

theorem encodeI_fixed : funct3Field (encodeI imm rs1 f3 rd op) = f3
    ∧ opcodeField (encodeI imm rs1 f3 rd op) = op := by
  refine ⟨?_, ?_⟩ <;> apply BitVec.eq_of_getLsbD_eq <;> intro i hi <;>
    simp only [encodeI, funct3Field, opcodeField, BitVec.getLsbD_append, BitVec.getLsbD_extractLsb'] <;>
    interval_cases i <;> simp

theorem opcodeField_encodeU : opcodeField (encodeU imm20 rd op) = op := by
  apply BitVec.eq_of_getLsbD_eq
  intro i hi
  simp only [encodeU, opcodeField, BitVec.getLsbD_append, BitVec.getLsbD_extractLsb']
  interval_cases i <;> simp

end

section
variable {r : OpRow} {w : Word} {f7 : BitVec 7} {f3 : BitVec 3} {op : BitVec 7}

/-- A row that fixes the opcode alone. -/
theorem hits_iff_opcode (hm : r.mask = 0x0000007F#32) (hp : r.pattern = encodeU 0#20 0#5 op) :
    r.hits w = true ↔ opcodeField w = op := by
  have hw : w &&& 0x0000007F#32 = encodeU 0#20 0#5 (opcodeField w) := by
    conv_lhs => rw [← encodeU_of_fields w, encodeU_masked]
  rw [OpRow.hits, beq_iff_eq, hm, hp, hw]
  refine ⟨fun h => ?_, fun h => by rw [h]⟩
  simpa only [opcodeField_encodeU] using congrArg opcodeField h

/-- A row that fixes funct3 and the opcode. -/
theorem hits_iff_funct3 (hm : r.mask = 0x0000707F#32) (hp : r.pattern = encodeI 0#12 0#5 f3 0#5 op) :
    r.hits w = true ↔ funct3Field w = f3 ∧ opcodeField w = op := by
  have hw : w &&& 0x0000707F#32 = encodeI 0#12 0#5 (funct3Field w) 0#5 (opcodeField w) := by
    conv_lhs => rw [← encodeI_of_fields w, encodeI_masked]
  rw [OpRow.hits, beq_iff_eq, hm, hp, hw]
  refine ⟨fun h => ⟨?_, ?_⟩, fun ⟨h3, hop⟩ => by rw [h3, hop]⟩
  · simpa only [encodeI_fixed] using congrArg funct3Field h
  · simpa only [encodeI_fixed] using congrArg opcodeField h

/-- A row that fixes funct7, funct3 and the opcode. -/
theorem hits_iff_funct7 (hm : r.mask = 0xFE00707F#32) (hp : r.pattern = encodeR f7 0#5 0#5 f3 0#5 op) :
    r.hits w = true ↔ funct7Field w = f7 ∧ funct3Field w = f3 ∧ opcodeField w = op := by
  have hw : w &&& 0xFE00707F#32 = encodeR (funct7Field w) 0#5 0#5 (funct3Field w) 0#5 (opcodeField w) := by
    conv_lhs => rw [← encodeR_of_fields w, encodeR_masked]
  rw [OpRow.hits, beq_iff_eq, hm, hp, hw]
  refine ⟨fun h => ⟨?_, ?_, ?_⟩, fun ⟨h7, h3, hop⟩ => by rw [h7, h3, hop]⟩
  · simpa only [encodeR_fixed] using congrArg funct7Field h
  · simpa only [encodeR_fixed] using congrArg funct3Field h
  · simpa only [encodeR_fixed] using congrArg opcodeField h

/-- A row that is one word. -/
theorem hits_rowWord_iff {p : Word} {i : Instr} : (rowWord p i).hits w = true ↔ w = p := by
  have hw : w &&& 0xFFFFFFFF#32 = w := BitVec.and_allOnes
  rw [OpRow.hits, beq_iff_eq, rowWord, hw]

theorem hits_rowFence_iff : rowFence.hits w = true ↔ funct3Field w = 0b000#3 ∧ opcodeField w = 0b0001111#7 :=
  hits_iff_funct3 rfl (by decide)

end

/-! ## From the instruction to the word and back -/

/-- The word of every well-formed instruction meets a row that builds the instruction. -/
theorem hitsRow (i : Instr) : HitsRow.Statement i := by
  cases i with
  | addi => exact HitsRow.addi _ _ _
  | slti => exact HitsRow.slti _ _ _
  | sltiu => exact HitsRow.sltiu _ _ _
  | andi => exact HitsRow.andi _ _ _
  | ori => exact HitsRow.ori _ _ _
  | xori => exact HitsRow.xori _ _ _
  | slli => exact HitsRow.slli _ _ _
  | srli => exact HitsRow.srli _ _ _
  | srai => exact HitsRow.srai _ _ _
  | lui => exact HitsRow.lui _ _
  | auipc => exact HitsRow.auipc _ _
  | add => exact HitsRow.add _ _ _
  | sub => exact HitsRow.sub _ _ _
  | slt => exact HitsRow.slt _ _ _
  | sltu => exact HitsRow.sltu _ _ _
  | and => exact HitsRow.and _ _ _
  | or => exact HitsRow.or _ _ _
  | xor => exact HitsRow.xor _ _ _
  | sll => exact HitsRow.sll _ _ _
  | srl => exact HitsRow.srl _ _ _
  | sra => exact HitsRow.sra _ _ _
  | jal => exact HitsRow.jal _ _
  | jalr => exact HitsRow.jalr _ _ _
  | beq => exact HitsRow.beq _ _ _
  | bne => exact HitsRow.bne _ _ _
  | blt => exact HitsRow.blt _ _ _
  | bge => exact HitsRow.bge _ _ _
  | bltu => exact HitsRow.bltu _ _ _
  | bgeu => exact HitsRow.bgeu _ _ _
  | lw => exact HitsRow.lw _ _ _
  | lh => exact HitsRow.lh _ _ _
  | lhu => exact HitsRow.lhu _ _ _
  | lb => exact HitsRow.lb _ _ _
  | lbu => exact HitsRow.lbu _ _ _
  | sw => exact HitsRow.sw _ _ _
  | sh => exact HitsRow.sh _ _ _
  | sb => exact HitsRow.sb _ _ _
  | fence => exact HitsRow.fence _ _ _ _ _
  | fenceTso => exact HitsRow.fenceTso
  | pause => exact HitsRow.pause
  | ecall => exact HitsRow.ecall
  | ebreak => exact HitsRow.ebreak

/-- The word of a well-formed FENCE is not the word of FENCE.TSO or PAUSE: its fields would be theirs. -/
theorem fence_word_ne {w : Word} (hwf : WellFormed (rowFence.build w) = true) :
    w ≠ 0x8330000F#32 ∧ w ≠ 0x0100000F#32 := by
  constructor <;> rintro rfl <;> exact absurd hwf (by decide)

/-- Settles O5: the word meets the instruction's row, and the table picks no other. -/
theorem decodeOfEncode : Obligations.DecodeOfEncode := by
  intro i hwf
  obtain ⟨r, hr, hhit, hbuild⟩ := hitsRow i hwf
  rw [opcodeTable_eq, List.mem_append, List.mem_singleton] at hr
  rcases hr with hspecific | rfl
  · rw [decode_of_hits hspecific hhit, hbuild]
  · obtain ⟨htso, hpause⟩ := fence_word_ne (hbuild ▸ hwf)
    rw [decode_fence hhit htso hpause, hbuild]

/-! ## From the word to the instruction and back -/

/-- Every word that meets the row is the encoding of the well-formed instruction the row builds from it. -/
def RowSound (r : OpRow) : Prop :=
  ∀ w, r.hits w = true → encode (r.build w) = w ∧ WellFormed (r.build w) = true

section
variable {pattern : Word} {f7 : BitVec 7} {f3 : BitVec 3} {op : BitVec 7}

theorem rowI_sound {f : RegIdx → RegIdx → BitVec 12 → Instr}
    (he : ∀ rd rs1 imm, encode (f rd rs1 imm) = encodeI imm rs1 f3 rd op)
    (hwf : ∀ rd rs1 imm, WellFormed (f rd rs1 imm) = true) (hp : pattern = encodeI 0#12 0#5 f3 0#5 op) :
    RowSound (rowI pattern f) := by
  intro w h
  obtain ⟨rfl, rfl⟩ := (hits_iff_funct3 rfl hp).mp h
  exact ⟨(he ..).trans (encodeI_of_fields w), hwf ..⟩

theorem rowShift_sound {f : RegIdx → RegIdx → BitVec 5 → Instr}
    (he : ∀ rd rs1 shamt, encode (f rd rs1 shamt) = encodeR f7 shamt rs1 f3 rd op)
    (hwf : ∀ rd rs1 shamt, WellFormed (f rd rs1 shamt) = true) (hp : pattern = encodeR f7 0#5 0#5 f3 0#5 op) :
    RowSound (rowShift pattern f) := by
  intro w h
  obtain ⟨rfl, rfl, rfl⟩ := (hits_iff_funct7 rfl hp).mp h
  exact ⟨(he ..).trans (encodeR_of_fields w), hwf ..⟩

theorem rowR_sound {f : RegIdx → RegIdx → RegIdx → Instr}
    (he : ∀ rd rs1 rs2, encode (f rd rs1 rs2) = encodeR f7 rs2 rs1 f3 rd op)
    (hwf : ∀ rd rs1 rs2, WellFormed (f rd rs1 rs2) = true) (hp : pattern = encodeR f7 0#5 0#5 f3 0#5 op) :
    RowSound (rowR pattern f) := by
  intro w h
  obtain ⟨rfl, rfl, rfl⟩ := (hits_iff_funct7 rfl hp).mp h
  exact ⟨(he ..).trans (encodeR_of_fields w), hwf ..⟩

theorem rowU_sound {f : RegIdx → BitVec 20 → Instr} (he : ∀ rd imm20, encode (f rd imm20) = encodeU imm20 rd op)
    (hwf : ∀ rd imm20, WellFormed (f rd imm20) = true) (hp : pattern = encodeU 0#20 0#5 op) :
    RowSound (rowU pattern f) := by
  intro w h
  obtain rfl := (hits_iff_opcode rfl hp).mp h
  exact ⟨(he ..).trans (encodeU_of_fields w), hwf ..⟩

theorem rowJ_sound {f : RegIdx → BitVec 21 → Instr} (he : ∀ rd off, encode (f rd off) = encodeJ off rd op)
    (hwf : ∀ rd off, WellFormed (f rd off) = jumpOffsetOk off) (hp : pattern = encodeU 0#20 0#5 op) :
    RowSound (rowJ pattern f) := by
  intro w h
  obtain rfl := (hits_iff_opcode rfl hp).mp h
  exact ⟨(he ..).trans (encodeJ_of_fields w), (hwf ..).trans (jumpOffsetOk_immJField w)⟩

theorem rowB_sound {f : RegIdx → RegIdx → BitVec 13 → Instr}
    (he : ∀ rs1 rs2 off, encode (f rs1 rs2 off) = encodeB off rs2 rs1 f3 op)
    (hwf : ∀ rs1 rs2 off, WellFormed (f rs1 rs2 off) = branchOffsetOk off)
    (hp : pattern = encodeI 0#12 0#5 f3 0#5 op) : RowSound (rowB pattern f) := by
  intro w h
  obtain ⟨rfl, rfl⟩ := (hits_iff_funct3 rfl hp).mp h
  exact ⟨(he ..).trans (encodeB_of_fields w), (hwf ..).trans (branchOffsetOk_immBField w)⟩

theorem rowS_sound {f : RegIdx → RegIdx → BitVec 12 → Instr}
    (he : ∀ rs2 rs1 imm, encode (f rs2 rs1 imm) = encodeS imm rs2 rs1 f3 op)
    (hwf : ∀ rs2 rs1 imm, WellFormed (f rs2 rs1 imm) = true) (hp : pattern = encodeI 0#12 0#5 f3 0#5 op) :
    RowSound (rowS pattern f) := by
  intro w h
  obtain ⟨rfl, rfl⟩ := (hits_iff_funct3 rfl hp).mp h
  exact ⟨(he ..).trans (encodeS_of_fields w), hwf ..⟩

theorem rowWord_sound {i : Instr} (he : encode i = pattern) (hwf : WellFormed i = true) :
    RowSound (rowWord pattern i) := by
  intro w h
  rw [hits_rowWord_iff.mp h]
  exact ⟨he, hwf⟩

end

theorem rowsImmediate_sound : ∀ r ∈ rowsImmediate, RowSound r := by
  simp only [rowsImmediate, List.forall_mem_cons, List.not_mem_nil, false_imp_iff, implies_true, and_true]
  refine ⟨?_, ?_, ?_, ?_, ?_, ?_, ?_, ?_, ?_, ?_, ?_⟩
  iterate 6 exact rowI_sound (fun _ _ _ => rfl) (fun _ _ _ => rfl) (by decide)
  iterate 3 exact rowShift_sound (fun _ _ _ => rfl) (fun _ _ _ => rfl) (by decide)
  iterate 2 exact rowU_sound (fun _ _ => rfl) (fun _ _ => rfl) (by decide)

theorem rowsRegister_sound : ∀ r ∈ rowsRegister, RowSound r := by
  simp only [rowsRegister, List.forall_mem_cons, List.not_mem_nil, false_imp_iff, implies_true, and_true]
  refine ⟨?_, ?_, ?_, ?_, ?_, ?_, ?_, ?_, ?_, ?_⟩
  all_goals exact rowR_sound (fun _ _ _ => rfl) (fun _ _ _ => rfl) (by decide)

theorem rowsControl_sound : ∀ r ∈ rowsControl, RowSound r := by
  simp only [rowsControl, List.forall_mem_cons, List.not_mem_nil, false_imp_iff, implies_true, and_true]
  refine ⟨rowJ_sound (fun _ _ => rfl) (fun _ _ => rfl) (by decide),
    rowI_sound (fun _ _ _ => rfl) (fun _ _ _ => rfl) (by decide), ?_, ?_, ?_, ?_, ?_, ?_⟩
  all_goals exact rowB_sound (fun _ _ _ => rfl) (fun _ _ _ => rfl) (by decide)

theorem rowsMemory_sound : ∀ r ∈ rowsMemory, RowSound r := by
  simp only [rowsMemory, List.forall_mem_cons, List.not_mem_nil, false_imp_iff, implies_true, and_true]
  refine ⟨?_, ?_, ?_, ?_, ?_, ?_, ?_, ?_⟩
  iterate 5 exact rowI_sound (fun _ _ _ => rfl) (fun _ _ _ => rfl) (by decide)
  iterate 3 exact rowS_sound (fun _ _ _ => rfl) (fun _ _ _ => rfl) (by decide)

theorem rowsSystem_sound : ∀ r ∈ rowsSystem, RowSound r := by
  simp only [rowsSystem, List.forall_mem_cons, List.not_mem_nil, false_imp_iff, implies_true, and_true]
  exact ⟨rowWord_sound (by decide) rfl, rowWord_sound (by decide) rfl⟩

theorem rowsNamedFence_sound : ∀ r ∈ rowsNamedFence, RowSound r := by
  simp only [rowsNamedFence, List.forall_mem_cons, List.not_mem_nil, false_imp_iff, implies_true, and_true]
  exact ⟨rowWord_sound (by decide) rfl, rowWord_sound (by decide) rfl⟩

theorem specificRows_sound : ∀ r ∈ specificRows, RowSound r := by
  simp only [specificRows, List.forall_mem_append]
  exact ⟨⟨⟨⟨⟨rowsImmediate_sound, rowsRegister_sound⟩, rowsControl_sound⟩, rowsMemory_sound⟩, rowsSystem_sound⟩,
    rowsNamedFence_sound⟩

theorem encode_rowFence_build {w : Word} (h : rowFence.hits w = true) : encode (rowFence.build w) = w := by
  obtain ⟨h3, hop⟩ := hits_rowFence_iff.mp h
  exact encodeFence_of_fields w h3 hop

/-- A FENCE word with the fields of FENCE.TSO or PAUSE is their word, so that any other one is well formed. -/
theorem wellFormed_rowFence_build {w : Word} (h : rowFence.hits w = true) (htso : w ≠ 0x8330000F#32)
    (hpause : w ≠ 0x0100000F#32) : WellFormed (rowFence.build w) = true := by
  have henc := encode_rowFence_build h
  simp only [rowFence, WellFormed, encode, Bool.and_eq_true, Bool.not_eq_true', ← Bool.not_eq_true,
    isFenceTsoFields, isPauseFields, beq_iff_eq] at henc ⊢
  constructor
  · rintro ⟨⟨⟨⟨hfm, hpred⟩, hsucc⟩, hrs1⟩, hrd⟩
    rw [hfm, hpred, hsucc, hrs1, hrd] at henc
    exact htso henc.symm
  · rintro ⟨⟨⟨⟨hfm, hpred⟩, hsucc⟩, hrs1⟩, hrd⟩
    rw [hfm, hpred, hsucc, hrs1, hrd] at henc
    exact hpause henc.symm

theorem decode_fenceTso : decode 0x8330000F#32 = .ok .fenceTso :=
  decode_of_hits (r := rowWord 0x8330000F#32 .fenceTso) (List.mem_of_getElem? (i := 39) rfl) (by decide)

theorem decode_pause : decode 0x0100000F#32 = .ok .pause :=
  decode_of_hits (r := rowWord 0x0100000F#32 .pause) (List.mem_of_getElem? (i := 40) rfl) (by decide)

/-- Settles O6: the row a word meets builds an instruction that encodes to the word; of the FENCE row this leaves the
words of FENCE.TSO and PAUSE, which rows of their own take. -/
theorem encodeOfDecode : Obligations.EncodeOfDecode := by
  intro w i h
  by_cases htso : w = 0x8330000F#32
  · rw [htso, decode_fenceTso] at h
    cases h
    exact ⟨htso ▸ by decide, rfl⟩
  by_cases hpause : w = 0x0100000F#32
  · rw [hpause, decode_pause] at h
    cases h
    exact ⟨hpause ▸ by decide, rfl⟩
  obtain ⟨r, hr, hhit, rfl⟩ := decode_ok h
  rw [opcodeTable_eq, List.mem_append, List.mem_singleton] at hr
  rcases hr with hspecific | rfl
  · exact specificRows_sound r hspecific w hhit
  · exact ⟨encode_rowFence_build hhit, wellFormed_rowFence_build hhit htso hpause⟩

/-! ## The rows -/

/-- The 40 rows of the instructions (R96). -/
def baseRows : List OpRow := rowsImmediate ++ rowsRegister ++ rowsControl ++ rowsMemory ++ rowsSystem ++ [rowFence]

theorem baseRows_clash : baseRows.Pairwise (fun a b => a.clash b = true) := by decide

/-- Settles O7: any two base rows fix some common bit to different values, and the two named words meet the FENCE row. -/
theorem rowsDisjoint : Obligations.RowsDisjoint := by
  refine ⟨by decide, fun w => ?disjoint, fun w r hr hhit => ?named⟩
  case disjoint =>
    refine baseRows_clash.imp fun {a b} hclash ⟨ha, hb⟩ => ?_
    rw [OpRow.clash_not_both hclash ha] at hb
    exact Bool.false_ne_true hb
  case named =>
    simp only [rowsNamedFence, List.mem_cons, List.not_mem_nil, or_false] at hr
    rcases hr with rfl | rfl <;> rw [hits_rowWord_iff.mp hhit] <;> decide

/-! ## Reserved words (R93) -/

section
variable {p w : Word} {f : Word → Instr}

theorem hits_mk_opcode (hp : p &&& 0x0000007F#32 = p) :
    (OpRow.mk 0x0000007F#32 p f).hits w = true ↔ opcodeField w = p.extractLsb' 0 7 := by
  refine hits_iff_opcode rfl (Eq.trans hp.symm ?_)
  conv_lhs => rw [← encodeU_of_fields p, encodeU_masked]
  rfl

theorem hits_mk_funct3 (hp : p &&& 0x0000707F#32 = p) : (OpRow.mk 0x0000707F#32 p f).hits w = true
    ↔ funct3Field w = p.extractLsb' 12 3 ∧ opcodeField w = p.extractLsb' 0 7 := by
  refine hits_iff_funct3 rfl (Eq.trans hp.symm ?_)
  conv_lhs => rw [← encodeI_of_fields p, encodeI_masked]
  rfl

theorem hits_mk_funct7 (hp : p &&& 0xFE00707F#32 = p) : (OpRow.mk 0xFE00707F#32 p f).hits w = true
    ↔ funct7Field w = p.extractLsb' 25 7 ∧ funct3Field w = p.extractLsb' 12 3
      ∧ opcodeField w = p.extractLsb' 0 7 := by
  refine hits_iff_funct7 rfl (Eq.trans hp.symm ?_)
  conv_lhs => rw [← encodeR_of_fields p, encodeR_masked]
  rfl

end

theorem reserved_iff_no_row (w : Word) : (∃ c, decode w = .error c) ↔ ∀ r ∈ opcodeTable, ¬ r.hits w = true := by
  simp [decode_error_iff]

/-- What holds of each of the eight values of a funct3 field holds of all. -/
theorem forall_funct3 {P : BitVec 3 → Prop} (h : P 0b000#3 ∧ P 0b001#3 ∧ P 0b010#3 ∧ P 0b011#3 ∧ P 0b100#3 ∧ P 0b101#3
    ∧ P 0b110#3 ∧ P 0b111#3) (f3 : BitVec 3) : P f3 := by
  have hall : f3 = 0b000#3 ∨ f3 = 0b001#3 ∨ f3 = 0b010#3 ∨ f3 = 0b011#3 ∨ f3 = 0b100#3 ∨ f3 = 0b101#3 ∨ f3 = 0b110#3
      ∨ f3 = 0b111#3 := by revert f3; decide
  obtain ⟨h0, h1, h2, h3, h4, h5, h6, h7⟩ := h
  rcases hall with rfl | rfl | rfl | rfl | rfl | rfl | rfl | rfl <;> assumption

/-- The opcodes of RV32I. -/
def majorOpcodes : List (BitVec 7) :=
  [0b0000011#7, 0b0001111#7, 0b0010011#7, 0b0010111#7, 0b0100011#7, 0b0110011#7, 0b0110111#7,
          0b1100011#7, 0b1100111#7, 0b1101111#7, 0b1110011#7]


theorem low_two_bits_eq (w : Word) : w.extractLsb' 0 2 = (opcodeField w).extractLsb' 0 2 := by
  apply BitVec.eq_of_getLsbD_eq
  intro i hi
  simp only [opcodeField, BitVec.getLsbD_extractLsb']
  interval_cases i <;> simp

/-- No opcode of RV32I has other low bits than 11 (R93). -/
theorem low_two_bits_of_mem_majorOpcodes : ∀ op ∈ majorOpcodes, op.extractLsb' 0 2 = 0b11#2 := by decide

/-- Settles O8: the rows are rewritten as conditions on the fields, and for each opcode of RV32I what they leave of the
values of funct3 and funct7 is what R93 lists; the words of FENCE.TSO and PAUSE have the fields of a FENCE, those of ECALL
and EBREAK the opcode SYSTEM. -/
theorem reservedWords : Obligations.ReservedWords := by
  intro w
  rw [reserved_iff_no_row, low_two_bits_eq]
  have htso : w = 0x8330000F#32 → funct3Field w = 0b000#3 ∧ opcodeField w = 0b0001111#7 := by rintro rfl; decide
  have hpause : w = 0x0100000F#32 → funct3Field w = 0b000#3 ∧ opcodeField w = 0b0001111#7 := by rintro rfl; decide
  have hecall : w = 0x00000073#32 → opcodeField w = 0b1110011#7 := by rintro rfl; decide
  have hebreak : w = 0x00100073#32 → opcodeField w = 0b1110011#7 := by rintro rfl; decide
  have hlow := low_two_bits_of_mem_majorOpcodes (opcodeField w)
  simp only [opcodeTable, rowsImmediate, rowsRegister, rowsControl, rowsMemory, rowsSystem, rowsNamedFence, rowFence,
    List.forall_mem_append, List.forall_mem_cons, List.not_mem_nil, false_imp_iff, implies_true, and_true,
    rowI, rowShift, rowU, rowR, rowJ, rowB, rowS, hits_rowWord_iff, hits_mk_opcode, hits_mk_funct3, hits_mk_funct7,
    BitVec.reduceAnd, BitVec.reduceExtractLsb', ne_eq]
  generalize (w = 0x00000073#32) = isEcall at *
  generalize (w = 0x00100073#32) = isEbreak at *
  generalize (w = 0x8330000F#32) = isTso at *
  generalize (w = 0x0100000F#32) = isPause at *
  generalize opcodeField w = op at *
  generalize funct3Field w = f3 at *
  generalize funct7Field w = f7 at *
  by_cases hop : op ∈ majorOpcodes
  · have h11 := hlow hop
    clear hlow
    simp only [majorOpcodes, List.mem_cons, List.not_mem_nil, or_false] at hop
    obtain rfl | rfl | rfl | rfl | rfl | rfl | rfl | rfl | rfl | rfl | rfl := hop
    · -- LOAD
      simp_all; revert f3; exact forall_funct3 (by simp)
    · -- MISC-MEM
      simp_all; revert f3; exact forall_funct3 (by simp +contextual)
    · -- OP-IMM
      simp_all; revert f3; exact forall_funct3 (by simp)
    · -- AUIPC
      simp_all
    · -- STORE
      simp_all; revert f3; exact forall_funct3 (by simp)
    · -- OP
      simp_all; revert f3; exact forall_funct3 (by simp)
    · -- LUI
      simp_all
    · -- BRANCH
      simp_all; revert f3; exact forall_funct3 (by simp)
    · -- JALR
      simp_all
    · -- JAL
      simp_all
    · -- SYSTEM
      simp_all
  · refine iff_of_true ?_ (.inr (.inl hop))
    simp only [majorOpcodes, List.mem_cons, List.not_mem_nil, or_false, not_or] at hop
    simp_all

/-- Settles O9: each of the fourteen words is decoded. -/
theorem decodeSamples : Obligations.DecodeSamples := by
  unfold Obligations.DecodeSamples
  decide

end Sys2Proof.Encoding
end

section
/-! PROOFS. Registers, reset and the step (10_state.md, 60_exceptions.md section 3, 70_reset_and_hazards.md): what a step
can do is said once, and the invariant, the fixed program text, totality and the precision of traps follow from it. -/

namespace Sys2Proof.Step

open Sys2Proof Sys2Proof.Machine Sys2Proof.IntegerComputational

/-! ## Registers and reset -/

/-- Settles O4: the register file's rules, one by one. -/
theorem registerFile : Obligations.RegisterFile := by
  intro s r v
  refine ⟨rfl, rfl, fun hr => ?_, fun q hq => State.reg_setReg_ne s v hq, State.setReg_pc s r v,
    State.setReg_byteAt s r v⟩
  rw [State.reg_setReg_same, if_neg hr]

theorem reset_reg (r : RegIdx) : State.reset.reg r = 0#32 := by
  unfold State.reg
  split
  · rfl
  · exact Vector.getElem_replicate _

/-- Settles O1: each field of the reset state is what it was set to. -/
theorem resetState : Obligations.ResetState :=
  ⟨reset_reg, rfl, fun _ => rfl, rfl, rfl, rfl, rfl⟩

/-- Settles O2: nothing is in memory or in the trace, and RESET_PC is a multiple of 4. -/
theorem resetMeetsInvariant : Obligations.ResetMeetsInvariant where
  mem_wf := rfl
  pc_aligned := by decide
  trap_fits := fun _ h => nomatch h
  draws_eq := rfl

/-! ## What a step can do (R25) -/

section
variable {s s' t : State}

theorem step_stopped {rec : TrapRecord} (h : s.trap = some rec) : step s = s.resume rec := by
  simp only [step, h]

theorem step_running (h : s.trap = none) (hl : s.landForeign = .ok s') : step s = runHart s' := by
  simp only [step, h, hl]

theorem step_refused (h : s.trap = none) {r : Refusal} (hl : s.landForeign = .error r) : step s = .refused r := by
  simp only [step, h, hl]

theorem landForeign_quiet (hf : s.foreign = []) : s.landForeign = .ok s := by simp only [State.landForeign, hf]

theorem step_quiet (h : s.trap = none) (hf : s.foreign = []) : step s = runHart s :=
  step_running h (landForeign_quiet hf)

/-- What a fetch that the map allows gives (R48). -/
theorem fetch_allowed (h : (memmapAnswer s.params .fetch s.pc .word).isSome = true) : s.fetch = .ok s.wordAtPc := by
  simp only [State.fetch, h, if_true, State.wordAtPc, byteAddress_zero]
  rfl

theorem runHart_denied (ha : isAligned s.pc .word = true) (h : memmapAnswer s.params .fetch s.pc .word = none) :
    runHart s = .next (s.takeTrap ⟨.instructionAccessFault, some s.pc⟩) := by
  simp [runHart, ha, State.fetch, h]

theorem runHart_allowed (ha : isAligned s.pc .word = true)
    (h : (memmapAnswer s.params .fetch s.pc .word).isSome = true) : runHart s = runWord s.wordAtPc s := by
  simp only [runHart, ha, if_true, fetch_allowed h]

theorem runWord_decoded {w : Word} {i : Instr} (h : decode w = .ok i) : runWord w s = exec i s := by
  simp only [runWord, h]

theorem runWord_reserved {w : Word} (h : opcodeTable.all (fun r => !r.hits w) = true) :
    runWord w s = .next (s.takeTrap ⟨.illegalInstruction, some w⟩) := by
  obtain ⟨c, hc⟩ := (decode_error_iff w).mpr h
  simp only [runWord, hc]

/-- All that one instruction of a running hart can do: at an aligned pc it executes the instruction there, or fetching or
decoding it raises. -/
theorem runHart_cases (s : State) :
    (isAligned s.pc .word = false ∧ runHart s = .fault (.misalignedPc s.pc))
    ∨ isAligned s.pc .word = true ∧
      ((∃ i, runHart s = exec i s)
      ∨ ∃ x, runHart s = .next (s.takeTrap x) ∧ recordFits ⟨x.cause, s.pc, x.info⟩) := by
  cases ha : isAligned s.pc .word with
  | false => exact .inl ⟨rfl, by simp [runHart, ha]⟩
  | true =>
    refine .inr ⟨rfl, ?_⟩
    cases hm : memmapAnswer s.params .fetch s.pc .word with
    | none => exact .inr ⟨_, runHart_denied ha hm, rfl⟩
    | some cls =>
      have hrun := runHart_allowed ha (hm ▸ rfl)
      cases hd : decode s.wordAtPc with
      | ok i => exact .inl ⟨i, hrun.trans (runWord_decoded hd)⟩
      | error c =>
        have hall := (decode_error_iff _).mp ⟨c, hd⟩
        exact .inr ⟨_, hrun.trans (runWord_reserved hall), hall⟩

/-- All that a next state of a running hart can be. -/
theorem runHart_next (h : runHart s = .next t) :
    isAligned s.pc .word = true ∧
      ((∃ i, exec i s = .next t) ∨ ∃ x, t = s.takeTrap x ∧ recordFits ⟨x.cause, s.pc, x.info⟩) := by
  rcases runHart_cases s with ⟨-, hf⟩ | ⟨ha, ⟨i, hi⟩ | ⟨x, hx, hfits⟩⟩
  · rw [hf] at h; cases h
  · exact ⟨ha, .inl ⟨i, hi.symm.trans h⟩⟩
  · rw [hx] at h; cases h
    exact ⟨ha, .inr ⟨x, rfl, hfits⟩⟩

/-- All that a next state of a step can be: the restart of a stopped hart by the environment, or one instruction of a
running hart after a batch of other agents' writes has landed. -/
theorem step_next (h : step s = .next t) :
    (∃ (reply : Reply) (rest : List Reply) (rec : TrapRecord), isAligned (resumePc rec reply.resume) .word = true
      ∧ (∀ w ∈ reply.memWrites, isText s.params w.1 = false)
      ∧ t = { s.setRegs reply.regWrites with
          mem := Memory.putEach s.mem reply.memWrites, pc := resumePc rec reply.resume, trap := none, replies := rest })
    ∨ (s.trap = none ∧ s.NoTextWrites 1 ∧ runHart (s.afterOthers 1) = .next t) := by
  cases htrap : s.trap with
  | some rec =>
    left
    rw [step_stopped htrap] at h
    rcases s.resume_cases rec with ⟨-, hr⟩ | ⟨reply, rest, -, ⟨a, hr⟩ | ⟨-, hr⟩ | ⟨ha, ht, hr⟩⟩ <;> rw [hr] at h <;> cases h
    exact ⟨reply, rest, rec, ha, ht, rfl⟩
  | none =>
    right
    rcases s.landForeign_inv with ⟨ht, hl⟩ | ⟨-, a, hl⟩
    · rw [step_running htrap hl] at h
      exact ⟨rfl, ht, h⟩
    · rw [step_refused htrap hl] at h; cases h

end

/-! ## Fetch and decode (R48, R232, R239) -/

/-- Settles O11: the step fetches the word the four bytes make and executes what it decodes to. -/
theorem stepRunsDecodedInstruction : Obligations.StepRunsDecodedInstruction := by
  rintro s s' i ⟨htrap, hland, hpc⟩ hm hd
  refine ⟨?runs, fun hf => ?quiet⟩
  case runs =>
    rw [step_running htrap hland, runHart_allowed ((isAligned_word _).mpr hpc) hm]
    exact runWord_decoded hd
  case quiet =>
    rw [landForeign_quiet hf] at hland
    exact (Except.ok.inj hland).symm

/-- Settles O12: the fetch is denied before anything else happens. -/
theorem stepOnDeniedFetch : Obligations.StepOnDeniedFetch := by
  rintro s s' ⟨htrap, hland, hpc⟩ hm
  rw [step_running htrap hland, runHart_denied ((isAligned_word _).mpr hpc) hm]
  exact takeTrap_traps s' _ _

/-- Settles O13: a word of no row does not decode. -/
theorem stepOnReservedWord : Obligations.StepOnReservedWord := by
  rintro s s' ⟨htrap, hland, hpc⟩ hm hrows
  have hall : opcodeTable.all (fun r => !r.hits s'.wordAtPc) = true :=
    List.all_eq_true.mpr fun r hr => by rw [hrows r hr]; rfl
  rw [step_running htrap hland, runHart_allowed ((isAligned_word _).mpr hpc) hm, runWord_reserved hall]
  exact takeTrap_traps s' _ _

/-- Settles O24: there is no answer to restart with. -/
theorem runEndsAtTrap : Obligations.RunEndsAtTrap := by
  intro s rec htrap hreplies
  rw [step_stopped htrap, State.resume, hreplies]

/-! ## What exceptions an instruction raises, and how -/

section
variable {i : Instr} {s t : State} {rec : TrapRecord}

/-- An instruction of a running hart that ends with a trap record has done nothing but take that trap. -/
theorem exec_trapped (hs : s.trap = none) (h : exec i s = .next t) (ht : t.trap = some rec) :
    t = { s with trap := some rec } ∧ rec.epc = s.pc ∧ recordFits rec ∧ mayRaise i rec.cause = true := by
  have hne : s.trap ≠ some rec := by rw [hs]; exact nofun
  cases exec_effect h with
  | computed | input => rw [State.advance_trap, State.setReg_trap] at ht; exact absurd ht hne
  | moved | advanced | stored | output | fenced => exact absurd ht hne
  | jumped => rw [State.setPc_trap, State.setReg_trap] at ht; exact absurd ht hne
  | splitRead cls a w p rd v hd hp =>
    obtain ⟨-, -, -, htrap, -⟩ := State.readSplit_frame hp
    rw [State.advance_trap, State.setReg_trap, htrap] at ht
    exact absurd ht hne
  | splitWrite cls a w v u hd htext hu =>
    obtain ⟨-, -, -, htrap, -⟩ := State.writeSplit_frame hu
    rw [State.advance_trap, htrap] at ht
    exact absurd ht hne
  | trapped x hr hfits =>
    rw [State.takeTrap_trap] at ht
    cases ht
    exact ⟨rfl, rfl, hfits, hr⟩

end

/-- Settles O17: the trap an instruction ends with is one its inversion lemma lists. -/
theorem onlyListedExceptions : Obligations.OnlyListedExceptions := by
  intro i s t rec hs h ht
  obtain ⟨-, -, -, hmay⟩ := exec_trapped hs h ht
  exact hmay

/-- Settles O15: fetching, decoding and executing each take their traps in the state they found. -/
theorem trapsArePrecise : Obligations.TrapsArePrecise := by
  intro s t rec hs hf h ht
  rw [step_quiet hs hf] at h
  obtain ⟨-, ⟨i, hi⟩ | ⟨x, rfl, hfits⟩⟩ := runHart_next h
  · obtain ⟨heq, hepc, hfits, -⟩ := exec_trapped hs hi ht
    exact ⟨heq, hepc, hfits⟩
  · rw [State.takeTrap_trap] at ht
    cases ht
    exact ⟨rfl, rfl, hfits⟩

/-- Settles O14: with no byte both fetchable and writable no store is refused, and with no other agent no batch is. -/
theorem stepIsTotal : Obligations.StepIsTotal := by
  intro s hinv hs hf htext
  rw [step_quiet hs hf]
  rcases runHart_cases s with ⟨ha, -⟩ | ⟨-, ⟨i, hi⟩ | ⟨x, hx, -⟩⟩
  · rw [(isAligned_word s.pc).mpr hinv.pc_aligned] at ha
    cases ha
  · rw [hi]
    rcases exec_next_or_refused i s with h | ⟨-, hforeign⟩ | ⟨a, w, -, hallowed, hany⟩
    · exact h
    · exact absurd hf hforeign
    · rw [any_isText_eq_false (htext a w hallowed)] at hany
      cases hany
  · exact ⟨_, hx⟩

/-! ## The invariant -/

/-- Memory is in canonical form and each device input has drawn one value: what every access to memory or a device and
every batch of other agents' writes keeps. -/
def LedgerInv (s : State) : Prop := Memory.wf s.mem = true ∧ s.draws = s.events.countP isInput

section
variable {s : State}

theorem afterOthers_ledgerInv (n : Nat) (h : LedgerInv s) : LedgerInv (s.afterOthers n) :=
  ⟨Memory.wf_putEach _ h.1, h.2⟩

theorem readDevice_ledgerInv (a : Word) (w : Width) (h : LedgerInv s) : LedgerInv (s.readDevice a w).2 := by
  refine ⟨h.1, ?_⟩
  rw [State.readDevice_draws, State.readDevice_events, List.countP_append, ← h.2]
  rfl

theorem writeMemory_ledgerInv (a : Word) (w : Width) (v : Word) (h : LedgerInv s) : LedgerInv (s.writeMemory a w v) :=
  ⟨Memory.wf_putAll _ _ h.1, h.2⟩

theorem record_ledgerInv {e : Event} (he : isInput e = false) (h : LedgerInv s) : LedgerInv (s.record e) := by
  refine ⟨h.1, ?_⟩
  rw [State.record_draws, State.record_events, List.countP_append, ← h.2]
  simp [he]

theorem readByte_ledgerInv (cls : RegionClass) (a : Word) (got : List (Nat × Byte)) (k : Nat) (h : LedgerInv s) :
    LedgerInv (State.readByte cls a got s k).2 := by
  cases cls with
  | memory => exact h
  | io => exact readDevice_ledgerInv _ _ h

theorem writeByte_ledgerInv (cls : RegionClass) (a : Word) (w : Width) (v : Word) (u : Unit) (k : Nat)
    (h : LedgerInv s) : LedgerInv (State.writeByte cls a w v u s k).2 := by
  cases cls with
  | memory => exact writeMemory_ledgerInv _ _ _ h
  | io => exact record_ledgerInv rfl h

theorem setReg_advance_ledgerInv (rd : RegIdx) (v : Word) (h : LedgerInv s) : LedgerInv (s.setReg rd v).advance := by
  simpa [LedgerInv] using h

end

section
variable {i : Instr} {s t : State}

theorem effect_ledgerInv (h : Effect i s t) (hs : LedgerInv s) : LedgerInv t := by
  cases h with
  | computed rd v => exact setReg_advance_ledgerInv rd v hs
  | moved | advanced | trapped => exact hs
  | jumped rd target ha => simpa [LedgerInv] using hs
  | input a w rd v => exact setReg_advance_ledgerInv rd v (readDevice_ledgerInv a w hs)
  | stored a w v ht => exact writeMemory_ledgerInv a w v hs
  | output a w v => exact record_ledgerInv rfl hs
  | splitRead cls a w p rd v hd hp =>
    exact setReg_advance_ledgerInv rd v (State.readSplit_keeps (fun got _ k => readByte_ledgerInv cls a got k)
      (fun _ h _ => afterOthers_ledgerInv 1 h) hs hp)
  | splitWrite cls a w v u hd ht hu =>
    have hkeeps : LedgerInv u := State.writeSplit_keeps (fun x _ k => writeByte_ledgerInv cls a w v x k)
      (fun _ h _ => afterOthers_ledgerInv 1 h) hs hu
    exact hkeeps
  | fenced fm pred succ => exact record_ledgerInv rfl hs

/-- An instruction at an aligned pc leaves an aligned pc. -/
theorem effect_pc_aligned (h : Effect i s t) (hs : s.pc.toNat % 4 = 0) : t.pc.toNat % 4 = 0 := by
  have hnext : s.nextPc.toNat % 4 = 0 := aligned_add_four hs
  cases h with
  | computed rd v => rwa [State.advance_pc, State.setReg_nextPc]
  | moved target ha | jumped rd target ha => exact (isAligned_word target).mp ha
  | advanced | stored | output | fenced => exact hnext
  | input a w rd v => rwa [State.advance_pc, State.setReg_nextPc]
  | splitRead cls a w p rd v hd hp =>
    obtain ⟨-, hpc, -⟩ := State.readSplit_frame hp
    rwa [State.advance_pc, State.setReg_nextPc, State.nextPc, hpc]
  | splitWrite cls a w v u hd ht hu =>
    obtain ⟨-, hpc, -⟩ := State.writeSplit_frame hu
    rwa [State.advance_pc, State.nextPc, hpc]
  | trapped x hr hf => exact hs

/-- An instruction of a running hart keeps the invariant. -/
theorem exec_keeps_inv (hs : s.trap = none) (hinv : s.Inv) (h : exec i s = .next t) : t.Inv := by
  have heff := exec_effect h
  obtain ⟨hwf, hdraws⟩ := effect_ledgerInv heff ⟨hinv.mem_wf, hinv.draws_eq⟩
  refine ⟨hwf, effect_pc_aligned heff hinv.pc_aligned, fun rec ht => ?_, hdraws⟩
  obtain ⟨rfl, hepc, hfits, -⟩ := exec_trapped hs h ht
  exact ⟨hepc, hfits⟩

theorem takeTrap_keeps_inv {x : Exn} (hinv : s.Inv) (hfits : recordFits ⟨x.cause, s.pc, x.info⟩) :
    (s.takeTrap x).Inv := by
  refine ⟨hinv.mem_wf, hinv.pc_aligned, fun rec ht => ?_, hinv.draws_eq⟩
  rw [State.takeTrap_trap] at ht
  cases ht
  exact ⟨rfl, hfits⟩

theorem afterOthers_keeps_inv (n : Nat) (hinv : s.Inv) : (s.afterOthers n).Inv :=
  ⟨Memory.wf_putEach _ hinv.mem_wf, hinv.pc_aligned, hinv.trap_fits, hinv.draws_eq⟩

end

/-- Settles O3: a restart, a landing batch, a trap and an instruction each keep the invariant. -/
theorem stepKeepsInvariant : Obligations.StepKeepsInvariant := by
  intro s t hinv h
  rcases step_next h with ⟨reply, rest, rec, ha, -, rfl⟩ | ⟨hs, -, hrun⟩
  · refine ⟨Memory.wf_putEach _ hinv.mem_wf, (isAligned_word _).mp ha, nofun, ?_⟩
    rw [State.setRegs_draws, State.setRegs_events]
    exact hinv.draws_eq
  · have hinv' := afterOthers_keeps_inv 1 hinv
    obtain ⟨-, ⟨i, hi⟩ | ⟨x, rfl, hfits⟩⟩ := runHart_next hrun
    · exact exec_keeps_inv (s := s.afterOthers 1) hs hinv' hi
    · exact takeTrap_keeps_inv hinv' hfits

/-! ## Program text (R61, D15) -/

section
variable {s : State} {a : Word} {w : Width}

theorem lastWritten_of_forall_ne (b : Byte) {ws : List (Word × Byte)} (h : ∀ x ∈ ws, x.1 ≠ a) :
    lastWritten a b ws = b := by
  induction ws generalizing b with
  | nil => rfl
  | cons x rest ih =>
    rw [lastWritten, if_neg (h x List.mem_cons_self)]
    exact ih b fun y hy => h y (List.mem_cons_of_mem _ hy)

/-- Batches that touch no program text leave every byte of it as it was. -/
theorem byteAfter_text {n : Nat} (hn : s.NoTextWrites n) (ha : isText s.params a = true) :
    s.byteAfter n a = s.byteAt a := by
  refine lastWritten_of_forall_ne _ fun x hx e => ?_
  have hfalse := hn x hx
  rw [e, ha] at hfalse
  cases hfalse

/-- Memory after a split load is what the batches among its bytes have made of it, and none touched program text. -/
theorem readSplit_byteAt {cls : RegionClass} {p : Word × State} (h : s.readSplit cls a w = .done p) :
    s.NoTextWrites w.bytes ∧ ∀ b, p.2.byteAt b = s.byteAfter w.bytes b := by
  rcases s.readSplit_cases cls a w with ⟨hn, -⟩ | ⟨-, x, hx⟩
  · refine ⟨hn, fun b => ?_⟩
    cases cls with
    | memory =>
      obtain ⟨v, hv, -⟩ := State.readSplit_memory (a := a) hn
      rw [hv] at h
      cases h
      exact State.afterOthers_byteAt _ _ b
    | io =>
      obtain ⟨v, t, answer, ht, -, -, hmem, -⟩ := State.readSplit_io (a := a) hn
      rw [ht] at h
      cases h
      exact hmem b
  · rw [hx] at h; cases h

/-- Memory outside the bytes of a split store is what the batches among them have made of it, and none touched program
text. -/
theorem writeSplit_byteAt {cls : RegionClass} {v : Word} {t : State} (h : s.writeSplit cls a w v = .done t) :
    s.NoTextWrites w.bytes ∧ ∀ b, b ∉ touched a w → t.byteAt b = s.byteAfter w.bytes b := by
  rcases s.writeSplit_cases cls a w v with ⟨hn, -⟩ | ⟨-, x, hx⟩
  · refine ⟨hn, fun b hb => ?_⟩
    cases cls with
    | memory =>
      obtain ⟨u, hu, -, -, -, hmem⟩ := State.writeSplit_memory (a := a) (v := v) hn
      rw [hu] at h
      cases h
      exact hmem b hb
    | io =>
      obtain ⟨u, hu, hmem, -⟩ := State.writeSplit_io (a := a) (v := v) hn
      rw [hu] at h
      cases h
      exact hmem b
  · rw [hx] at h; cases h

end

/-- The parameters are as they were and every byte that may be fetched reads as it read. -/
def KeepsText (s t : State) : Prop := t.params = s.params ∧ ∀ a, isText s.params a = true → t.byteAt a = s.byteAt a

section
variable {i : Instr} {s t : State}

theorem text_not_mem_touched {a b : Word} {w : Width} (ht : (touched a w).any (isText s.params) = false)
    (hb : isText s.params b = true) : b ∉ touched a w :=
  fun hmem => Bool.false_ne_true (ht.symm.trans (List.any_eq_true.mpr ⟨b, hmem, hb⟩))

theorem effect_keepsText (h : Effect i s t) : KeepsText s t := by
  cases h with
  | computed rd v => exact ⟨State.setReg_params s rd v, fun a _ => State.setReg_byteAt s rd v a⟩
  | jumped rd target ha => exact ⟨State.setReg_params s rd _, fun a _ => State.setReg_byteAt s rd _ a⟩
  | moved | advanced | output | fenced | trapped => exact ⟨rfl, fun _ _ => rfl⟩
  | input a w rd v => exact ⟨State.setReg_params _ rd v, fun b _ => State.setReg_byteAt _ rd v b⟩
  | stored a w v ht =>
    exact ⟨rfl, fun b hb => State.writeMemory_byteAt_outside s v (text_not_mem_touched ht hb)⟩
  | splitRead cls a w p rd v hd hp =>
    obtain ⟨-, -, hparams, -⟩ := State.readSplit_frame hp
    obtain ⟨hn, hmem⟩ := readSplit_byteAt hp
    refine ⟨(State.setReg_params p.2 rd v).trans hparams, fun b hb => ?_⟩
    rw [State.advance_byteAt, State.setReg_byteAt, hmem, byteAfter_text hn hb]
  | splitWrite cls a w v u hd ht hu =>
    obtain ⟨-, -, hparams, -⟩ := State.writeSplit_frame hu
    obtain ⟨hn, hmem⟩ := writeSplit_byteAt hu
    refine ⟨hparams, fun b hb => ?_⟩
    rw [State.advance_byteAt, hmem b (text_not_mem_touched ht hb), byteAfter_text hn hb]

theorem afterOthers_keepsText {n : Nat} (hn : s.NoTextWrites n) : KeepsText s (s.afterOthers n) :=
  ⟨rfl, fun a ha => (State.afterOthers_byteAt s n a).trans (byteAfter_text hn ha)⟩

theorem KeepsText.trans {u : State} (h : KeepsText s t) (h' : KeepsText t u) : KeepsText s u :=
  ⟨h'.1.trans h.1, fun a ha => (h'.2 a (by rwa [h.1])).trans (h.2 a ha)⟩

end

/-- Settles O16: the writes of the environment and of other agents are checked, and those of the hart are. -/
theorem programTextIsFixed : Obligations.ProgramTextIsFixed := by
  intro s t h
  rcases step_next h with ⟨reply, rest, rec, -, htext, rfl⟩ | ⟨-, hn, hrun⟩
  · refine ⟨State.setRegs_params s _, fun a ha => ?_⟩
    unfold State.byteAt
    rw [Memory.byte?_putEach_outside]
    intro x hx e
    have hfalse := htext x hx
    rw [e, ha] at hfalse
    cases hfalse
  · refine (afterOthers_keepsText hn).trans ?_
    obtain ⟨-, ⟨i, hi⟩ | ⟨x, rfl, -⟩⟩ := runHart_next hrun
    · exact effect_keepsText (exec_effect hi)
    · exact ⟨rfl, fun _ _ => rfl⟩

end Sys2Proof.Step
end

section
/-! PROOFS. What an instruction reads, writes and does to pc (10_state.md, 41_control_transfer.md section 1): every
instruction has one of seven forms, each a shared end of `Machine/Ops.lean` with its registers named, and each statement
about all instructions is proved once for each form. -/

namespace Sys2Proof.Forms

open Sys2Proof Sys2Proof.Machine Sys2Proof.IntegerComputational Sys2Proof.ControlTransfer Sys2Proof.LoadStore
  Sys2Proof.Step

/-! ## The seven forms -/

/-- The value does not depend on the register. -/
def Ignores {α : Type} (q : RegIdx) (f : State → α) : Prop := ∀ s v, f (s.setReg q v) = f s

/-- The value depends on no register but the instruction's sources. -/
def ReadsSources {α : Type} (i : Instr) (f : State → α) : Prop := ∀ q, q ∉ sources i → Ignores q f

/-- The shared end an instruction is, its destination, and that it reads no register but its sources. -/
inductive Form (i : Instr) : Prop where
  | compute (rd : RegIdx) (value : State → Word) (hexec : ∀ s, exec i s = s.compute rd (value s))
      (hreads : ReadsSources i value) (hrd : destination i = some rd) (hdata : dataAccess i = none)
      (hcontrol : isControl i = false)
  | jump (rd : RegIdx) (target : State → Word) (hexec : ∀ s, exec i s = s.jump rd (target s))
      (hreads : ReadsSources i target) (hrd : destination i = some rd) (hdata : dataAccess i = none)
      (hcontrol : isControl i = true) (htransfer : ∀ s, transfersTo i s = some (target s))
  | branch (taken : State → Bool) (off : BitVec 13) (hexec : ∀ s, exec i s = s.branch (taken s) off)
      (hreads : ReadsSources i taken) (hrd : destination i = none) (hdata : dataAccess i = none)
      (hcontrol : isControl i = true)
      (htransfer : ∀ s, transfersTo i s = if taken s then some (s.branchTarget off) else none)
  | load (w : Width) (extend : Word → Word) (rd rs1 : RegIdx) (imm : BitVec 12)
      (hexec : ∀ s, exec i s = s.load w extend rd rs1 imm) (hsource : rs1 ∈ sources i) (hrd : destination i = some rd)
      (hdata : dataAccess i = some (.read, w)) (hcontrol : isControl i = false)
  | store (w : Width) (rs2 rs1 : RegIdx) (imm : BitVec 12) (hexec : ∀ s, exec i s = s.store w rs2 rs1 imm)
      (hbase : rs1 ∈ sources i) (hvalue : rs2 ∈ sources i) (hrd : destination i = none)
      (hdata : dataAccess i = some (.write, w)) (hcontrol : isControl i = false)
  | fence (fm : BitVec 4) (pred succ : AccessSet) (hexec : ∀ s, exec i s = s.fenceEvent fm pred succ)
      (hrd : destination i = none) (hdata : dataAccess i = none) (hcontrol : isControl i = false)
  | trap (x : Exn) (hexec : ∀ s, exec i s = .next (s.takeTrap x)) (hrd : destination i = none)
      (hdata : dataAccess i = none) (hcontrol : isControl i = false)

theorem reg_ignores {q r : RegIdx} (h : q ≠ r) : Ignores q (fun s => s.reg r) :=
  fun s v => State.reg_setReg_ne s v h.symm

section
variable {α : Type} {i : Instr}

theorem readsSources_const (c : State → α) (hc : ∀ s q v, c (s.setReg q v) = c s) : ReadsSources i c :=
  fun q _ s v => hc s q v

theorem readsSources_one {rs1 : RegIdx} (hs : sources i = [rs1]) (f : Word → α) :
    ReadsSources i (fun s => f (s.reg rs1)) := by
  intro q hq s v
  rw [hs, List.mem_singleton] at hq
  exact congrArg f (reg_ignores hq s v)

theorem readsSources_two {rs1 rs2 : RegIdx} (hs : sources i = [rs1, rs2]) (f : Word → Word → α) :
    ReadsSources i (fun s => f (s.reg rs1) (s.reg rs2)) := by
  intro q hq s v
  simp only [hs, List.mem_cons, List.not_mem_nil, or_false, not_or] at hq
  obtain ⟨h1, h2⟩ := hq
  exact congrArg₂ f (reg_ignores h1 s v) (reg_ignores h2 s v)

theorem form_compute_one {rd rs1 : RegIdx} (f : Word → Word) (hexec : ∀ s, exec i s = s.compute rd (f (s.reg rs1)))
    (hs : sources i = [rs1]) (hrd : destination i = some rd) (hdata : dataAccess i = none)
    (hcontrol : isControl i = false) : Form i :=
  .compute rd (fun s => f (s.reg rs1)) hexec (readsSources_one hs f) hrd hdata hcontrol

theorem form_compute_two {rd rs1 rs2 : RegIdx} (f : Word → Word → Word)
    (hexec : ∀ s, exec i s = s.compute rd (f (s.reg rs1) (s.reg rs2))) (hs : sources i = [rs1, rs2])
    (hrd : destination i = some rd) (hdata : dataAccess i = none) (hcontrol : isControl i = false) : Form i :=
  .compute rd (fun s => f (s.reg rs1) (s.reg rs2)) hexec (readsSources_two hs f) hrd hdata hcontrol

/-- A branch whose flag decides the condition it transfers control under. -/
theorem form_branch {rs1 rs2 : RegIdx} {off : BitVec 13} (f : Word → Word → Bool) (c : Word → Word → Prop)
    [∀ a b, Decidable (c a b)] (hf : ∀ a b, f a b = true ↔ c a b)
    (hexec : ∀ s, exec i s = s.branch (f (s.reg rs1) (s.reg rs2)) off) (hs : sources i = [rs1, rs2])
    (hrd : destination i = none) (hdata : dataAccess i = none) (hcontrol : isControl i = true)
    (htransfer : ∀ s, transfersTo i s
      = if c (s.reg rs1) (s.reg rs2) then some (BitVec.ofInt 32 (s.pc.toNat + off.toInt)) else none) : Form i := by
  refine .branch (fun s => f (s.reg rs1) (s.reg rs2)) off hexec (readsSources_two hs f) hrd hdata hcontrol fun s => ?_
  simp only [htransfer, branchTarget_eq, hf]

end

/-- Every instruction has one of the seven forms. -/
theorem exec_form (i : Instr) : Form i := by
  cases i with
  | addi rd rs1 imm => exact form_compute_one (fun a => a + imm12 imm) (fun _ => rfl) rfl rfl rfl rfl
  | slti rd rs1 imm => exact form_compute_one (fun a => boolWord (lessSigned a (imm12 imm))) (fun _ => rfl) rfl rfl rfl rfl
  | sltiu rd rs1 imm =>
    exact form_compute_one (fun a => boolWord (lessUnsigned a (imm12 imm))) (fun _ => rfl) rfl rfl rfl rfl
  | andi rd rs1 imm => exact form_compute_one (fun a => a &&& imm12 imm) (fun _ => rfl) rfl rfl rfl rfl
  | ori rd rs1 imm => exact form_compute_one (fun a => a ||| imm12 imm) (fun _ => rfl) rfl rfl rfl rfl
  | xori rd rs1 imm => exact form_compute_one (fun a => a ^^^ imm12 imm) (fun _ => rfl) rfl rfl rfl rfl
  | slli rd rs1 shamt => exact form_compute_one (fun a => a <<< shamt.toNat) (fun _ => rfl) rfl rfl rfl rfl
  | srli rd rs1 shamt => exact form_compute_one (fun a => a >>> shamt.toNat) (fun _ => rfl) rfl rfl rfl rfl
  | srai rd rs1 shamt => exact form_compute_one (fun a => a.sshiftRight shamt.toNat) (fun _ => rfl) rfl rfl rfl rfl
  | lui rd imm20 =>
    exact .compute rd (fun _ => immU imm20) (fun _ => rfl) (readsSources_const _ fun _ _ _ => rfl) rfl rfl rfl
  | auipc rd imm20 =>
    exact .compute rd (fun s => s.pc + immU imm20) (fun _ => rfl)
      (readsSources_const _ fun s q v => by rw [State.setReg_pc]) rfl rfl rfl
  | add rd rs1 rs2 => exact form_compute_two (fun a b => a + b) (fun _ => rfl) rfl rfl rfl rfl
  | sub rd rs1 rs2 => exact form_compute_two (fun a b => a - b) (fun _ => rfl) rfl rfl rfl rfl
  | slt rd rs1 rs2 => exact form_compute_two (fun a b => boolWord (lessSigned a b)) (fun _ => rfl) rfl rfl rfl rfl
  | sltu rd rs1 rs2 => exact form_compute_two (fun a b => boolWord (lessUnsigned a b)) (fun _ => rfl) rfl rfl rfl rfl
  | and rd rs1 rs2 => exact form_compute_two (fun a b => a &&& b) (fun _ => rfl) rfl rfl rfl rfl
  | or rd rs1 rs2 => exact form_compute_two (fun a b => a ||| b) (fun _ => rfl) rfl rfl rfl rfl
  | xor rd rs1 rs2 => exact form_compute_two (fun a b => a ^^^ b) (fun _ => rfl) rfl rfl rfl rfl
  | sll rd rs1 rs2 => exact form_compute_two (fun a b => a <<< shiftAmount b) (fun _ => rfl) rfl rfl rfl rfl
  | srl rd rs1 rs2 => exact form_compute_two (fun a b => a >>> shiftAmount b) (fun _ => rfl) rfl rfl rfl rfl
  | sra rd rs1 rs2 => exact form_compute_two (fun a b => a.sshiftRight (shiftAmount b)) (fun _ => rfl) rfl rfl rfl rfl
  | jal rd off =>
    exact .jump rd (fun s => s.jalTarget off) (fun _ => rfl)
      (readsSources_const _ fun s q v => by simp only [State.jalTarget, State.setReg_pc]) rfl rfl rfl
      fun s => congrArg some (jalTarget_eq s off).symm
  | jalr rd rs1 imm =>
    exact .jump rd (fun s => s.jalrTarget rs1 imm) (fun _ => rfl)
      (readsSources_one rfl fun a => (a + imm12 imm) &&& 0xFFFFFFFE#32) rfl rfl rfl
      fun s => congrArg some (jalrTarget_eq s rs1 imm).symm
  | beq rs1 rs2 off =>
    exact form_branch (fun a b => a == b) (fun a b => a = b) (fun _ _ => beq_iff_eq) (fun _ => rfl) rfl rfl rfl rfl fun _ => rfl
  | bne rs1 rs2 off =>
    exact form_branch (fun a b => a != b) (fun a b => a ≠ b) (fun _ _ => bne_iff_ne) (fun _ => rfl) rfl rfl rfl rfl fun _ => rfl
  | blt rs1 rs2 off =>
    exact form_branch lessSigned (fun a b => a.toInt < b.toInt) lessSigned_iff (fun _ => rfl) rfl rfl rfl rfl fun _ => rfl
  | bge rs1 rs2 off =>
    exact form_branch (fun a b => !lessSigned a b) (fun a b => a.toInt ≥ b.toInt) not_lessSigned_iff (fun _ => rfl) rfl
      rfl rfl rfl fun _ => rfl
  | bltu rs1 rs2 off =>
    exact form_branch lessUnsigned (fun a b => a.toNat < b.toNat) lessUnsigned_iff (fun _ => rfl) rfl rfl rfl rfl
      fun _ => rfl
  | bgeu rs1 rs2 off =>
    exact form_branch (fun a b => !lessUnsigned a b) (fun a b => a.toNat ≥ b.toNat) not_lessUnsigned_iff (fun _ => rfl)
      rfl rfl rfl rfl fun _ => rfl
  | lw rd rs1 imm | lh rd rs1 imm | lhu rd rs1 imm | lb rd rs1 imm | lbu rd rs1 imm =>
    exact .load _ _ rd rs1 imm (fun _ => rfl) List.mem_cons_self rfl rfl rfl
  | sw rs2 rs1 imm | sh rs2 rs1 imm | sb rs2 rs1 imm =>
    exact .store _ rs2 rs1 imm (fun _ => rfl) List.mem_cons_self (List.mem_cons_of_mem _ List.mem_cons_self) rfl rfl rfl
  | fence fm pred succ rs1 rd => exact .fence fm pred succ (fun _ => rfl) rfl rfl rfl
  | fenceTso | pause => exact .fence _ _ _ (fun _ => rfl) rfl rfl rfl
  | ecall | ebreak => exact .trap _ (fun _ => rfl) rfl rfl rfl

/-! ## What the ends answer -/

section
variable {s t : State}

/-- All that a jump can answer. -/
theorem jump_next {rd : RegIdx} {target : Word} (h : s.jump rd target = .next t) :
    (isAligned target .word = true ∧ t = (s.setReg rd s.nextPc).setPc target)
    ∨ (isAligned target .word = false ∧ t = s.takeTrap ⟨.instructionAddressMisaligned, some target⟩) := by
  cases ha : isAligned target .word with
  | true => rw [State.jump_aligned ha] at h; cases h; exact .inl ⟨rfl, rfl⟩
  | false => rw [State.jump_misaligned ha] at h; cases h; exact .inr ⟨rfl, rfl⟩

/-- All that a branch can answer. -/
theorem branch_next {taken : Bool} {off : BitVec 13} (h : s.branch taken off = .next t) :
    (taken = false ∧ t = s.advance)
    ∨ (taken = true ∧ isAligned (s.branchTarget off) .word = true ∧ t = s.setPc (s.branchTarget off))
    ∨ (taken = true ∧ isAligned (s.branchTarget off) .word = false
        ∧ t = s.takeTrap ⟨.instructionAddressMisaligned, some (s.branchTarget off)⟩) := by
  cases taken with
  | false => cases h; exact .inl ⟨rfl, rfl⟩
  | true =>
    cases ha : isAligned (s.branchTarget off) .word with
    | true => rw [State.branch_taken ha] at h; cases h; exact .inr (.inl ⟨rfl, rfl, rfl⟩)
    | false => rw [State.branch_misaligned ha] at h; cases h; exact .inr (.inr ⟨rfl, rfl, rfl⟩)

/-- All that a store that answers a next state has done. -/
theorem store_next_inv {w : Width} {rs2 rs1 : RegIdx} {imm : BitVec 12} (h : s.store w rs2 rs1 imm = .next t) :
    (∃ u, s.memWrite (s.effectiveAddress rs1 imm) w (s.reg rs2) = .done u ∧ t = u.advance)
    ∨ ∃ x, s.memWrite (s.effectiveAddress rs1 imm) w (s.reg rs2) = .raised x ∧ t = s.takeTrap x := by
  cases hr : s.memWrite (s.effectiveAddress rs1 imm) w (s.reg rs2) with
  | done u => rw [State.store_done hr] at h; cases h; exact .inl ⟨u, rfl, rfl⟩
  | raised x => rw [State.store_raised hr] at h; cases h; exact .inr ⟨x, rfl, rfl⟩
  | refused r => rw [State.store_refused hr] at h; cases h

end

/-! ## What the accesses keep -/

/-- What an access to memory or a device leaves as it is: all but memory, the trace and the batches used up. -/
def AccessFrame (s t : State) : Prop :=
  t.regs = s.regs ∧ t.pc = s.pc ∧ t.params = s.params ∧ t.trap = s.trap ∧ t.replies = s.replies

section
variable {s t : State} {a v : Word} {w : Width}

theorem memRead_frame {p : Word × State} (h : s.memRead a w = .done p) :
    AccessFrame s p.2 ∧ ∃ n, p.2.foreign = s.foreign.drop n ∧ ∀ b, p.2.byteAt b = s.byteAfter n b := by
  have hquiet (b : Word) : s.byteAt b = s.byteAfter 0 b := rfl
  rcases State.memRead_cases s a w with ⟨cls, hr, -⟩ | hr | ⟨hr, -⟩
  · rw [hr] at h
    cases ha : isAligned a w with
    | false =>
      rw [State.performRead_split ha] at h
      obtain ⟨h1, h2, h3, h4, h5, hf, -⟩ := State.readSplit_frame h
      exact ⟨⟨h1, h2, h3, h4, h5⟩, w.bytes, hf, (readSplit_byteAt h).2⟩
    | true =>
      cases cls with
      | memory =>
        rw [State.performRead_memory ha] at h
        cases h
        exact ⟨⟨rfl, rfl, rfl, rfl, rfl⟩, 0, rfl, hquiet⟩
      | io =>
        rw [State.performRead_io ha] at h
        cases h
        exact ⟨⟨rfl, rfl, rfl, rfl, rfl⟩, 0, rfl, hquiet⟩
  · rw [hr] at h; cases h
  · rw [hr] at h; cases h

theorem memWrite_frame (h : s.memWrite a w v = .done t) : AccessFrame s t := by
  rcases State.memWrite_cases s a w v with ⟨cls, hr, -⟩ | hr | ⟨hr, -⟩ | ⟨hr, -⟩
  · rw [hr] at h
    cases ha : isAligned a w with
    | false =>
      rw [State.performWrite_split ha] at h
      obtain ⟨h1, h2, h3, h4, h5, -⟩ := State.writeSplit_frame h
      exact ⟨h1, h2, h3, h4, h5⟩
    | true =>
      cases cls with
      | memory => rw [State.performWrite_memory ha] at h; cases h; exact ⟨rfl, rfl, rfl, rfl, rfl⟩
      | io => rw [State.performWrite_io ha] at h; cases h; exact ⟨rfl, rfl, rfl, rfl, rfl⟩
  · rw [hr] at h; cases h
  · rw [hr] at h; cases h
  · rw [hr] at h; cases h

end

/-! ## Registers written, pc, and accesses -/

/-- Settles O19: each form writes its rd at most. -/
theorem writesOnlyItsDestination : Obligations.WritesOnlyItsDestination := by
  intro i s t r h hr
  have hne {rd : RegIdx} (hrd : destination i = some rd) : r ≠ rd := fun e => hr (e ▸ hrd)
  cases exec_form i with
  | compute rd value hexec _ hrd =>
    rw [hexec] at h; cases h
    exact State.reg_setReg_ne s _ (hne hrd)
  | jump rd target hexec _ hrd =>
    rw [hexec] at h
    obtain ⟨-, rfl⟩ | ⟨-, rfl⟩ := jump_next h
    · exact State.reg_setReg_ne s _ (hne hrd)
    · rfl
  | branch taken off hexec =>
    rw [hexec] at h
    obtain ⟨-, rfl⟩ | ⟨-, -, rfl⟩ | ⟨-, -, rfl⟩ := branch_next h <;> rfl
  | load w extend rd rs1 imm hexec _ hrd =>
    rw [hexec] at h
    obtain ⟨p, hp, rfl⟩ | ⟨x, -, rfl⟩ := load_next_inv h
    · rw [State.advance_reg, State.reg_setReg_ne _ _ (hne hrd), State.reg_congr (memRead_regs hp)]
    · rfl
  | store w rs2 rs1 imm hexec =>
    rw [hexec] at h
    obtain ⟨u, hu, rfl⟩ | ⟨x, -, rfl⟩ := store_next_inv h
    · obtain ⟨hregs, -⟩ := memWrite_frame hu
      exact State.reg_congr hregs r
    · rfl
  | fence fm pred succ hexec => rw [hexec] at h; cases h; rfl
  | trap x hexec => rw [hexec] at h; cases h; rfl

/-- Settles O21: the forms that are no jump or branch end in the advance or in a trap. -/
theorem defaultAdvance : Obligations.DefaultAdvance := by
  intro i s t hcontrol hs h ht
  cases exec_form i with
  | compute rd value hexec =>
    rw [hexec] at h; cases h
    exact State.setReg_nextPc s rd _
  | jump _ _ _ _ _ _ hc | branch _ _ _ _ _ _ hc => rw [hcontrol] at hc; cases hc
  | load w extend rd rs1 imm hexec =>
    rw [hexec] at h
    obtain ⟨p, hp, rfl⟩ | ⟨x, -, rfl⟩ := load_next_inv h
    · obtain ⟨⟨-, hpc, -⟩, -⟩ := memRead_frame hp
      rw [State.advance_pc, State.setReg_nextPc, State.nextPc, hpc]
    · cases ht
  | store w rs2 rs1 imm hexec =>
    rw [hexec] at h
    obtain ⟨u, hu, rfl⟩ | ⟨x, -, rfl⟩ := store_next_inv h
    · obtain ⟨-, hpc, -⟩ := memWrite_frame hu
      rw [State.advance_pc, State.nextPc, hpc]
    · cases ht
  | fence fm pred succ hexec => rw [hexec] at h; cases h; rfl
  | trap x hexec => rw [hexec] at h; cases h; cases ht

/-- What an instruction that is neither a load nor a store leaves alone. -/
def NoAccess (s t : State) : Prop :=
  SameMemory s t ∧ t.foreign = s.foreign ∧ t.draws = s.draws ∧ t.splits = s.splits
    ∧ (t.events = s.events ∨ ∃ fm pred succ, t.events = s.events ++ [.fence fm pred succ])

theorem exec_noAccess {i : Instr} {s t : State} (hi : dataAccess i = none) (h : exec i s = .next t) : NoAccess s t := by
  cases exec_form i with
  | compute rd value hexec =>
    rw [hexec] at h; cases h
    simp [NoAccess, SameMemory]
  | jump rd target hexec =>
    rw [hexec] at h
    obtain ⟨-, rfl⟩ | ⟨-, rfl⟩ := jump_next h <;> simp [NoAccess, SameMemory]
  | branch taken off hexec =>
    rw [hexec] at h
    obtain ⟨-, rfl⟩ | ⟨-, -, rfl⟩ | ⟨-, -, rfl⟩ := branch_next h <;> simp [NoAccess, SameMemory]
  | load _ _ _ _ _ _ _ _ hdata | store _ _ _ _ _ _ _ _ hdata => rw [hi] at hdata; cases hdata
  | fence fm pred succ hexec =>
    rw [hexec] at h; cases h
    exact ⟨fun _ => rfl, rfl, rfl, rfl, .inr ⟨fm, pred, succ, rfl⟩⟩
  | trap x hexec => rw [hexec] at h; cases h; exact ⟨fun _ => rfl, rfl, rfl, rfl, .inl rfl⟩

/-- Settles O20: a load lets the batches land that fall among its bytes, and the other forms make no access. -/
theorem onlyLoadsAndStoresAccess : Obligations.OnlyLoadsAndStoresAccess := by
  intro i s t h
  refine ⟨fun hstore => ?_, fun hi => exec_noAccess hi h⟩
  cases hi : dataAccess i with
  | none =>
    obtain ⟨hmem, hforeign, -⟩ := exec_noAccess hi h
    exact ⟨0, hforeign, hmem⟩
  | some access =>
    cases exec_form i with
    | load w extend rd rs1 imm hexec =>
      rw [hexec] at h
      obtain ⟨p, hp, rfl⟩ | ⟨x, -, rfl⟩ := load_next_inv h
      · obtain ⟨-, n, hforeign, hmem⟩ := memRead_frame hp
        refine ⟨n, (State.setReg_foreign ..).trans hforeign, fun b => ?_⟩
        rw [State.advance_byteAt, State.setReg_byteAt, hmem]
      · exact ⟨0, rfl, fun _ => rfl⟩
    | store w _ _ _ _ _ _ _ hdata => exact absurd hdata (hstore w)
    | compute _ _ _ _ _ hdata | jump _ _ _ _ _ hdata | branch _ _ _ _ _ hdata | fence _ _ _ _ _ hdata
    | trap _ _ _ hdata => rw [hi] at hdata; cases hdata

/-! ## Control transfer: targets (R63, R154, R153) -/

theorem transfersTo_eq_none {i : Instr} (h : isControl i = false) (s : State) : transfersTo i s = none := by
  cases i with
  | jal | jalr | beq | bne | blt | bge | bltu | bgeu => cases h
  | _ => rfl

/-- The next step at an aligned pc that cannot be fetched raises there. -/
theorem step_denied_traps {t : State} (ht : t.trap = none) (hf : t.foreign = []) (hpc : t.pc.toNat % 4 = 0)
    (hm : memmapAnswer t.params .fetch t.pc .word = none) :
    Traps (step t) t .instructionAccessFault (some t.pc) := by
  rw [step_quiet ht hf, runHart_denied ((isAligned_word _).mpr hpc) hm]
  exact takeTrap_traps t _ _

/-- Settles O22: a jump or taken branch to an aligned target completes without asking the map. -/
theorem faultBelongsToTarget : Obligations.FaultBelongsToTarget := by
  intro i s target htarget hs hf haligned hm
  have ha := (isAligned_word target).mpr haligned
  cases exec_form i with
  | jump rd dest hexec _ hrd _ _ htransfer =>
    rw [htransfer, Option.some.injEq] at htarget
    subst htarget
    rw [hexec, State.jump_aligned ha]
    have htrap : ((s.setReg rd s.nextPc).setPc (dest s)).trap = none := by simpa using hs
    refine ⟨_, rfl, rfl, htrap, ?_, step_denied_traps htrap (by simpa using hf) haligned (by simpa using hm)⟩
    rintro q hq hq0
    rw [hrd, Option.some.injEq] at hq
    subst hq
    rw [State.setPc_reg, State.reg_setReg_same, if_neg hq0, State.nextPc]
  | branch taken off hexec _ hrd _ _ htransfer =>
    rw [htransfer] at htarget
    split at htarget
    · rename_i htaken
      cases htarget
      rw [hexec, htaken, State.branch_taken ha]
      refine ⟨_, rfl, rfl, hs, ?_, step_denied_traps hs hf haligned hm⟩
      rw [hrd]
      exact nofun
    · cases htarget
  | compute _ _ _ _ _ _ hc | load _ _ _ _ _ _ _ _ _ hc | store _ _ _ _ _ _ _ _ _ hc | fence _ _ _ _ _ _ hc
  | trap _ _ _ _ hc => rw [transfersTo_eq_none hc] at htarget; cases htarget

end Sys2Proof.Forms
end

section
/-! PROOFS. When a jump or branch raises (41_control_transfer.md section 1), and that a register which is no source of an
instruction is carried along unread (10_state.md section 2): each operation commutes with writing such a register. -/

namespace Sys2Proof.Forms

open Sys2Proof Sys2Proof.Machine Sys2Proof.IntegerComputational Sys2Proof.ControlTransfer Sys2Proof.LoadStore
  Sys2Proof.Step

/-! ## Misaligned targets (R153) -/

section
variable {s t : State}

theorem jump_trap_iff {rd : RegIdx} {target : Word} (hs : s.trap = none) (h : s.jump rd target = .next t) :
    t.trap ≠ none ↔ target.toNat % 4 ≠ 0 := by
  rcases jump_next h with ⟨ha, rfl⟩ | ⟨ha, rfl⟩
  · simp [hs, (isAligned_word target).mp ha]
  · simp [isAligned_word_eq_false.mp ha]

theorem branch_trap_iff {taken : Bool} {c : Prop} {off : BitVec 13} (hs : s.trap = none) (hc : taken = true ↔ c)
    (h : s.branch taken off = .next t) : t.trap ≠ none ↔ c ∧ (s.branchTarget off).toNat % 4 ≠ 0 := by
  rw [← hc]
  rcases branch_next h with ⟨rfl, rfl⟩ | ⟨rfl, ha, rfl⟩ | ⟨rfl, ha, rfl⟩
  · simp [hs]
  · simp [hs, (isAligned_word _).mp ha]
  · simp [isAligned_word_eq_false.mp ha]

end

/-- Of a value whose bit 0 is 0, bit 1 says whether it is a multiple of 4. -/
theorem mod_four_ne_zero_iff {n : Nat} {x : BitVec n} (h : x.getLsbD 0 = false) :
    x.toNat % 4 ≠ 0 ↔ x.getLsbD 1 = true := by
  simp only [BitVec.getLsbD, Nat.testBit_eq_decide_div_mod_eq, decide_eq_false_iff_not, decide_eq_true_eq] at h ⊢
  omega

/-- An offset of at least two bits says what a pc-relative target is modulo 4, the pc being a multiple of 4. -/
theorem add_signExtend_mod_four {n : Nat} (hn : 2 ≤ n) (hn32 : n ≤ 32) {pc : Word} (hpc : pc.toNat % 4 = 0)
    (off : BitVec n) : (pc + off.signExtend 32).toNat % 4 = off.toNat % 4 := by
  obtain ⟨k, rfl⟩ := Nat.exists_eq_add_of_le hn
  have hle : 2 ^ (2 + k) ≤ 2 ^ 32 := Nat.pow_le_pow_right (by decide) hn32
  have hpow : 2 ^ (2 + k) = 4 * 2 ^ k := by rw [Nat.pow_add]
  have hlt := off.isLt
  rw [BitVec.toNat_add, BitVec.toNat_signExtend, BitVec.toNat_setWidth, Nat.mod_eq_of_lt (hlt.trans_le hle)]
  split <;> omega

/-- Settles O42: modulo 4 a target is its offset, or for JALR the sum without its bit 0. -/
theorem misalignedByBitOne : Obligations.MisalignedByBitOne := by
  intro s t rd rs1 rs2 hs hpc
  refine ⟨fun off hoff h => ?jal, fun off hoff => ?branches, fun imm h => ?jalr⟩
  case jal =>
    have heven : off.getLsbD 0 = false := by simpa [jumpOffsetOk] using hoff
    rw [jump_trap_iff hs h, ← mod_four_ne_zero_iff heven, State.jalTarget, immJ,
      add_signExtend_mod_four (by decide) (by decide) hpc]
  case branches =>
    have heven : off.getLsbD 0 = false := by simpa [branchOffsetOk] using hoff
    have hbit : (s.branchTarget off).toNat % 4 ≠ 0 ↔ off.getLsbD 1 = true := by
      rw [← mod_four_ne_zero_iff heven, State.branchTarget, immB, add_signExtend_mod_four (by decide) (by decide) hpc]
    simp only [← hbit]
    exact ⟨branch_trap_iff hs beq_iff_eq, branch_trap_iff hs bne_iff_ne, branch_trap_iff hs (lessSigned_iff _ _),
      branch_trap_iff hs (not_lessSigned_iff _ _), branch_trap_iff hs (lessUnsigned_iff _ _),
      branch_trap_iff hs (not_lessUnsigned_iff _ _)⟩
  case jalr =>
    have heven : (s.jalrTarget rs1 imm).getLsbD 0 = false := by simp [State.jalrTarget]
    have hbit : (s.jalrTarget rs1 imm).getLsbD 1 = (s.reg rs1 + imm.signExtend 32).getLsbD 1 := by
      rw [State.jalrTarget, BitVec.getLsbD_and, imm12]
      simp
    rw [jump_trap_iff hs h, mod_four_ne_zero_iff heven, hbit]

/-! ## Writing a register commutes with what does not name it -/

section
variable (s : State) (q : RegIdx) (v : Word)

theorem setReg_advance : (s.setReg q v).advance = s.advance.setReg q v := by
  unfold State.setReg; split <;> rfl

theorem setReg_setPc (pc : Word) : (s.setReg q v).setPc pc = (s.setPc pc).setReg q v := by
  unfold State.setReg; split <;> rfl

theorem setReg_takeTrap (x : Exn) : (s.setReg q v).takeTrap x = (s.takeTrap x).setReg q v := by
  unfold State.setReg; split <;> rfl

theorem setReg_record (e : Event) : (s.setReg q v).record e = (s.record e).setReg q v := by
  unfold State.setReg; split <;> rfl

theorem setReg_afterOthers (n : Nat) : (s.setReg q v).afterOthers n = (s.afterOthers n).setReg q v := by
  unfold State.setReg; split <;> rfl

theorem setReg_beginSplit : (s.setReg q v).beginSplit = s.beginSplit.setReg q v := by
  unfold State.setReg; split <;> rfl

theorem setReg_writeMemory (a : Word) (w : Width) (x : Word) :
    (s.setReg q v).writeMemory a w x = (s.writeMemory a w x).setReg q v := by
  unfold State.setReg; split <;> rfl

theorem setReg_readDevice (a : Word) (w : Width) :
    (s.setReg q v).readDevice a w = ((s.readDevice a w).1, (s.readDevice a w).2.setReg q v) := by
  unfold State.setReg; split <;> rfl

theorem setReg_readMemory (a : Word) (w : Width) : (s.setReg q v).readMemory a w = s.readMemory a w := by
  unfold State.setReg; split <;> rfl

theorem setReg_readByte (cls : RegionClass) (a : Word) (got : List (Nat × Byte)) (k : Nat) :
    State.readByte cls a got (s.setReg q v) k
      = ((State.readByte cls a got s k).1, (State.readByte cls a got s k).2.setReg q v) := by
  cases cls with
  | memory => simp only [State.readByte, State.setReg_byteAt]
  | io => simp only [State.readByte, setReg_readDevice]

theorem setReg_writeByte (cls : RegionClass) (a : Word) (w : Width) (x : Word) (u : Unit) (k : Nat) :
    State.writeByte cls a w x u (s.setReg q v) k
      = ((State.writeByte cls a w x u s k).1, (State.writeByte cls a w x u s k).2.setReg q v) := by
  cases cls with
  | memory => simp only [State.writeByte, State.setReg_params, setReg_writeMemory]
  | io => simp only [State.writeByte, State.setReg_params, State.writeDevice, setReg_record]

theorem setReg_noTextWrites (n : Nat) : (s.setReg q v).NoTextWrites n ↔ s.NoTextWrites n := by
  simp only [State.NoTextWrites, State.setReg_foreign, State.setReg_params]

end

section
variable {s t : State} {q : RegIdx} {a : Word} {w : Width} (v : Word)

theorem setReg_interleave {α : Type} {act : α → State → Nat → α × State}
    (hact : ∀ acc s k, act acc (s.setReg q v) k = ((act acc s k).1, (act acc s k).2.setReg q v)) {acc : α}
    {order : List Nat} {p : α × State} (h : interleave act acc s order = .ok p) :
    interleave act acc (s.setReg q v) order = .ok (p.1, p.2.setReg q v) := by
  induction order generalizing acc s with
  | nil => cases h; rfl
  | cons k rest ih =>
    rcases s.landForeign_inv with ⟨hn, -⟩ | ⟨-, x, hx⟩
    · rw [interleave_cons hn] at h
      rw [interleave_cons ((setReg_noTextWrites s q v 1).mpr hn), setReg_afterOthers, hact]
      exact ih h
    · rw [interleave, hx] at h; cases h

theorem setReg_readSplit {cls : RegionClass} {p : Word × State} (h : s.readSplit cls a w = .done p) :
    (s.setReg q v).readSplit cls a w = .done (p.1, p.2.setReg q v) := by
  unfold State.readSplit at h ⊢
  split at h
  · rename_i r hr
    cases h
    rw [State.setReg_splits, setReg_beginSplit,
      setReg_interleave v (fun got s k => setReg_readByte s q v cls a got k) hr, State.setReg_params]
  · cases h

theorem setReg_writeSplit {cls : RegionClass} {x : Word} (h : s.writeSplit cls a w x = .done t) :
    (s.setReg q v).writeSplit cls a w x = .done (t.setReg q v) := by
  unfold State.writeSplit at h ⊢
  split at h
  · rename_i r hr
    cases h
    rw [State.setReg_splits, setReg_beginSplit,
      setReg_interleave v (fun u s k => setReg_writeByte s q v cls a w x u k) hr]
  · cases h

theorem setReg_performRead {cls : RegionClass} {p : Word × State} (h : s.performRead cls a w = .done p) :
    (s.setReg q v).performRead cls a w = .done (p.1, p.2.setReg q v) := by
  cases ha : isAligned a w with
  | false =>
    rw [State.performRead_split ha] at h ⊢
    exact setReg_readSplit v h
  | true =>
    cases cls with
    | memory =>
      rw [State.performRead_memory ha] at h ⊢
      cases h
      rw [setReg_readMemory]
    | io =>
      rw [State.performRead_io ha] at h ⊢
      cases h
      rw [setReg_readDevice]

theorem setReg_performWrite {cls : RegionClass} {x : Word} (h : s.performWrite cls a w x = .done t) :
    (s.setReg q v).performWrite cls a w x = .done (t.setReg q v) := by
  cases ha : isAligned a w with
  | false =>
    rw [State.performWrite_split ha] at h ⊢
    exact setReg_writeSplit v h
  | true =>
    cases cls with
    | memory =>
      rw [State.performWrite_memory ha] at h ⊢
      cases h
      rw [setReg_writeMemory]
    | io =>
      rw [State.performWrite_io ha] at h ⊢
      cases h
      rw [State.writeDevice, setReg_record, State.writeDevice]

theorem performRead_ne_raised (s : State) (cls : RegionClass) (a : Word) (w : Width) (x : Exn) :
    s.performRead cls a w ≠ .raised x := by
  intro h
  cases ha : isAligned a w with
  | true => cases cls <;> simp [State.performRead, ha] at h
  | false =>
    rw [State.performRead_split ha] at h
    rcases s.readSplit_cases cls a w with ⟨-, p, hp⟩ | ⟨-, a', hp⟩ <;> rw [hp] at h <;> cases h

theorem performWrite_ne_raised (s : State) (cls : RegionClass) (a : Word) (w : Width) (v : Word) (x : Exn) :
    s.performWrite cls a w v ≠ .raised x := by
  intro h
  cases ha : isAligned a w with
  | true => cases cls <;> simp [State.performWrite, ha] at h
  | false =>
    rw [State.performWrite_split ha] at h
    rcases s.writeSplit_cases cls a w v with ⟨-, p, hp⟩ | ⟨-, a', hp⟩ <;> rw [hp] at h <;> cases h

theorem setReg_memRead_done {p : Word × State} (h : s.memRead a w = .done p) :
    (s.setReg q v).memRead a w = .done (p.1, p.2.setReg q v) := by
  cases hc : misalignedCause s.params a w .loadAddressMisaligned .loadAccessFault with
  | some c => rw [State.memRead_misaligned hc] at h; cases h
  | none =>
    cases hm : memmapAnswer s.params .read a w with
    | none => rw [State.memRead_denied hc hm] at h; cases h
    | some cls =>
      rw [State.memRead_allowed hc hm] at h
      rw [← State.setReg_params s q v] at hc hm
      rw [State.memRead_allowed hc hm]
      exact setReg_performRead v h

theorem setReg_memRead_raised {x : Exn} (h : s.memRead a w = .raised x) : (s.setReg q v).memRead a w = .raised x := by
  cases hc : misalignedCause s.params a w .loadAddressMisaligned .loadAccessFault with
  | some c =>
    rw [State.memRead_misaligned hc] at h
    rw [← State.setReg_params s q v] at hc
    rw [State.memRead_misaligned hc, h]
  | none =>
    cases hm : memmapAnswer s.params .read a w with
    | none =>
      rw [State.memRead_denied hc hm] at h
      rw [← State.setReg_params s q v] at hc hm
      rw [State.memRead_denied hc hm, h]
    | some cls =>
      rw [State.memRead_allowed hc hm] at h
      exact absurd h (performRead_ne_raised s cls a w x)

theorem setReg_memWrite_done {x : Word} (h : s.memWrite a w x = .done t) :
    (s.setReg q v).memWrite a w x = .done (t.setReg q v) := by
  cases hc : misalignedCause s.params a w .storeAddressMisaligned .storeAccessFault with
  | some c => rw [State.memWrite_misaligned hc] at h; cases h
  | none =>
    cases hm : memmapAnswer s.params .write a w with
    | none => rw [State.memWrite_denied hc hm] at h; cases h
    | some cls =>
      cases ht : (touched a w).any (isText s.params) with
      | true => rw [State.memWrite_text hc (hm ▸ rfl) ht] at h; cases h
      | false =>
        rw [State.memWrite_allowed hc hm ht] at h
        rw [← State.setReg_params s q v] at hc hm ht
        rw [State.memWrite_allowed hc hm ht]
        exact setReg_performWrite v h

theorem setReg_memWrite_raised {x : Word} {e : Exn} (h : s.memWrite a w x = .raised e) :
    (s.setReg q v).memWrite a w x = .raised e := by
  cases hc : misalignedCause s.params a w .storeAddressMisaligned .storeAccessFault with
  | some c =>
    rw [State.memWrite_misaligned hc] at h
    rw [← State.setReg_params s q v] at hc
    rw [State.memWrite_misaligned hc, h]
  | none =>
    cases hm : memmapAnswer s.params .write a w with
    | none =>
      rw [State.memWrite_denied hc hm] at h
      rw [← State.setReg_params s q v] at hc hm
      rw [State.memWrite_denied hc hm, h]
    | some cls =>
      cases ht : (touched a w).any (isText s.params) with
      | true => rw [State.memWrite_text hc (hm ▸ rfl) ht] at h; cases h
      | false =>
        rw [State.memWrite_allowed hc hm ht] at h
        exact absurd h (performWrite_ne_raised s cls a w x e)

theorem setReg_effectiveAddress {rs1 : RegIdx} {imm : BitVec 12} (h : q ≠ rs1) :
    (s.setReg q v).effectiveAddress rs1 imm = s.effectiveAddress rs1 imm := by
  rw [State.effectiveAddress, State.effectiveAddress, State.reg_setReg_ne s v h.symm]

end

/-! ## A register that is no source (R22) -/

/-- What becomes of a change of register `q` before an instruction: `t` is what the instruction answers without it, `t'`
with it. -/
def CarriesAlong (i : Instr) (s : State) (q : RegIdx) (v : Word) (t t' : State) : Prop :=
  (∀ r, r ≠ q → t'.reg r = t.reg r) ∧ t'.pc = t.pc ∧ SameMemory t t' ∧ SameEnvironment t t' ∧ SameTrace t t'
    ∧ (destination i = some q → s.trap = none → t.trap = none → t'.reg q = t.reg q)
    ∧ (destination i ≠ some q ∨ (s.trap = none ∧ t.trap ≠ none) → t'.reg q = (s.setReg q v).reg q)

section
variable {i : Instr} {s t u : State} {q rd : RegIdx} {v : Word}

/-- An end that writes no register, or takes a trap, keeps the change. -/
theorem carriesAlong_kept (hend : destination i = none ∨ t.trap ≠ none) :
    CarriesAlong i s q v t (t.setReg q v) := by
  refine ⟨fun r hr => State.reg_setReg_ne t v hr, State.setReg_pc t q v, State.setReg_byteAt t q v, ?_, ?_, ?_, ?_⟩
  · exact ⟨State.setReg_params t q v, State.setReg_trap t q v, State.setReg_replies t q v, State.setReg_foreign t q v⟩
  · exact ⟨State.setReg_draws t q v, State.setReg_events t q v, State.setReg_splits t q v⟩
  · intro hdest _ htrap
    rcases hend with hnone | hne
    · rw [hnone] at hdest; cases hdest
    · exact absurd htrap hne
  · intro _
    rw [State.reg_setReg_same, State.reg_setReg_same]

/-- An end that writes rd overwrites the change if it is of rd, and keeps it otherwise. -/
theorem carriesAlong_written {x pc : Word} (hrd : destination i = some rd) (htrap : u.trap = s.trap) :
    CarriesAlong i s q v ((u.setReg rd x).setPc pc) (((u.setReg q v).setReg rd x).setPc pc) := by
  refine ⟨fun r hr => ?_, rfl, fun b => ?_, ?_, ?_, fun hdest _ _ => ?_, fun hkept => ?_⟩
  · simp only [State.setPc_reg]
    by_cases hrrd : r = rd
    · rw [hrrd, State.reg_setReg_same, State.reg_setReg_same]
    · rw [State.reg_setReg_ne _ _ hrrd, State.reg_setReg_ne _ _ hr, State.reg_setReg_ne _ _ hrrd]
  · simp
  · simp [SameEnvironment]
  · simp [SameTrace]
  · rw [hrd, Option.some.injEq] at hdest
    rw [hdest, State.setPc_reg, State.setPc_reg, State.reg_setReg_same, State.reg_setReg_same]
  · rcases hkept with hdest | ⟨hs, ht⟩
    · have hqrd : q ≠ rd := fun e => hdest (e ▸ hrd)
      rw [State.setPc_reg, State.reg_setReg_ne _ _ hqrd, State.reg_setReg_same, State.reg_setReg_same]
    · rw [State.setPc_trap, State.setReg_trap, htrap] at ht
      exact absurd hs ht

theorem jump_carriesAlong {target : Word} (hrd : destination i = some rd) (h : s.jump rd target = .next t) :
    Completes ((s.setReg q v).jump rd target) (CarriesAlong i s q v t) := by
  rcases jump_next h with ⟨ha, rfl⟩ | ⟨ha, rfl⟩
  · rw [State.jump_aligned ha, State.setReg_nextPc]
    exact ⟨_, rfl, carriesAlong_written hrd rfl⟩
  · rw [State.jump_misaligned ha, setReg_takeTrap]
    exact ⟨_, rfl, carriesAlong_kept (.inr nofun)⟩

theorem branch_carriesAlong {taken : Bool} {off : BitVec 13} (hrd : destination i = none)
    (h : s.branch taken off = .next t) :
    Completes ((s.setReg q v).branch taken off) (CarriesAlong i s q v t) := by
  have htarget : (s.setReg q v).branchTarget off = s.branchTarget off := by
    rw [State.branchTarget, State.branchTarget, State.setReg_pc]
  rcases branch_next h with ⟨rfl, rfl⟩ | ⟨rfl, ha, rfl⟩ | ⟨rfl, ha, rfl⟩
  · rw [State.branch_not_taken, setReg_advance]
    exact ⟨_, rfl, carriesAlong_kept (.inl hrd)⟩
  · rw [State.branch_taken (htarget ▸ ha), htarget, setReg_setPc]
    exact ⟨_, rfl, carriesAlong_kept (.inl hrd)⟩
  · rw [State.branch_misaligned (htarget ▸ ha), htarget, setReg_takeTrap]
    exact ⟨_, rfl, carriesAlong_kept (.inl hrd)⟩

theorem load_carriesAlong {w : Width} {extend : Word → Word} {rs1 : RegIdx} {imm : BitVec 12}
    (hrd : destination i = some rd) (hq : q ≠ rs1) (h : s.load w extend rd rs1 imm = .next t) :
    Completes ((s.setReg q v).load w extend rd rs1 imm) (CarriesAlong i s q v t) := by
  rcases load_next_inv h with ⟨p, hp, rfl⟩ | ⟨x, hx, rfl⟩
  · obtain ⟨⟨-, -, -, htrap, -⟩, -⟩ := memRead_frame hp
    refine ⟨_, State.load_done (by rw [setReg_effectiveAddress v hq, setReg_memRead_done v hp]), ?_⟩
    simp only [State.advance, State.setReg_nextPc]
    exact carriesAlong_written hrd htrap
  · refine ⟨_, State.load_raised (by rw [setReg_effectiveAddress v hq, setReg_memRead_raised v hx]), ?_⟩
    rw [setReg_takeTrap]
    exact carriesAlong_kept (.inr nofun)

theorem store_carriesAlong {w : Width} {rs2 rs1 : RegIdx} {imm : BitVec 12} (hrd : destination i = none)
    (hbase : q ≠ rs1) (hvalue : q ≠ rs2) (h : s.store w rs2 rs1 imm = .next t) :
    Completes ((s.setReg q v).store w rs2 rs1 imm) (CarriesAlong i s q v t) := by
  have hreg := State.reg_setReg_ne s v hvalue.symm
  rcases store_next_inv h with ⟨u, hu, rfl⟩ | ⟨x, hx, rfl⟩
  · refine ⟨_, State.store_done (by rw [setReg_effectiveAddress v hbase, hreg, setReg_memWrite_done v hu]), ?_⟩
    rw [setReg_advance]
    exact carriesAlong_kept (.inl hrd)
  · refine ⟨_, State.store_raised (by rw [setReg_effectiveAddress v hbase, hreg, setReg_memWrite_raised v hx]), ?_⟩
    rw [setReg_takeTrap]
    exact carriesAlong_kept (.inl hrd)

end

/-- Settles O18: each form carries along a register it does not read. -/
theorem readsOnlyItsSources : Obligations.ReadsOnlyItsSources := by
  intro i s t q v hq h
  have hne {r : RegIdx} (hr : r ∈ sources i) : q ≠ r := fun e => hq (e ▸ hr)
  cases exec_form i with
  | compute rd value hexec hreads hrd =>
    rw [hexec] at h ⊢
    cases h
    rw [hreads q hq, State.compute]
    refine ⟨_, rfl, ?_⟩
    simp only [State.advance, State.setReg_nextPc]
    exact carriesAlong_written hrd rfl
  | jump rd target hexec hreads hrd =>
    rw [hexec] at h ⊢
    rw [hreads q hq]
    exact jump_carriesAlong hrd h
  | branch taken off hexec hreads hrd =>
    rw [hexec] at h ⊢
    rw [hreads q hq]
    exact branch_carriesAlong hrd h
  | load w extend rd rs1 imm hexec hsource hrd =>
    rw [hexec] at h ⊢
    exact load_carriesAlong hrd (hne hsource) h
  | store w rs2 rs1 imm hexec hbase hvalue hrd =>
    rw [hexec] at h ⊢
    exact store_carriesAlong hrd (hne hbase) (hne hvalue) h
  | fence fm pred succ hexec hrd =>
    rw [hexec] at h ⊢
    cases h
    refine ⟨_, rfl, ?_⟩
    rw [setReg_record, setReg_advance]
    exact carriesAlong_kept (.inl hrd)
  | trap x hexec hrd =>
    rw [hexec] at h ⊢
    cases h
    refine ⟨_, rfl, ?_⟩
    rw [setReg_takeTrap]
    exact carriesAlong_kept (.inl hrd)

end Sys2Proof.Forms
end

section
/-! PROOFS. FENCE, its named encodings and the HINTs (43_memory_ordering.md, 45_hints.md): a FENCE is its event and the
advance, and a result written to x0 is discarded, which leaves the advance. -/

namespace Sys2Proof.Fences

open Sys2Proof Sys2Proof.Machine Sys2Proof.Encoding Sys2Proof.Forms

/-! ## FENCE (R190 to R196) -/

theorem fenceEvent_advancesOnly (s : State) (fm : BitVec 4) (pred succ : AccessSet) :
    Completes (s.fenceEvent fm pred succ) (AdvancesOnly s) :=
  ⟨_, rfl, rfl, fun _ => rfl, fun _ => rfl, ⟨rfl, rfl, rfl, rfl⟩, rfl, rfl⟩

/-- Settles O56: the word is the fields one after another, and the fields play no part in what the hart does. -/
theorem fenceAdvances : Obligations.FenceAdvances := by
  intro fm pred succ rs1 rd s
  exact ⟨rfl, fenceEvent_advancesOnly s fm pred succ⟩

/-- Settles O57: both are one word of the FENCE row, and execute as a FENCE. -/
theorem namedFencesAdvance : Obligations.NamedFencesAdvance := by
  intro s
  exact ⟨by decide, by decide, fenceEvent_advancesOnly s _ _ _, by decide, by decide, fenceEvent_advancesOnly s _ _ _⟩

/-- Settles O58: the event is the one a FENCE with those fields adds. -/
theorem fencesAreRecorded : Obligations.FencesAreRecorded := by
  intro fm pred succ rs1 rd s
  exact ⟨⟨_, rfl, rfl⟩, rfl, rfl⟩

/-- Settles O10: such a word meets the FENCE row, and so decodes to a FENCE or to one of its two named encodings. -/
theorem everyFenceWordIsAFence : Obligations.EveryFenceWordIsAFence := by
  intro w s hop h3
  by_cases htso : w = 0x8330000F#32
  · exact ⟨.fenceTso, htso ▸ decode_fenceTso, rfl, rfl, fenceEvent_advancesOnly s _ _ _⟩
  by_cases hpause : w = 0x0100000F#32
  · exact ⟨.pause, hpause ▸ decode_pause, rfl, rfl, fenceEvent_advancesOnly s _ _ _⟩
  exact ⟨_, decode_fence (hits_rowFence_iff.mpr ⟨h3, hop⟩) htso hpause, rfl, rfl, fenceEvent_advancesOnly s _ _ _⟩

/-! ## HINTs (R210, R211) -/

theorem isSome_whenX0 (rd : RegIdx) (p : HintPurpose) : (whenX0 rd p).isSome = true ↔ rd = 0#5 := by
  unfold whenX0
  split <;> simp_all

theorem isSome_fenceHint (fm : BitVec 4) (pred succ : AccessSet) (rs1 rd : RegIdx) :
    (fenceHint fm pred succ rs1 rd).isSome = true
      ↔ fm = 0#4 ∧ (pred = .none ∨ succ = .none) ∧ (rd = 0#5 ∨ rs1 = 0#5) := by
  unfold fenceHint
  split
  · rename_i h
    refine iff_of_true ?_ h
    split <;> rfl
  · rename_i h
    exact iff_of_false Bool.false_ne_true h

/-- The HINTs by the code points of Table 5 (R211). -/
def IsHintCodePoint (i : Instr) : Prop :=
  (destination i = some 0#5 ∧ isControl i = false ∧ dataAccess i = none ∧ i ≠ pseudoNop) ∨ i = .pause
    ∨ ∃ pred succ rs1 rd, i = .fence 0#4 pred succ rs1 rd ∧ (pred = .none ∨ succ = .none) ∧ (rd = 0#5 ∨ rs1 = 0#5)

section
variable {i : Instr}

/-- A computational instruction is a HINT exactly when rd is x0, unless it is NOP. -/
theorem hintCodePoint_of_compute {rd : RegIdx} (hrd : destination i = some rd) (hcontrol : isControl i = false)
    (hdata : dataAccess i = none) : IsHintCodePoint i ↔ rd = 0#5 ∧ i ≠ pseudoNop := by
  have hpause : i ≠ .pause := by rintro rfl; cases hrd
  have hfence : ∀ fm pred succ rs1 rd', i ≠ .fence fm pred succ rs1 rd' := by rintro _ _ _ _ _ rfl; cases hrd
  simp [IsHintCodePoint, hrd, hcontrol, hdata, hpause, hfence]

/-- An instruction that is no computation and no FENCE is no HINT. -/
theorem not_hintCodePoint (h : ∀ rd, destination i = some rd → isControl i = true ∨ dataAccess i ≠ none)
    (hpause : i ≠ .pause) (hfence : ∀ fm pred succ rs1 rd, i ≠ .fence fm pred succ rs1 rd) : ¬ IsHintCodePoint i := by
  rintro (⟨hrd, hcontrol, hdata, -⟩ | hp | ⟨pred, succ, rs1, rd, hf, -⟩)
  · rcases h _ hrd with hc | hd
    · rw [hcontrol] at hc; cases hc
    · exact hd hdata
  · exact hpause hp
  · exact hfence _ _ _ _ _ hf

end

theorem isSome_hintOf (i : Instr) : (hintOf i).isSome = true ↔ IsHintCodePoint i := by
  cases i with
  | addi rd rs1 imm =>
    rw [hintCodePoint_of_compute rfl rfl rfl]
    simp only [hintOf, pseudoNop]
    split
    · rename_i hnop
      obtain ⟨rfl, rfl⟩ := hnop
      exact iff_of_false Bool.false_ne_true fun ⟨hrd, hne⟩ => hne (by rw [hrd])
    · rename_i hnop
      refine (isSome_whenX0 rd _).trans (and_iff_left_of_imp fun _ heq => ?_).symm
      cases heq
      exact hnop ⟨rfl, rfl⟩
  | slti | sltiu | andi | ori | xori | slli | srli | srai | lui | auipc | add | sub | slt | sltu | and | or | xor | sll
  | srl | sra =>
    rw [hintCodePoint_of_compute rfl rfl rfl]
    exact (isSome_whenX0 _ _).trans (and_iff_left (by simp [pseudoNop])).symm
  | jal | jalr => exact iff_of_false Bool.false_ne_true (not_hintCodePoint (fun _ _ => .inl rfl) (by simp) (by simp))
  | lw | lh | lhu | lb | lbu =>
    exact iff_of_false Bool.false_ne_true (not_hintCodePoint (fun _ _ => .inr nofun) (by simp) (by simp))
  | beq | bne | blt | bge | bltu | bgeu | sw | sh | sb | fenceTso | ecall | ebreak =>
    exact iff_of_false Bool.false_ne_true (not_hintCodePoint nofun (by simp) (by simp))
  | fence fm pred succ rs1 rd =>
    refine (isSome_fenceHint fm pred succ rs1 rd).trans ⟨?_, ?_⟩
    · rintro ⟨rfl, hsets, hregs⟩
      exact .inr (.inr ⟨pred, succ, rs1, rd, rfl, hsets, hregs⟩)
    · rintro (⟨hrd, -⟩ | hpause | ⟨_, _, _, _, heq, hsets, hregs⟩)
      · cases hrd
      · cases hpause
      · cases heq
        exact ⟨rfl, hsets, hregs⟩
  | pause => exact iff_of_true rfl (.inr (.inl rfl))

theorem advance_advancesOnly (s : State) : AdvancesOnly s s.advance :=
  ⟨rfl, fun _ => rfl, fun _ => rfl, ⟨rfl, rfl, rfl, rfl⟩, rfl, rfl⟩

/-- A computational instruction with rd = x0 discards its result. -/
theorem exec_x0_advancesOnly {i : Instr} (s : State) (hrd : destination i = some 0#5) (hcontrol : isControl i = false)
    (hdata : dataAccess i = none) : Completes (exec i s) (AdvancesOnly s) := by
  cases exec_form i with
  | compute rd value hexec _ hrd' =>
    rw [hrd, Option.some.injEq] at hrd'
    subst hrd'
    rw [hexec, State.compute, State.setReg_x0]
    exact ⟨_, rfl, advance_advancesOnly s⟩
  | jump _ _ _ _ _ _ hc | branch _ _ _ _ _ _ hc => rw [hcontrol] at hc; cases hc
  | load _ _ _ _ _ _ _ _ hd | store _ _ _ _ _ _ _ _ hd => rw [hdata] at hd; cases hd
  | fence _ _ _ _ hnone | trap _ _ hnone => rw [hrd] at hnone; cases hnone

/-- Settles O60: the code points are computations into x0 and FENCEs, and each of these only advances. -/
theorem hintsOnlyAdvance : Obligations.HintsOnlyAdvance := by
  intro i s
  refine ⟨isSome_hintOf i, ?_⟩
  rintro (hhint | ⟨pred, succ, rs1, rd, rfl, -⟩)
  · rcases (isSome_hintOf i).mp hhint with ⟨hrd, hcontrol, hdata, -⟩ | rfl | ⟨pred, succ, rs1, rd, rfl, -⟩
    · exact exec_x0_advancesOnly s hrd hcontrol hdata
    · exact fenceEvent_advancesOnly s _ _ _
    · exact fenceEvent_advancesOnly s _ _ _
  · exact fenceEvent_advancesOnly s _ _ _

end Sys2Proof.Fences
end

section
/-! PROOFS. Data accesses (20_memory.md section 4, 42_load_store.md): what each shared end does with ordinary memory, with a
device, byte by byte where the access is split, and where it raises or is refused; then the statements, one width and
extension at a time. -/

namespace Sys2Proof.LoadStore

open Sys2Proof Sys2Proof.Machine Sys2Proof.IntegerComputational Sys2Proof.ControlTransfer Sys2Proof.Step

/-! ## Extensions (R176 to R179) -/

section
variable (v : Word)

theorem half_of_word (h : BitVec 16) : (h.setWidth 32).extractLsb' 0 16 = h := by
  apply BitVec.eq_of_getLsbD_eq
  intro i hi
  interval_cases i <;> simp

theorem extractLsb'_zero_eq_setWidth (n : Nat) : v.extractLsb' 0 n = v.setWidth n := by
  apply BitVec.eq_of_getLsbD_eq
  intro i hi
  simp [hi]

theorem signedBits_half : signedBits .half v = (v.setWidth 16).signExtend 32 := by
  rw [signedBits, extractLsb'_zero_eq_setWidth]

theorem signedBits_byte : signedBits .byte v = (v.setWidth 8).signExtend 32 := by
  rw [signedBits, extractLsb'_zero_eq_setWidth]

/-- The low bits of a value are its remainder (R42). -/
theorem lowBits_eq_ofNat (w : Width) : lowBits w v = BitVec.ofNat 32 (v.toNat % 2 ^ (8 * w.bytes)) := by
  apply BitVec.eq_of_toNat_eq
  cases w with
  | byte | half =>
    simp only [lowBits, Width.bytes, BitVec.toNat_setWidth, BitVec.extractLsb'_toNat, BitVec.toNat_ofNat,
      Nat.shiftRight_zero]
  | word =>
    have hlt := v.isLt
    simp only [lowBits, Width.bytes, BitVec.toNat_ofNat]
    omega

theorem lowBits_toNat_lt (w : Width) : (lowBits w v).toNat < 2 ^ (8 * w.bytes) := by
  have hpos : 0 < 2 ^ (8 * w.bytes) := by positivity
  rw [lowBits_eq_ofNat, BitVec.toNat_ofNat]
  exact (Nat.mod_le _ _).trans_lt (Nat.mod_lt _ hpos)

/-- A value that fits a width is its own zero extension. -/
theorem lowBits_of_lt {w : Width} {v : Word} (h : v.toNat < 2 ^ (8 * w.bytes)) : lowBits w v = v := by
  rw [lowBits_eq_ofNat, Nat.mod_eq_of_lt h, BitVec.ofNat_toNat, BitVec.setWidth_eq]

end

/-! ## Loads -/

section
variable {s : State} {w : Width} {extend : Word → Word} {rd rs1 : RegIdx} {imm : BitVec 12}

/-- A load that raises for its alignment (R46, R50). -/
theorem load_misaligned_raises {c : Cause}
    (h : misalignedCause s.params (s.effectiveAddress rs1 imm) w .loadAddressMisaligned .loadAccessFault = some c) :
    Raises (s.load w extend rd rs1 imm) s c (some (s.effectiveAddress rs1 imm)) := by
  rw [State.load_raised (State.memRead_misaligned h)]
  exact takeTrap_raises s _ _

theorem load_loadRaises : LoadRaises (s.load w extend rd rs1 imm) s (s.effectiveAddress rs1 imm) w :=
  ⟨fun ha hp => load_misaligned_raises (misalignedCause_trap (isAligned_eq_false ha) hp),
    fun ha hm => load_denied_raises ha hm⟩

theorem load_fault_raises (hp : s.params.misaligned = .fault)
    (ha : (s.effectiveAddress rs1 imm).toNat % w.bytes ≠ 0) :
    Raises (s.load w extend rd rs1 imm) s .loadAccessFault (some (s.effectiveAddress rs1 imm)) :=
  load_misaligned_raises (misalignedCause_fault (isAligned_eq_false ha) hp)

/-- A split access to read is the byte accesses of `readSplit`. -/
theorem memRead_split {a : Word} {cls : RegionClass} (hs : IsSplit s.params a w)
    (hm : memmapAnswer s.params .read a w = some cls) : s.memRead a w = s.readSplit cls a w := by
  obtain ⟨ha, hp⟩ := hs
  rw [State.memRead_allowed (misalignedCause_support hp) hm, State.performRead_split (isAligned_eq_false ha)]

/-- A load from ordinary memory computes the extension of what is read there, whole or, with no other agent, split. -/
theorem load_loadsMemory {v : Word} (hv : extend (s.readMemory (s.effectiveAddress rs1 imm) w) = v) :
    LoadsMemory (s.load w extend rd rs1 imm) s (s.effectiveAddress rs1 imm) w rd v := by
  refine fun hm => ⟨fun ha => ?aligned, fun hs hf => ?split⟩
  case aligned => exact completes_of_value (load_eq_compute (by simpa [isAligned] using ha) hm) hv
  case split =>
    have hdone := (memRead_split hs hm).trans (State.readSplit_quiet _ w hf)
    exact completes_of_value (s := s.beginSplit) (State.load_done hdone) hv

theorem splitFrame_afterSplit {n : Nat} {u : State} (h : SplitFrame n s u) : AfterSplit n s u.advance := by
  obtain ⟨-, hpc, hparams, htrap, hreplies, hforeign, hsplits⟩ := h
  refine ⟨?_, hforeign, hsplits, hparams, htrap, hreplies⟩
  rw [State.advance_pc, State.nextPc, hpc]

theorem splitFrame_setReg {n : Nat} {u : State} (h : SplitFrame n s u) (rd : RegIdx) (v : Word) :
    AfterSplit n s (u.setReg rd v).advance := by
  obtain ⟨hpc, hforeign, hsplits, hparams, htrap, hreplies⟩ := splitFrame_afterSplit h
  simp only [AfterSplit, State.advance_pc, State.setReg_nextPc, State.advance_foreign, State.setReg_foreign,
    State.advance_splits, State.setReg_splits, State.advance_params, State.setReg_params, State.advance_trap,
    State.setReg_trap, State.advance_replies, State.setReg_replies]
  exact ⟨hpc, hforeign, hsplits, hparams, htrap, hreplies⟩

theorem sameRegsExcept_setReg {u : State} (h : u.regs = s.regs) (v : Word) :
    SameRegsExcept rd s (u.setReg rd v).advance := by
  intro r hr
  rw [State.advance_reg, State.reg_setReg_ne _ _ hr, State.reg_congr h]

/-- A split load from ordinary memory; the two extensions need agree only on values that fit the width. -/
theorem load_splitLoad {extend' : Word → Word} (hext : ∀ v, v.toNat < 2 ^ (8 * w.bytes) → extend v = extend' v)
    (hs : IsSplit s.params (s.effectiveAddress rs1 imm) w)
    (hm : memmapAnswer s.params .read (s.effectiveAddress rs1 imm) w = some .memory) (hn : s.NoTextWrites w.bytes) :
    SplitLoad (s.load w extend rd rs1 imm) s (s.effectiveAddress rs1 imm) w extend' rd := by
  obtain ⟨v, hv, hlt, hbytes⟩ := State.readSplit_memory (a := s.effectiveAddress rs1 imm) hn
  have hframe := State.readSplit_frame hv
  obtain ⟨hregs, -⟩ := State.readSplit_frame hv
  refine ⟨_, State.load_done ((memRead_split hs hm).trans hv), splitOrder s.splits w, v, splitOrder_perm _ _, hlt, hbytes,
    ?_, sameRegsExcept_setReg hregs _, fun b => ?_, splitFrame_setReg hframe rd _, ?_, ?_⟩
  · rw [State.advance_reg, State.reg_setReg_same, hext v hlt]
  · rw [State.advance_byteAt, State.setReg_byteAt]
    exact State.afterOthers_byteAt s.beginSplit w.bytes b
  · rw [State.advance_draws, State.setReg_draws]; rfl
  · rw [State.advance_events, State.setReg_events]; rfl

/-- A split load from a device. -/
theorem load_splitInput {extend' : Word → Word} (hext : ∀ v, v.toNat < 2 ^ (8 * w.bytes) → extend v = extend' v)
    (hs : IsSplit s.params (s.effectiveAddress rs1 imm) w)
    (hm : memmapAnswer s.params .read (s.effectiveAddress rs1 imm) w = some .io) (hn : s.NoTextWrites w.bytes) :
    SplitInput (s.load w extend rd rs1 imm) s (s.effectiveAddress rs1 imm) w extend' rd := by
  obtain ⟨v, t, answer, ht, hlt, hbytes, hmem, hdraws, hevents⟩ := State.readSplit_io (a := s.effectiveAddress rs1 imm) hn
  have hframe := State.readSplit_frame ht
  obtain ⟨hregs, -⟩ := State.readSplit_frame ht
  refine ⟨_, State.load_done ((memRead_split hs hm).trans ht), splitOrder s.splits w, answer, v, splitOrder_perm _ _, hlt,
    hbytes, ?_, ?_, ?_, sameRegsExcept_setReg hregs _, fun b => ?_, splitFrame_setReg hframe rd _⟩
  · rw [State.advance_events, State.setReg_events, hevents]
  · rw [State.advance_draws, State.setReg_draws, hdraws]
  · rw [State.advance_reg, State.reg_setReg_same, hext v hlt]
  · rw [State.advance_byteAt, State.setReg_byteAt, hmem]

/-- A batch among the bytes of a split load that touches program text refuses it. -/
theorem load_split_refused {cls : RegionClass} (hs : IsSplit s.params (s.effectiveAddress rs1 imm) w)
    (hm : memmapAnswer s.params .read (s.effectiveAddress rs1 imm) w = some cls) (hn : ¬ s.NoTextWrites w.bytes) :
    ∃ a, s.load w extend rd rs1 imm = .refused (.foreignWriteToText a) := by
  rcases s.readSplit_cases cls (s.effectiveAddress rs1 imm) w with ⟨h, -⟩ | ⟨-, a, h⟩
  · exact absurd h hn
  · exact ⟨a, State.load_refused ((memRead_split hs hm).trans h)⟩

/-- An aligned load from a device. -/
theorem load_readsDevice {extend' : Word → Word} (hext : ∀ v, v.toNat < 2 ^ (8 * w.bytes) → extend v = extend' v)
    (ha : (s.effectiveAddress rs1 imm).toNat % w.bytes = 0)
    (hm : memmapAnswer s.params .read (s.effectiveAddress rs1 imm) w = some .io) :
    Completes (s.load w extend rd rs1 imm) (ReadsDevice (s.effectiveAddress rs1 imm) w extend' rd s) := by
  have haligned : isAligned (s.effectiveAddress rs1 imm) w = true := by simpa [isAligned] using ha
  have hdone := (State.memRead_allowed (misalignedCause_aligned haligned) hm).trans (State.performRead_io haligned)
  have hlt : (s.readDevice (s.effectiveAddress rs1 imm) w).1.toNat < 2 ^ (8 * w.bytes) := lowBits_toNat_lt _ w
  refine ⟨_, State.load_done hdone, _, hlt, ?_, ?_, ?_, ?_, ?_, sameRegsExcept_setReg (State.readDevice_regs ..) _, ?_, ?_⟩
  · rw [State.advance_reg, State.reg_setReg_same, hext _ hlt]
  · rw [State.advance_events, State.setReg_events, State.readDevice_events]
  · rw [State.advance_draws, State.setReg_draws, State.readDevice_draws]
  · rw [State.advance_splits, State.setReg_splits, State.readDevice_splits]
  · rw [State.advance_pc, State.setReg_nextPc, State.readDevice_nextPc, State.nextPc]
  · intro b; simp
  · simp [SameEnvironment]

end

/-! ## Stores -/

section
variable {s : State} {w : Width} {rs2 rs1 : RegIdx} {imm : BitVec 12}

/-- A store that raises for its alignment (R47, R50). -/
theorem store_misaligned_raises {c : Cause}
    (h : misalignedCause s.params (s.effectiveAddress rs1 imm) w .storeAddressMisaligned .storeAccessFault = some c) :
    Raises (s.store w rs2 rs1 imm) s c (some (s.effectiveAddress rs1 imm)) := by
  rw [State.store_raised (State.memWrite_misaligned h)]
  exact takeTrap_raises s _ _

theorem store_denied_raises (ha : AlignmentOk s.params (s.effectiveAddress rs1 imm) w)
    (hm : memmapAnswer s.params .write (s.effectiveAddress rs1 imm) w = none) :
    Raises (s.store w rs2 rs1 imm) s .storeAccessFault (some (s.effectiveAddress rs1 imm)) := by
  rw [State.store_raised (State.memWrite_denied (misalignedCause_ok ha) hm)]
  exact takeTrap_raises s _ _

theorem store_storeRaises : StoreRaises (s.store w rs2 rs1 imm) s (s.effectiveAddress rs1 imm) w :=
  ⟨fun ha hp => store_misaligned_raises (misalignedCause_trap (isAligned_eq_false ha) hp),
    fun ha hm => store_denied_raises ha hm⟩

theorem store_fault_raises (hp : s.params.misaligned = .fault)
    (ha : (s.effectiveAddress rs1 imm).toNat % w.bytes ≠ 0) :
    Raises (s.store w rs2 rs1 imm) s .storeAccessFault (some (s.effectiveAddress rs1 imm)) :=
  store_misaligned_raises (misalignedCause_fault (isAligned_eq_false ha) hp)

/-- An aligned store that the map allows, and that touches no program text. -/
theorem memWrite_aligned {a v : Word} {cls : RegionClass} (ha : a.toNat % w.bytes = 0)
    (hm : memmapAnswer s.params .write a w = some cls) (ht : ∀ b ∈ touched a w, isText s.params b = false) :
    s.memWrite a w v = s.performWrite cls a w v :=
  State.memWrite_allowed (misalignedCause_ok (.inl ha)) hm (any_isText_eq_false ht)

/-- A split access to write is the byte accesses of `writeSplit`. -/
theorem memWrite_split {a v : Word} {cls : RegionClass} (hs : IsSplit s.params a w)
    (hm : memmapAnswer s.params .write a w = some cls) (ht : ∀ b ∈ touched a w, isText s.params b = false) :
    s.memWrite a w v = s.writeSplit cls a w v := by
  obtain ⟨ha, hp⟩ := hs
  rw [State.memWrite_allowed (misalignedCause_support hp) hm (any_isText_eq_false ht),
    State.performWrite_split (isAligned_eq_false ha)]

/-- An aligned store to ordinary memory. -/
theorem store_eq_next (hc : CanStore s.params (s.effectiveAddress rs1 imm) w) :
    s.store w rs2 rs1 imm = .next (s.writeMemory (s.effectiveAddress rs1 imm) w (s.reg rs2)).advance := by
  obtain ⟨ha, hm, ht⟩ := hc
  exact State.store_done ((memWrite_aligned ha hm ht).trans (State.performWrite_memory (by simpa [isAligned] using ha)))

/-- The byte a store puts `k` bytes above its address. -/
theorem writeMemory_byteAt {a v : Word} {k : Nat} (hk : k < w.bytes) :
    (s.writeMemory a w v).byteAt (byteAddress a k) = byteOfValue s.params.endian w.bytes k v := by
  rw [State.writeMemory_byteAt_inside s a w v k hk, ← getD_bytesOf _ _ _ hk, List.getD_eq_getElem]

theorem store_storesOnly (hc : CanStore s.params (s.effectiveAddress rs1 imm) w) :
    Completes (s.store w rs2 rs1 imm) (StoresOnly (s.effectiveAddress rs1 imm) w (s.reg rs2) s) :=
  ⟨_, store_eq_next hc, fun _ hk => writeMemory_byteAt hk, fun _ hb => State.writeMemory_byteAt_outside s _ hb, rfl,
    fun _ => rfl, ⟨rfl, rfl, rfl, rfl⟩, rfl, rfl, rfl⟩

/-- A store to ordinary memory stores the low bytes of rs2, whole or, with no other agent, split. -/
theorem store_storesMemory : StoresMemory (s.store w rs2 rs1 imm) s (s.effectiveAddress rs1 imm) w (s.reg rs2) := by
  refine fun hm ht => ⟨fun ha => store_storesOnly ⟨ha, hm, ht⟩, fun hs hf => ?split⟩
  case split =>
    obtain ⟨t, hdone, hdraws, hevents, hin, hout⟩ :=
      State.writeSplit_quiet (a := s.effectiveAddress rs1 imm) (w := w) (v := s.reg rs2) hf
    obtain ⟨hregs, hpc, hparams, htrap, hreplies, hforeign, hsplits⟩ := State.writeSplit_frame hdone
    have hforeign' : t.foreign = s.foreign := by rw [hforeign, hf, List.drop_nil]
    refine ⟨_, State.store_done ((memWrite_split hs hm ht).trans hdone), hin, hout, ?_, State.reg_congr hregs,
      ⟨hparams, htrap, hreplies, hforeign'⟩, hdraws, hevents, hsplits⟩
    rw [State.advance_pc, State.nextPc, hpc, State.beginSplit_pc]

/-- A split store to ordinary memory. -/
theorem store_splitStore (hs : IsSplit s.params (s.effectiveAddress rs1 imm) w)
    (hm : memmapAnswer s.params .write (s.effectiveAddress rs1 imm) w = some .memory)
    (ht : ∀ b ∈ touched (s.effectiveAddress rs1 imm) w, isText s.params b = false) (hn : s.NoTextWrites w.bytes) :
    SplitStore (s.store w rs2 rs1 imm) s (s.effectiveAddress rs1 imm) w (s.reg rs2) := by
  obtain ⟨t, hdone, hdraws, hevents, hin, hout⟩ :=
    State.writeSplit_memory (a := s.effectiveAddress rs1 imm) (v := s.reg rs2) hn
  have hframe := State.writeSplit_frame hdone
  obtain ⟨hregs, -⟩ := State.writeSplit_frame hdone
  exact ⟨_, State.store_done ((memWrite_split hs hm ht).trans hdone), splitOrder s.splits w, splitOrder_perm _ _, hin, hout,
    State.reg_congr hregs, splitFrame_afterSplit hframe, hdraws, hevents⟩

/-- A split store to a device. -/
theorem store_splitOutput (hs : IsSplit s.params (s.effectiveAddress rs1 imm) w)
    (hm : memmapAnswer s.params .write (s.effectiveAddress rs1 imm) w = some .io)
    (ht : ∀ b ∈ touched (s.effectiveAddress rs1 imm) w, isText s.params b = false) (hn : s.NoTextWrites w.bytes) :
    SplitOutput (s.store w rs2 rs1 imm) s (s.effectiveAddress rs1 imm) w (s.reg rs2) := by
  obtain ⟨t, hdone, hmem, hdraws, hevents⟩ :=
    State.writeSplit_io (a := s.effectiveAddress rs1 imm) (v := s.reg rs2) hn
  have hframe := State.writeSplit_frame hdone
  obtain ⟨hregs, -⟩ := State.writeSplit_frame hdone
  exact ⟨_, State.store_done ((memWrite_split hs hm ht).trans hdone), splitOrder s.splits w, splitOrder_perm _ _, hevents,
    hdraws, State.reg_congr hregs, hmem, splitFrame_afterSplit hframe⟩

/-- A batch among the bytes of a split store that touches program text refuses it. -/
theorem store_split_refused {cls : RegionClass} (hs : IsSplit s.params (s.effectiveAddress rs1 imm) w)
    (hm : memmapAnswer s.params .write (s.effectiveAddress rs1 imm) w = some cls)
    (ht : ∀ b ∈ touched (s.effectiveAddress rs1 imm) w, isText s.params b = false) (hn : ¬ s.NoTextWrites w.bytes) :
    ∃ a, s.store w rs2 rs1 imm = .refused (.foreignWriteToText a) := by
  rcases s.writeSplit_cases cls (s.effectiveAddress rs1 imm) w (s.reg rs2) with ⟨h, -⟩ | ⟨-, a, h⟩
  · exact absurd h hn
  · exact ⟨a, State.store_refused ((memWrite_split hs hm ht).trans h)⟩

/-- An aligned store to a device. -/
theorem store_writesDevice (ha : (s.effectiveAddress rs1 imm).toNat % w.bytes = 0)
    (hm : memmapAnswer s.params .write (s.effectiveAddress rs1 imm) w = some .io)
    (ht : ∀ b ∈ touched (s.effectiveAddress rs1 imm) w, isText s.params b = false) :
    Completes (s.store w rs2 rs1 imm) (WritesDevice (s.effectiveAddress rs1 imm) w (s.reg rs2) s) := by
  have hdone := (memWrite_aligned (v := s.reg rs2) ha hm ht).trans
    (State.performWrite_io (by simpa [isAligned] using ha))
  refine ⟨_, State.store_done hdone, ?_, rfl, rfl, rfl, fun _ => rfl, fun _ => rfl, ⟨rfl, rfl, rfl, rfl⟩⟩
  rw [State.advance_events, State.writeDevice_events, lowBits_eq_ofNat]

/-- A store that the map allows to program text is refused (R61). -/
theorem store_text_refused (ha : AlignmentOk s.params (s.effectiveAddress rs1 imm) w)
    (hm : (memmapAnswer s.params .write (s.effectiveAddress rs1 imm) w).isSome = true)
    (ht : ∃ b ∈ touched (s.effectiveAddress rs1 imm) w, isText s.params b = true) :
    s.store w rs2 rs1 imm = .refused (.storeToText (s.effectiveAddress rs1 imm)) :=
  State.store_refused (State.memWrite_text (misalignedCause_ok ha) hm (List.any_eq_true.mpr ht))

end

/-! ## The statements on loads -/

theorem signedBits_readMemory_half (s : State) (a : Word) :
    signedBits .half (s.readMemory a .half) = BitVec.ofInt 32 (s.halfAt a).toInt := by
  rw [State.readMemory_half, signedBits, half_of_word, BitVec.signExtend]

theorem lowBits_readMemory_half (s : State) (a : Word) :
    lowBits .half (s.readMemory a .half) = BitVec.ofNat 32 (s.halfAt a).toNat := by
  rw [State.readMemory_half, lowBits, half_of_word, BitVec.ofNat_toNat]

/-- Settles O44: LW is the load of a word. -/
theorem lwLoadsWord : Obligations.LwLoadsWord := by
  intro rd rs1 imm s ea
  exact ⟨rfl, load_loadsMemory (State.readMemory_word s ea), load_loadRaises⟩

/-- Settles O45: LH and LHU are the loads of a halfword with the two extensions. -/
theorem lhLhuLoadHalf : Obligations.LhLhuLoadHalf := by
  intro rd rs1 imm s ea
  exact ⟨rfl, rfl, load_loadsMemory (signedBits_readMemory_half s ea), load_loadsMemory (lowBits_readMemory_half s ea),
    load_loadRaises, load_loadRaises⟩

/-- Settles O50: the value drawn fits its width, so that its zero extension is the value itself. -/
theorem loadsFromDevices : Obligations.LoadsFromDevices := by
  intro rd rs1 imm s ea io split signed16
  have hsigned16 (v : Word) (_ : v.toNat < 2 ^ (8 * Width.half.bytes)) : signedBits .half v = signed16 v :=
    signedBits_half v
  refine ⟨fun ⟨ha, hm⟩ => ?lw, fun ⟨ha, hm⟩ => ⟨?lh, ?lhu⟩, fun ⟨ha, hm⟩ => ⟨?lb, ?lbu⟩, fun ⟨hs, hm, hn⟩ => ?splitLw,
    fun ⟨hs, hm, hn⟩ => ⟨?splitLh, ?splitLhu⟩⟩
  case lw => exact load_readsDevice (fun _ => lowBits_of_lt) ha hm
  case lh => exact load_readsDevice hsigned16 ha hm
  case lhu => exact load_readsDevice (fun _ => lowBits_of_lt) ha hm
  case lb => exact load_readsDevice (fun v _ => signedBits_byte v) ha hm
  case lbu => exact load_readsDevice (fun _ => lowBits_of_lt) ha hm
  case splitLw => exact load_splitInput (fun _ => lowBits_of_lt) hs hm hn
  case splitLh => exact load_splitInput hsigned16 hs hm hn
  case splitLhu => exact load_splitInput (fun _ => lowBits_of_lt) hs hm hn

/-! ## The statements on stores -/

/-- Settles O47: SW is the store of a word. -/
theorem swStoresWord : Obligations.SwStoresWord := by
  intro rs2 rs1 imm s ea
  exact ⟨rfl, store_storesMemory, store_storeRaises⟩

/-- Settles O48: SH and SB are the stores of a halfword and of a byte, which is always aligned. -/
theorem shSbStore : Obligations.ShSbStore := by
  intro rs2 rs1 imm s ea
  exact ⟨rfl, rfl, store_storesMemory, store_storesOnly, store_storeRaises, store_denied_raises (alignmentOk_byte _ _)⟩

/-- Settles O49: under this policy the exception of a misaligned access is the access fault. -/
theorem misalignedFaultPolicy : Obligations.MisalignedFaultPolicy := by
  intro r rs1 imm s hp ea
  exact ⟨fun ha => ⟨load_fault_raises hp ha, store_fault_raises hp ha⟩,
    fun ha => ⟨load_fault_raises hp ha, load_fault_raises hp ha, store_fault_raises hp ha⟩⟩

/-- Settles O51: the event carries the low bits of rs2, or one byte of it at a time. -/
theorem storesToDevices : Obligations.StoresToDevices := by
  intro rs2 rs1 imm s ea allowed io split
  exact ⟨fun ⟨ha, hm, ht⟩ => store_writesDevice ha hm ht, fun ⟨ha, hm, ht⟩ => store_writesDevice ha hm ht,
    fun ⟨ha, hm, ht⟩ => store_writesDevice ha hm ht, fun ⟨hs, ⟨hm, ht⟩, hn⟩ => store_splitOutput hs hm ht hn,
    fun ⟨hs, ⟨hm, ht⟩, hn⟩ => store_splitOutput hs hm ht hn⟩

/-- Settles O52: the check of the touched bytes comes after those of alignment and of the map. -/
theorem storeToTextIsRefused : Obligations.StoreToTextIsRefused := by
  intro rs2 rs1 imm s ea text
  exact ⟨fun ⟨ha, hm, ht⟩ => store_text_refused ha hm ht, fun ⟨ha, hm, ht⟩ => store_text_refused ha hm ht,
    fun ⟨ha, hm, ht⟩ => store_text_refused ha hm ht⟩

end Sys2Proof.LoadStore
end

section
/-! PROOFS. Loads after stores (42_load_store.md section 4): what was stored is what is loaded, whole or in parts. -/

namespace Sys2Proof.LoadStore

open Sys2Proof Sys2Proof.Machine Sys2Proof.IntegerComputational Sys2Proof.ControlTransfer Sys2Proof.Step

/-! ## A load of what was stored (R185, R53) -/

section
variable {t : State} {w : Width} {extend : Word → Word} {rd rs1 : RegIdx} {imm : BitVec 12} {a x : Word}

/-- What an aligned load from ordinary memory leaves in rd. -/
theorem load_reg (hrd : rd ≠ 0#5) (haddr : t.effectiveAddress rs1 imm = a)
    (hc : CanLoad t.params a w) (hx : extend (t.readMemory a w) = x) :
    Completes (t.load w extend rd rs1 imm) fun u => u.reg rd = x := by
  subst haddr hx
  obtain ⟨ha, hm⟩ := hc
  rw [load_eq_compute (by simpa [isAligned] using ha) hm]
  exact completes_compute hrd fun _ hu _ _ => hu

end

theorem signedBits_lowBits_half (v : Word) :
    signedBits .half (lowBits .half v) = (v.extractLsb' 0 16).signExtend 32 := by
  rw [signedBits, lowBits, half_of_word]

theorem signedBits_lowBits_byte (v : Word) :
    signedBits .byte (lowBits .byte v) = (v.extractLsb' 0 8).signExtend 32 := by
  rw [signedBits, lowBits, byte_of_word]

theorem lowBits_lowBits (w : Width) (v : Word) : lowBits w (lowBits w v) = lowBits w v :=
  lowBits_of_lt (lowBits_toNat_lt v w)

theorem lowBits_half_eq_and (v : Word) : lowBits .half v = v &&& 0xFFFF#32 := by
  apply BitVec.eq_of_getLsbD_eq
  intro i hi
  rw [lowBits]
  interval_cases i <;> simp

theorem lowBits_byte_eq_and (v : Word) : lowBits .byte v = v &&& 0xFF#32 := by
  apply BitVec.eq_of_getLsbD_eq
  intro i hi
  rw [lowBits]
  interval_cases i <;> simp

/-- After an aligned store to ordinary memory, a load through the same base and displacement reads the low bits stored. -/
theorem load_after_store {s : State} {w : Width} {extend : Word → Word} {rs2 rs1 rd : RegIdx} {imm : BitVec 12} {x : Word}
    (hrd : rd ≠ 0#5) (hc : CanLoad s.params (s.effectiveAddress rs1 imm) w) (hx : extend (lowBits w (s.reg rs2)) = x) :
    Completes ((s.writeMemory (s.effectiveAddress rs1 imm) w (s.reg rs2)).advance.load w extend rd rs1 imm)
      fun u => u.reg rd = x :=
  load_reg hrd (a := s.effectiveAddress rs1 imm) rfl hc
    ((congrArg extend (State.readMemory_writeMemory s _ w (s.reg rs2))).trans hx)

/-- Settles O54: the bytes of the value, read back in the order they were written in, are its low bits. -/
theorem storeThenLoad : Obligations.StoreThenLoad := by
  intro rs2 rs1 rd imm s hrd ea ok
  refine ⟨fun ⟨ha, hr, hw, ht⟩ => ⟨_, store_eq_next ⟨ha, hw, ht⟩, ?lw⟩,
    fun ⟨ha, hr, hw, ht⟩ => ⟨_, store_eq_next ⟨ha, hw, ht⟩, ?lhu, ?lh⟩,
    fun ⟨ha, hr, hw, ht⟩ => ⟨_, store_eq_next ⟨ha, hw, ht⟩, ?lbu, ?lb⟩⟩
  case lw => exact load_after_store hrd ⟨ha, hr⟩ rfl
  case lhu => exact load_after_store hrd ⟨ha, hr⟩ ((lowBits_lowBits _ _).trans (lowBits_half_eq_and _))
  case lh => exact load_after_store hrd ⟨ha, hr⟩ (signedBits_lowBits_half _)
  case lbu => exact load_after_store hrd ⟨ha, hr⟩ ((lowBits_lowBits _ _).trans (lowBits_byte_eq_and _))
  case lb => exact load_after_store hrd ⟨ha, hr⟩ (signedBits_lowBits_byte _)

/-- The two bytes of a stored word that lie two above its address, in the byte order of the run. -/
theorem halfAt_after_store (s : State) (a v : Word) :
    ((s.writeMemory a .word v).halfAt (a + 2#32)).setWidth 32 = match s.params.endian with
      | .little => v >>> 16
      | .big => v &&& 0xFFFF#32 := by
  have h2 : (s.writeMemory a .word v).byteAt (a + 2#32) = byteOfValue s.params.endian 4 2 v :=
    writeMemory_byteAt (w := .word) (k := 2) (by decide)
  have h3 : (s.writeMemory a .word v).byteAt (a + 2#32 + 1#32) = byteOfValue s.params.endian 4 3 v := by
    rw [BitVec.add_assoc]
    exact writeMemory_byteAt (w := .word) (k := 3) (by decide)
  rw [State.halfAt, State.writeMemory_params, h2, h3]
  cases s.params.endian with
  | little | big =>
    apply BitVec.eq_of_getLsbD_eq
    intro i hi
    simp only [byteOfValue, BitVec.getLsbD_setWidth, BitVec.getLsbD_append]
    interval_cases i <;> simp

/-- Settles O55: each narrow load reads some of the four bytes stored. -/
theorem storeWordLoadNarrow : Obligations.StoreWordLoadNarrow := by
  intro rs2 rs1 base rd imm disp s k hrd ea hc _
  refine ⟨_, store_eq_next hc, fun hk haddr hload => ?byte, fun haddr hload => ?half⟩
  case byte =>
    refine load_reg hrd haddr hload ?_
    rw [State.readMemory_byte, lowBits, byte_of_word]
    exact congrArg (BitVec.setWidth 32) (writeMemory_byteAt (w := .word) hk)
  case half =>
    refine load_reg hrd haddr hload ?_
    rw [State.readMemory_half, lowBits, half_of_word]
    exact halfAt_after_store s ea (s.reg rs2)

end Sys2Proof.LoadStore
end

section
/-! PROOFS. The writes of the environment and of other agents (60_exceptions.md section 6, 20_memory.md sections 4 and 5): the
last one to a register or byte is what it holds. -/

namespace Sys2Proof.Environment

open Sys2Proof Sys2Proof.Machine Sys2Proof.ControlTransfer Sys2Proof.LoadStore Sys2Proof.Step

/-! ## Writes in order -/

/-- Bytes written at addresses of their own: the last write to a byte is what it holds. -/
theorem byteAt_putEach {s t : State} {ws : List (Word × Byte)} (h : t.mem = Memory.putEach s.mem ws) (a : Word) :
    t.byteAt a = lastWritten a (s.byteAt a) ws := by
  rw [State.byteAt, h]
  exact Memory.byte?_putEach s.mem ws a _

theorem lastWritten_of_last {a : Word} (b x : Byte) {before after : List (Word × Byte)} (h : ∀ w ∈ after, w.1 ≠ a) :
    lastWritten a b (before ++ (a, x) :: after) = x := by
  rw [lastWritten_append, lastWritten, if_pos rfl, lastWritten_of_forall_ne x h]

section
variable {r : RegIdx}

theorem setRegs_append (s : State) (l₁ l₂ : List (RegIdx × Word)) : s.setRegs (l₁ ++ l₂) = (s.setRegs l₁).setRegs l₂ := by
  induction l₁ generalizing s with
  | nil => rfl
  | cons p rest ih => exact ih _

theorem setRegs_reg_of_forall_ne (s : State) {l : List (RegIdx × Word)} (h : ∀ w ∈ l, w.1 ≠ r) :
    (s.setRegs l).reg r = s.reg r := by
  induction l generalizing s with
  | nil => rfl
  | cons p rest ih =>
    rw [State.setRegs, ih _ fun w hw => h w (List.mem_cons_of_mem _ hw),
      State.reg_setReg_ne s _ (h p List.mem_cons_self).symm]

theorem setRegs_reg_of_last (s : State) {before after : List (RegIdx × Word)} (v : Word) (hr : r ≠ 0#5)
    (h : ∀ w ∈ after, w.1 ≠ r) : (s.setRegs (before ++ (r, v) :: after)).reg r = v := by
  rw [setRegs_append, State.setRegs, setRegs_reg_of_forall_ne _ h, State.reg_setReg_same, if_neg hr]

end

/-! ## The environment's answer (R240, R246) -/

/-- A restart at an aligned pc that writes no program text. -/
theorem resume_eq_next {s : State} {rec : TrapRecord} {reply : Reply} {rest : List Reply} (hr : s.replies = reply :: rest)
    (ht : ∀ w ∈ reply.memWrites, isText s.params w.1 = false)
    (ha : isAligned (resumePc rec reply.resume) .word = true) :
    s.resume rec = .next { s.setRegs reply.regWrites with
      mem := Memory.putEach s.mem reply.memWrites, pc := resumePc rec reply.resume, trap := none, replies := rest } := by
  have hfind : reply.memWrites.find? (fun w => isText s.params w.1) = none :=
    List.find?_eq_none.mpr fun w hw => by simp [ht w hw]
  simp [State.resume, hr, hfind, ha]

/-- Settles O23: the registers and bytes are written in order, and the rest of the state is set or left. -/
theorem environmentRestartsHart : Obligations.EnvironmentRestartsHart := by
  intro s rec reply rest htrap hreplies htext hpc
  rw [step_stopped htrap, resume_eq_next hreplies htext ((isAligned_word _).mpr hpc)]
  refine ⟨_, rfl, rfl, rfl, State.setRegs_params .., State.setRegs_foreign .., ⟨State.setRegs_draws ..,
    State.setRegs_events .., State.setRegs_splits ..⟩, fun h => ?_, fun h => ?_, fun pc h => ?_, fun r h => ?_,
    fun a h => ?_, fun before r v after heq hr h => ?_, fun before a b after heq h => ?_⟩
  · rw [h, resumePc]
  · rw [h, resumePc]
  · rw [h, resumePc]
  · exact setRegs_reg_of_forall_ne s h
  · rw [byteAt_putEach (s := s) rfl, lastWritten_of_forall_ne _ h]
  · refine Eq.trans (congrArg (fun l => (s.setRegs l).reg r) heq) ?_
    exact setRegs_reg_of_last s v hr h
  · rw [byteAt_putEach (s := s) rfl, heq, lastWritten_of_last _ _ h]

/-! ## Other agents (R51, R58, R59) -/

/-- A batch that touches no program text lands: its last write to a byte is what the byte holds, and nothing else of the
state changes. -/
theorem batch_lands {s : State} {batch : List (Word × Byte)} {rest : List (List (Word × Byte))}
    (hf : s.foreign = batch :: rest) (ht : ∀ w ∈ batch, isText s.params w.1 = false) :
    ∃ s', s.landForeign = .ok s' ∧ s'.regs = s.regs ∧ s'.pc = s.pc ∧ s'.params = s.params ∧ s'.foreign = rest
      ∧ s'.trap = s.trap ∧ s'.replies = s.replies ∧ SameTrace s s'
      ∧ (∀ a, (∀ w ∈ batch, w.1 ≠ a) → s'.byteAt a = s.byteAt a)
      ∧ ∀ before a b after, batch = before ++ (a, b) :: after → (∀ w ∈ after, w.1 ≠ a) → s'.byteAt a = b := by
  have hn : s.NoTextWrites 1 := by simpa [State.NoTextWrites, hf] using ht
  have hmem : (s.afterOthers 1).mem = Memory.putEach s.mem batch := by simp [State.afterOthers, hf]
  refine ⟨_, State.landForeign_ok hn, rfl, rfl, rfl, ?_, rfl, rfl, ⟨rfl, rfl, rfl⟩, fun a h => ?_,
    fun before a b after heq h => ?_⟩
  · simp [State.afterOthers, hf]
  · rw [byteAt_putEach hmem, lastWritten_of_forall_ne _ h]
  · rw [byteAt_putEach hmem, heq, lastWritten_of_last _ _ h]

/-- A batch that touches program text makes the step of a running hart refuse (D15). -/
theorem batch_refused {s : State} {batch : List (Word × Byte)} {rest : List (List (Word × Byte))}
    (hf : s.foreign = batch :: rest) (ht : ∃ w ∈ batch, isText s.params w.1 = true) (hs : s.trap = none) :
    ∃ a, step s = .refused (.foreignWriteToText a) := by
  obtain ⟨w, hw, htext⟩ := ht
  rcases s.landForeign_inv with ⟨hn, -⟩ | ⟨-, a, hl⟩
  · have hfalse := hn w (by simpa [hf] using hw)
    rw [htext] at hfalse
    cases hfalse
  · exact ⟨a, step_refused hs hl⟩

/-- Settles O25: before an instruction a batch lands whole; in a split access one lands before each byte. -/
theorem otherAgentsWriteMemory : Obligations.OtherAgentsWriteMemory := by
  intro s
  refine ⟨fun batch rest hf => ⟨batch_lands hf, batch_refused hf⟩, ?_⟩
  intro r rs1 imm ea reads writes refused
  have hzero {w : Width} (v : Word) (h : v.toNat < 2 ^ (8 * w.bytes)) : lowBits w v = id v := lowBits_of_lt h
  refine ⟨fun ⟨hs, hm⟩ => ⟨fun hn => ?lw, fun hn => ?lwRefused⟩,
    fun ⟨hs, hm⟩ => ⟨fun hn => ⟨?lh, ?lhu⟩, fun hn => ⟨?lhRefused, ?lhuRefused⟩⟩,
    fun ⟨hs, hm, ht⟩ => ⟨fun hn => ?sw, fun hn => ?swRefused⟩,
    fun ⟨hs, hm, ht⟩ => ⟨fun hn => ?sh, fun hn => ?shRefused⟩⟩
  case lw => exact load_splitLoad hzero hs hm hn
  case lh => exact load_splitLoad (fun v _ => signedBits_half v) hs hm hn
  case lhu => exact load_splitLoad hzero hs hm hn
  case sw | sh => exact store_splitStore hs hm ht hn
  case lwRefused | lhRefused | lhuRefused => exact load_split_refused hs hm hn
  case swRefused | shRefused => exact store_split_refused hs hm ht hn

end Sys2Proof.Environment
end
